-- ==== Sys2Proof/Word.lean ====
section
/-! DEFINITION. The one word type of the block: every access and every wire unit is one byte (20_memory.md R72,
30_encoding.md R95). -/

namespace Sys2Proof

/-- `Byte`, an unsigned 8-bit value, bit 0 the least significant (00_scope.md R12). -/
abbrev Byte := BitVec 8

/-- A 4-bit half of a column or a page field (30_encoding.md R93). -/
abbrev Nibble := BitVec 4

end Sys2Proof
end

