-- ==== Sys2Proof/Syntax.lean ====
section
/-! DEFINITION. The operations of the block, one constructor for each of the 34 rows of spec/opcode_table.json
(30_encoding.md R96, R97), and the named operands they take. -/

namespace Sys2Proof

/-- How a drawn pixel combines with the existing bit (43_pixel_buffer.md R190, R192). -/
inductive BlendMode where
  | set
  | clear
  | invert
  deriving DecidableEq, Repr

/-- The four orientations: non-mirrored and three mirror combinations (42_lifecycle.md R170). -/
inductive Orientation where
  | normal
  | m1
  | m2
  | m3
  deriving DecidableEq, Repr

/-- The 14 device registers, each named by a selector of `REGMAP` (10_state.md R44). -/
inductive Reg where
  | tempcomp
  | addrmode
  | framerate
  | bias
  | power
  | gain
  | dispen
  | orient
  | scroll
  | inverse
  | allon
  | colLo
  | colHi
  | page
  deriving DecidableEq, Repr

/-- The class of a wire byte, given by the CD level while it is sent (30_encoding.md R90). -/
inductive WireClass where
  | command
  | data
  deriving DecidableEq, Repr

/-- The source array of a stream: the pixel buffer (`fromBuf` true) or a byte array of the Host
(44_transfer.md R200, R207, R208). -/
inductive Source where
  | buffer
  | array (bytes : List Byte)
  deriving DecidableEq, Repr

/-- The operations. `x`, `y` are signed coordinates, compared and added as integers (00_scope.md R14);
`w`, `h`, `column`, `page`, `delayUs` are naturals; their ranges are `Instr.wellFormed`. -/
inductive Instr where
  -- host operations
  | beginOp (vbias : Byte)
  | reset
  | displayEnable (v : Byte)
  | scroll (v : Byte)
  | orient (v : Byte)
  | invert (v : Byte)
  | allOn (v : Byte)
  | setPixel (x y : Int) (mode : BlendMode)
  | clearBuffer
  | transfer (x y : Int) (w h : Nat)
  | bitmap (x y : Int) (w h : Nat) (image : List Byte)
  | fillScreen (pattern : Byte) (delayUs : Nat)
  | fillPage (pattern : Byte)
  -- internal operations, not issuable by the Host
  | sendByte (b : Byte)
  | sendCommand (sel : Reg) (v : Byte)
  | sendData (b : Byte)
  | initRegs (vbias : Byte)
  | stream (x y : Int) (w h : Nat) (src : Source)
  | addrTriple (column page : Nat)
  -- wire bytes
  | data (b : Byte)
  | cmdTempcomp
  | cmdAddrmode
  | cmdFramerate
  | cmdBias
  | cmdPower
  | cmdGain (v : Byte)
  | cmdDispen (v : Byte)
  | cmdOrient (code : Byte)
  | cmdScroll (v : Byte)
  | cmdInverse (v : Byte)
  | cmdAllon (v : Byte)
  | cmdColLo (nib : Nibble)
  | cmdColHi (nib : Nibble)
  | cmdPage (page : Nibble)
  deriving DecidableEq, Repr

/-- The three formats of a row (30_encoding.md R90, R96). -/
inductive Format where
  | hostOp
  | internalOp
  | wire
  deriving DecidableEq, Repr

/-- The format of an operation (spec/opcode_table.json, column `format`). -/
def Instr.format : Instr → Format
  | .beginOp _ | .reset | .displayEnable _ | .scroll _ | .orient _ | .invert _ | .allOn _ => .hostOp
  | .setPixel _ _ _ | .clearBuffer | .transfer _ _ _ _ | .bitmap _ _ _ _ _ => .hostOp
  | .fillScreen _ _ | .fillPage _ => .hostOp
  | .sendByte _ | .sendCommand _ _ | .sendData _ | .initRegs _ => .internalOp
  | .stream _ _ _ _ _ | .addrTriple _ _ => .internalOp
  | .data _ | .cmdTempcomp | .cmdAddrmode | .cmdFramerate | .cmdBias | .cmdPower => .wire
  | .cmdGain _ | .cmdDispen _ | .cmdOrient _ | .cmdScroll _ | .cmdInverse _ | .cmdAllon _ => .wire
  | .cmdColLo _ | .cmdColHi _ | .cmdPage _ => .wire

end Sys2Proof
end

