-- ==== Sys2Proof/Config.lean ====
section
/-! DEFINITION. The configuration record `Cfg` (10_state.md R30), fixed at construction. Every parameter the spec calls
OPEN (00_scope.md R10) is a field, so a statement about every state is a statement about every configuration.
`Cfg.reference` is the one configuration `State.reset` is built with. -/

namespace Sys2Proof

/-- `REGMAP`: the selector byte of each device register (00_scope.md R10, 92_eei_decisions.md D2). -/
structure RegMap where
  tempcomp  : Byte
  addrmode  : Byte
  framerate : Byte
  bias      : Byte
  power     : Byte
  gain      : Byte
  dispen    : Byte
  orient    : Byte
  scroll    : Byte
  inverse   : Byte
  allon     : Byte
  colLo     : Byte
  colHi     : Byte
  page      : Byte
  deriving DecidableEq, Repr

/-- The selector of a register. -/
def RegMap.sel (m : RegMap) : Reg → Byte
  | .tempcomp => m.tempcomp
  | .addrmode => m.addrmode
  | .framerate => m.framerate
  | .bias => m.bias
  | .power => m.power
  | .gain => m.gain
  | .dispen => m.dispen
  | .orient => m.orient
  | .scroll => m.scroll
  | .inverse => m.inverse
  | .allon => m.allon
  | .colLo => m.colLo
  | .colHi => m.colHi
  | .page => m.page

/-- `INITVALS`: the value bytes of the five initial registers (92_eei_decisions.md D3). -/
structure InitVals where
  tempcomp  : Byte
  addrmode  : Byte
  framerate : Byte
  bias      : Byte
  power     : Byte
  deriving DecidableEq, Repr

/-- `ORIENT_CODE`: the value byte of each orientation (92_eei_decisions.md D4). -/
structure OrientCodes where
  normal : Byte
  m1     : Byte
  m2     : Byte
  m3     : Byte
  deriving DecidableEq, Repr

def OrientCodes.code (c : OrientCodes) : Orientation → Byte
  | .normal => c.normal
  | .m1 => c.m1
  | .m2 => c.m2
  | .m3 => c.m3

/-- `XPORT`, the tagged transport variant (10_state.md R33). The pin identifiers name pins of the Host and select nothing
in the block. -/
inductive Xport where
  | hw
  | sw (clkPin dataPin : Nat)
  deriving DecidableEq, Repr

/-- The configuration (10_state.md R30). -/
structure Cfg where
  width        : Nat
  height       : Nat
  bufWidth     : Nat
  bufHeight    : Nat
  xport        : Xport
  regmap       : RegMap
  initvals     : InitVals
  orientCode   : OrientCodes
  valDisplayOn : Byte
  tRstLow      : Nat
  tRstRec      : Nat
  tInitStab    : Nat
  tHalf        : Nat
  deriving DecidableEq, Repr

/-- `P = H / 8`, the number of pages (00_scope.md R11). -/
def Cfg.pages (c : Cfg) : Nat := c.height / 8

/-- The length of the pixel buffer, `BW * (BH / 8)` bytes (10_state.md R42). -/
def Cfg.bufLen (c : Cfg) : Nat := c.bufWidth * (c.bufHeight / 8)

/-- `T_RST_LOW` of the reference configuration. The source gives no duration (91_not_in_source.md N6), so it is a constant
with no body: DESIGN CHOICE, safe (log 3). -/
opaque Config.tRstLow : Nat

/-- How much longer than `T_RST_LOW` the recovery delay is, less one (the source says "longer"): no body (log 3). -/
opaque Config.tRstRecExtra : Nat

/-- `T_INIT_STAB` of the reference configuration: no body (log 3). -/
opaque Config.tInitStab : Nat

/-- `T_HALF` of the reference configuration: no body (log 3). -/
opaque Config.tHalf : Nat

/-- What each controller register holds after construction: "unspecified" (70_reset_and_hazards.md R271), "any value"
(93_implementation_defined.md U18), so a free value with no body. DESIGN CHOICE, safe (log 32). -/
opaque Config.regAtConstruction : Reg → Byte

/-- The reset state of each controller register, which a reset pulse puts it in: "not in source" (70_reset_and_hazards.md
R274), "any value" (93_implementation_defined.md U18), so a free value with no body. DESIGN CHOICE, safe (log 32). -/
opaque Config.regAfterReset : Reg → Byte

/-- The reference register map, 93_implementation_defined.md G1. PRESUMED, unsafe (log 2): the spec marks it as general
knowledge of the UC1609 family. -/
def RegMap.reference : RegMap where
  tempcomp := 0x27
  addrmode := 0x88
  framerate := 0xA0
  bias := 0xE8
  power := 0x2F
  gain := 0x81
  dispen := 0xAE
  orient := 0xC0
  scroll := 0x40
  inverse := 0xA6
  allon := 0xA4
  colLo := 0x00
  colHi := 0x10
  page := 0xB0

/-- The reference initial values, 93_implementation_defined.md G2. PRESUMED, unsafe (log 2). -/
def InitVals.reference : InitVals where
  tempcomp := 0x00
  addrmode := 0x02
  framerate := 0x01
  bias := 0x03
  power := 0x06

/-- The reference orientation codes, 93_implementation_defined.md G3. PRESUMED, unsafe (log 2). -/
def OrientCodes.reference : OrientCodes where
  normal := 0x04
  m1 := 0x02
  m2 := 0x06
  m3 := 0x00

/-- The configuration `State.reset` is built with: the 192×64 panel and buffer of 95_test_vectors.md in hardware mode
(DESIGN CHOICE, unsafe, log 1), the reference tables (log 2), `VAL_DISPLAY_ON` = 0x01 (D5), open delays (log 3). -/
def Cfg.reference : Cfg where
  width := 192
  height := 64
  bufWidth := 192
  bufHeight := 64
  xport := .hw
  regmap := RegMap.reference
  initvals := InitVals.reference
  orientCode := OrientCodes.reference
  valDisplayOn := 0x01
  tRstLow := Config.tRstLow
  tRstRec := Config.tRstLow + Config.tRstRecExtra + 1
  tInitStab := Config.tInitStab
  tHalf := Config.tHalf

end Sys2Proof
end

