-- ==== Sys2Proof/WellFormed.lean ====
section
/-! DEFINITION. The operand ranges the spec gives (30_encoding.md R97, 44_transfer.md R203): Int16 coordinates,
UInt8 extents, a column of 0..32767 and a page that is a value byte. Byte operands carry their range in their type.
A height above 248 is WELL-FORMED: it is a UInt8 and is refused by its own name (44_transfer.md R209). -/

namespace Sys2Proof

/-- `Int16`: −32768..32767 (00_scope.md R12). -/
def isInt16 (n : Int) : Bool := decide (-32768 ≤ n) && decide (n ≤ 32767)

/-- `UInt8`: 0..255 (00_scope.md R12). -/
def isUInt8 (n : Nat) : Bool := decide (n ≤ 255)

/-- Every operand lies in the range of its type. -/
def Instr.wellFormed : Instr → Bool
  | .setPixel x y _ => isInt16 x && isInt16 y
  | .transfer x y w h => isInt16 x && isInt16 y && isUInt8 w && isUInt8 h
  | .bitmap x y w h _ => isInt16 x && isInt16 y && isUInt8 w && isUInt8 h
  | .stream x y w h _ => isInt16 x && isInt16 y && isUInt8 w && isUInt8 h
  | .addrTriple column page => decide (column ≤ 32767) && isUInt8 page
  | .beginOp _ | .reset | .displayEnable _ | .scroll _ | .orient _ | .invert _ | .allOn _ => true
  | .clearBuffer | .fillScreen _ _ | .fillPage _ => true
  | .sendByte _ | .sendCommand _ _ | .sendData _ | .initRegs _ => true
  | .data _ | .cmdTempcomp | .cmdAddrmode | .cmdFramerate | .cmdBias | .cmdPower => true
  | .cmdGain _ | .cmdDispen _ | .cmdOrient _ | .cmdScroll _ | .cmdInverse _ | .cmdAllon _ => true
  | .cmdColLo _ | .cmdColHi _ | .cmdPage _ => true

end Sys2Proof
end

