-- ==== Sys2Proof/Decode.lean ====
section
/-! DEFINITION. The two encodings the spec gives, read and written. A WIRE BYTE is one byte whose class is the CD level
(30_encoding.md R90, R91, R102 to R118); a HOST OPERATION has no binary form and is read from a line of the spec's
assembler text (30_encoding.md R100, R101). Internal operations have no encoding (R96). Both decoders are total on any
bytes and reject by name. The encoders are written from the same rules, after the decoders. -/

namespace Sys2Proof

/-- Why bytes decode to no operation. All are raised by the decoders here and are safe: nothing runs. -/
inductive Reject where
  /-- a text line with no operation on it -/
  | blankLine
  /-- the first word of a text line is no mnemonic of 30_encoding.md R100 or R101 -/
  | unknownMnemonic
  /-- the first word of a text line is an internal operation, not issuable by the Host (R96) -/
  | internalOperation
  /-- the operands do not have the number or the shape the grammar of R100 asks for -/
  | badOperands
  /-- an operand lies outside its type (30_encoding.md R97) -/
  | outOfRange
  /-- `@name` names no host byte array -/
  | unknownName
  /-- a wire unit is not exactly one byte (30_encoding.md R95) -/
  | wireLength
  /-- a command byte that matches no row of the opcode table, be it one the block sends with a value bit outside the row's
  value field (30_encoding.md R99, R102); DESIGN CHOICE (log 13) -/
  | unassignedCommand
  deriving DecidableEq, Repr

/-! ### Wire bytes -/

/-- One command row of the opcode table: a byte `b` is this row's when `b &&& mask = pattern`; `build` makes the operation
from the value field, the bits of `b` outside the mask (30_encoding.md R102). -/
structure WireRow where
  mask    : Byte
  pattern : Byte
  build   : Byte → Instr

/-- A row whose whole byte is fixed by the configuration (the five initial registers). -/
def fixedRow (sel v : Byte) (i : Instr) : WireRow where
  mask := 0xFF
  pattern := sel ||| v
  build := fun _ => i

/-- A row with a value field. -/
def fieldRow (mask sel : Byte) (build : Byte → Instr) : WireRow where
  mask := mask
  pattern := sel
  build := build

/-- The low four bits of a value byte. -/
def lowNibble (v : Byte) : Nibble := v.extractLsb' 0 4

/-- The 14 command rows in the opcode table's order (30_encoding.md R102). The masks are the table's; selectors and initial
values are the configuration's, and the gain row's mask is its selector. DEDUCED (log 12). -/
def commandRows (c : Cfg) : List WireRow :=
  [ fixedRow c.regmap.tempcomp c.initvals.tempcomp .cmdTempcomp,
    fixedRow c.regmap.addrmode c.initvals.addrmode .cmdAddrmode,
    fixedRow c.regmap.framerate c.initvals.framerate .cmdFramerate,
    fixedRow c.regmap.bias c.initvals.bias .cmdBias,
    fixedRow c.regmap.power c.initvals.power .cmdPower,
    fieldRow c.regmap.gain c.regmap.gain .cmdGain,
    fieldRow 0xFE c.regmap.dispen .cmdDispen,
    fieldRow 0xF9 c.regmap.orient .cmdOrient,
    fieldRow 0xC0 c.regmap.scroll .cmdScroll,
    fieldRow 0xFE c.regmap.inverse .cmdInverse,
    fieldRow 0xFE c.regmap.allon .cmdAllon,
    fieldRow 0xF0 c.regmap.colLo (fun v => .cmdColLo (lowNibble v)),
    fieldRow 0xF0 c.regmap.colHi (fun v => .cmdColHi (lowNibble v)),
    fieldRow 0xF0 c.regmap.page (fun v => .cmdPage (lowNibble v)) ]

/-- How many bits of a mask are set. -/
def maskBits (m : Byte) : Nat := ((List.range 8).filter fun k => m.getLsbD k).length

/-- Put a row before the first row that has no more mask bits than it. -/
def insertRow (r : WireRow) : List WireRow → List WireRow
  | [] => [r]
  | q :: rest => if maskBits q.mask ≤ maskBits r.mask then r :: q :: rest else q :: insertRow r rest

/-- The command rows as the decoder tries them: rows with more mask bits first, whatever the gain selector
(30_encoding.md R102). Rows with equally many stay in the table's order: DEDUCED (log 12). -/
def wireRows (c : Cfg) : List WireRow := (commandRows c).foldr insertRow []

/-- The first row that matches, applied to the byte's value field. -/
def matchRows : List WireRow → Byte → Option Instr
  | [], _ => none
  | r :: rest, b => if b &&& r.mask = r.pattern then some (r.build (b &&& ~~~r.mask)) else matchRows rest b

/-- Decode a wire unit: its class is the CD level (30_encoding.md R90), its length one byte (R95). A command byte that matches
no row is rejected, also one the block itself can send with a value bit outside its row's value field (with the reference
map 0xEE, `SEL_DISPEN` OR 0x40, and 0xD0, `SEL_SCROLL` OR 0x90): R99 does not say what a byte outside the table's rows is.
DESIGN CHOICE (log 13). -/
def decodeWire (c : Cfg) : WireClass → List Byte → Except Reject Instr
  | .data, [b] => .ok (.data b)
  | .command, [b] =>
    match matchRows (wireRows c) b with
    | some i => .ok i
    | none => .error .unassignedCommand
  | _, _ => .error .wireLength

/-- The bytes of a table word of `nbits` bits, the lowest eight bits first. -/
def wordBytes (nbits w : Nat) : List Byte :=
  (List.range ((nbits + 7) / 8)).map fun k => BitVec.ofNat 8 (w / 256 ^ k)

/-- The host's question about a table row: the operation the decoder reads from the bits `w`, taken as a COMMAND unit of the
reference configuration (the table gives no bit for the CD level; DESIGN CHOICE, log 11). -/
def decodeTableWord (nbits w : Nat) : Option Instr :=
  match decodeWire Cfg.reference .command (wordBytes nbits w) with
  | .ok i => some i
  | .error _ => none

/-- The register and value byte of each command row (30_encoding.md R105 to R118); `none` for what is no command byte. -/
def Instr.command (c : Cfg) : Instr → Option (Reg × Byte)
  | .cmdTempcomp => some (.tempcomp, c.initvals.tempcomp)
  | .cmdAddrmode => some (.addrmode, c.initvals.addrmode)
  | .cmdFramerate => some (.framerate, c.initvals.framerate)
  | .cmdBias => some (.bias, c.initvals.bias)
  | .cmdPower => some (.power, c.initvals.power)
  | .cmdGain v => some (.gain, v)
  | .cmdDispen v => some (.dispen, v)
  | .cmdOrient v => some (.orient, v)
  | .cmdScroll v => some (.scroll, v)
  | .cmdInverse v => some (.inverse, v)
  | .cmdAllon v => some (.allon, v)
  | .cmdColLo n => some (.colLo, n.setWidth 8)
  | .cmdColHi n => some (.colHi, n.setWidth 8)
  | .cmdPage p => some (.page, p.setWidth 8)
  | _ => none

/-- The wire encoder: a command byte is selector OR value, with no shift and no mask (30_encoding.md R91); a data byte is
sent unchanged (R92). -/
def encodeWire (c : Cfg) (i : Instr) : Option (WireClass × Byte) :=
  match i with
  | .data b => some (.data, b)
  | _ =>
    match i.command c with
    | some (r, v) => some (.command, c.regmap.sel r ||| v)
    | none => none

/-! ### Assembler text -/

/-- ASCII text. -/
def ascii (cs : List Char) : List Byte := cs.map fun ch => BitVec.ofNat 8 ch.toNat

/-- The mnemonics a Host may write: the 13 host operations (R100) and the three pseudo-operations (R101). -/
inductive Mnemonic where
  | beginOp
  | reset
  | displayEnable
  | scroll
  | orient
  | invert
  | allOn
  | setPixel
  | clearBuffer
  | transfer
  | bitmap
  | fillScreen
  | fillPage
  | flush
  | displayOff
  | displayOn
  deriving DecidableEq, Repr

/-- The spelling of a mnemonic. -/
def Mnemonic.text : Mnemonic → List Byte
  | .beginOp => ascii ['B', 'E', 'G', 'I', 'N']
  | .reset => ascii ['R', 'E', 'S', 'E', 'T']
  | .displayEnable => ascii ['D', 'I', 'S', 'P', 'L', 'A', 'Y', '_', 'E', 'N', 'A', 'B', 'L', 'E']
  | .scroll => ascii ['S', 'C', 'R', 'O', 'L', 'L']
  | .orient => ascii ['O', 'R', 'I', 'E', 'N', 'T']
  | .invert => ascii ['I', 'N', 'V', 'E', 'R', 'T']
  | .allOn => ascii ['A', 'L', 'L', '_', 'O', 'N']
  | .setPixel => ascii ['S', 'E', 'T', '_', 'P', 'I', 'X', 'E', 'L']
  | .clearBuffer => ascii ['C', 'L', 'E', 'A', 'R', '_', 'B', 'U', 'F', 'F', 'E', 'R']
  | .transfer => ascii ['T', 'R', 'A', 'N', 'S', 'F', 'E', 'R']
  | .bitmap => ascii ['B', 'I', 'T', 'M', 'A', 'P']
  | .fillScreen => ascii ['F', 'I', 'L', 'L', '_', 'S', 'C', 'R', 'E', 'E', 'N']
  | .fillPage => ascii ['F', 'I', 'L', 'L', '_', 'P', 'A', 'G', 'E']
  | .flush => ascii ['F', 'L', 'U', 'S', 'H']
  | .displayOff => ascii ['D', 'I', 'S', 'P', 'L', 'A', 'Y', '_', 'O', 'F', 'F']
  | .displayOn => ascii ['D', 'I', 'S', 'P', 'L', 'A', 'Y', '_', 'O', 'N']

/-- Every mnemonic, in the order of R100 and R101. -/
def mnemonics : List Mnemonic :=
  [.beginOp, .reset, .displayEnable, .scroll, .orient, .invert, .allOn, .setPixel, .clearBuffer, .transfer, .bitmap,
   .fillScreen, .fillPage, .flush, .displayOff, .displayOn]

/-- The six internal operations' names, which a Host may not issue (R96, R243). -/
def internalNames : List (List Byte) :=
  [ ascii ['S', 'E', 'N', 'D', '_', 'B', 'Y', 'T', 'E'],
    ascii ['S', 'E', 'N', 'D', '_', 'C', 'O', 'M', 'M', 'A', 'N', 'D'],
    ascii ['S', 'E', 'N', 'D', '_', 'D', 'A', 'T', 'A'],
    ascii ['I', 'N', 'I', 'T', '_', 'R', 'E', 'G', 'S'],
    ascii ['S', 'T', 'R', 'E', 'A', 'M'],
    ascii ['A', 'D', 'D', 'R', '_', 'T', 'R', 'I', 'P', 'L', 'E'] ]

/-- The spelling of a blend mode operand. -/
def BlendMode.text : BlendMode → List Byte
  | .set => ascii ['S', 'E', 'T']
  | .clear => ascii ['C', 'L', 'E', 'A', 'R']
  | .invert => ascii ['I', 'N', 'V', 'E', 'R', 'T']

/-- A space or a tab. -/
def isBlank (b : Byte) : Bool := b == 0x20 || b == 0x09

/-- Drop blanks at both ends. -/
def trimBlanks (t : List Byte) : List Byte := ((t.dropWhile isBlank).reverse.dropWhile isBlank).reverse

/-- Split at every byte `sep`. -/
def splitAtByte (sep : Byte) : List Byte → List (List Byte)
  | [] => [[]]
  | b :: t =>
    if b = sep then [] :: splitAtByte sep t
    else
      match splitAtByte sep t with
      | [] => [[b]]
      | hd :: tl => (b :: hd) :: tl

/-- The value of a decimal digit. -/
def decDigit (b : Byte) : Option Nat :=
  if 0x30 ≤ b.toNat ∧ b.toNat ≤ 0x39 then some (b.toNat - 0x30) else none

/-- The value of a hexadecimal digit, either case. -/
def hexDigit (b : Byte) : Option Nat :=
  if 0x30 ≤ b.toNat ∧ b.toNat ≤ 0x39 then some (b.toNat - 0x30)
  else if 0x41 ≤ b.toNat ∧ b.toNat ≤ 0x46 then some (b.toNat - 0x41 + 10)
  else if 0x61 ≤ b.toNat ∧ b.toNat ≤ 0x66 then some (b.toNat - 0x61 + 10)
  else none

/-- Read digits onto an accumulator, most significant first. -/
def readDigits (base : Nat) (digit : Byte → Option Nat) : List Byte → Nat → Option Nat
  | [], acc => some acc
  | b :: t, acc =>
    match digit b with
    | none => none
    | some d => readDigits base digit t (acc * base + d)

/-- A number in decimal or `0x` hexadecimal (R100). -/
def readNat : List Byte → Option Nat
  | [] => none
  | [b] => readDigits 10 decDigit [b] 0
  | b :: x :: t =>
    if b = 0x30 ∧ x = 0x78 then
      match t with
      | [] => none
      | _ :: _ => readDigits 16 hexDigit t 0
    else readDigits 10 decDigit (b :: x :: t) 0

/-- A number with an optional minus sign (the byte 0x2D). -/
def readInt (t : List Byte) : Option Int :=
  match t with
  | [] => none
  | b :: rest =>
    if b = 0x2D then (readNat rest).map fun n => -(n : Int) else (readNat (b :: rest)).map fun n => (n : Int)

/-- A natural operand. -/
def readNatOperand (t : List Byte) : Except Reject Nat :=
  match readNat t with
  | none => .error .badOperands
  | some n => .ok n

/-- A `u8` operand as a natural. -/
def readU8 (t : List Byte) : Except Reject Nat :=
  match readNat t with
  | none => .error .badOperands
  | some n => if isUInt8 n then .ok n else .error .outOfRange

/-- A `u8` operand as a byte. -/
def readByte (t : List Byte) : Except Reject Byte := (readU8 t).map (BitVec.ofNat 8)

/-- An `i16` operand. -/
def readI16 (t : List Byte) : Except Reject Int :=
  match readInt t with
  | none => .error .badOperands
  | some n => if isInt16 n then .ok n else .error .outOfRange

/-- A blend mode operand. -/
def readMode (t : List Byte) : Except Reject BlendMode :=
  if t = BlendMode.set.text then .ok .set
  else if t = BlendMode.clear.text then .ok .clear
  else if t = BlendMode.invert.text then .ok .invert
  else .error .badOperands

/-- The Host's named byte arrays. -/
abbrev HostArrays := List (List Byte × List Byte)

/-- The array a name stands for: the first of that name. -/
def HostArrays.find : HostArrays → List Byte → Option (List Byte)
  | [], _ => none
  | (n, bytes) :: rest, name => if n = name then some bytes else HostArrays.find rest name

/-- An `@name` operand (the at sign is the byte 0x40). -/
def readArray (arrays : HostArrays) (t : List Byte) : Except Reject (List Byte) :=
  match t with
  | [] => .error .badOperands
  | b :: name =>
    if b = 0x40 then
      match HostArrays.find arrays name with
      | some bytes => .ok bytes
      | none => .error .unknownName
    else .error .badOperands

/-- One byte operand. -/
def readOne (build : Byte → Instr) (t : List Byte) : Except Reject Instr := (readByte t).map build

/-- Build the operation of a mnemonic from its operand texts; pseudo-operations are expanded here (R101). -/
def assemble (arrays : HostArrays) (c : Cfg) : Mnemonic → List (List Byte) → Except Reject Instr
  | .beginOp, [v] => readOne .beginOp v
  | .reset, [] => .ok .reset
  | .displayEnable, [v] => readOne .displayEnable v
  | .scroll, [v] => readOne .scroll v
  | .orient, [v] => readOne .orient v
  | .invert, [v] => readOne .invert v
  | .allOn, [v] => readOne .allOn v
  | .setPixel, [x, y, m] => do
    let x ← readI16 x
    let y ← readI16 y
    let m ← readMode m
    .ok (.setPixel x y m)
  | .clearBuffer, [] => .ok .clearBuffer
  | .transfer, [x, y, w, h] => do
    let x ← readI16 x
    let y ← readI16 y
    let w ← readU8 w
    let h ← readU8 h
    .ok (.transfer x y w h)
  | .bitmap, [x, y, w, h, img] => do
    let x ← readI16 x
    let y ← readI16 y
    let w ← readU8 w
    let h ← readU8 h
    let img ← readArray arrays img
    .ok (.bitmap x y w h img)
  | .fillScreen, [p] => do
    let p ← readByte p
    .ok (.fillScreen p 0)
  | .fillScreen, [p, d] => do
    let p ← readByte p
    let d ← readNatOperand d
    .ok (.fillScreen p d)
  | .fillPage, [p] => readOne .fillPage p
  | .flush, [] => .ok (.transfer 0 0 c.bufWidth c.bufHeight)
  | .displayOff, [] => .ok (.displayEnable 0)
  | .displayOn, [] => .ok (.displayEnable c.valDisplayOn)
  | _, _ => .error .badOperands

/-- The operand texts after a mnemonic: none, or the parts between commas (the byte 0x2C) without the blanks around them. -/
def operandTexts (t : List Byte) : List (List Byte) :=
  let t := trimBlanks t
  if t = [] then [] else (splitAtByte 0x2C t).map trimBlanks

/-- Decode one line of assembler text (R100): the text before a `;` (the byte 0x3B), its first word, its operands. -/
def decodeLine (arrays : HostArrays) (c : Cfg) (line : List Byte) : Except Reject Instr :=
  let t := trimBlanks (line.takeWhile fun b => b != 0x3B)
  let word := t.takeWhile fun b => !isBlank b
  let rest := t.dropWhile fun b => !isBlank b
  if word = [] then .error .blankLine
  else
    match mnemonics.find? (fun m => m.text == word) with
    | some m => assemble arrays c m (operandTexts rest)
    | none => if word ∈ internalNames then .error .internalOperation else .error .unknownMnemonic

/-- The lines of a program text that hold something (R100: one host operation per line, the byte 0x0A between lines). -/
def programLines (text : List Byte) : List (List Byte) :=
  (splitAtByte 0x0A text).filter fun l => trimBlanks (l.takeWhile fun b => b != 0x3B) != []

/-- Decimal digits of a number, most significant first; `fuel` bounds their count. -/
def decDigits : Nat → Nat → List Byte
  | 0, _ => []
  | fuel + 1, n =>
    if n < 10 then [BitVec.ofNat 8 (0x30 + n)]
    else decDigits fuel (n / 10) ++ [BitVec.ofNat 8 (0x30 + n % 10)]

/-- A natural in decimal. -/
def natText (n : Nat) : List Byte := decDigits (n + 1) n

/-- A byte in decimal. -/
def byteText (b : Byte) : List Byte := natText b.toNat

/-- An integer in decimal, with a minus sign when it is negative. -/
def intText (n : Int) : List Byte := if n < 0 then 0x2D :: natText n.natAbs else natText n.natAbs

/-- Operand texts joined by a comma and a space. -/
def joinOperands : List (List Byte) → List Byte
  | [] => []
  | [t] => t
  | t :: u :: rest => t ++ 0x2C :: 0x20 :: joinOperands (u :: rest)

/-- A mnemonic and its operands as a line. -/
def lineText (m : Mnemonic) (operands : List (List Byte)) : List Byte :=
  if operands = [] then m.text else m.text ++ 0x20 :: joinOperands operands

/-- The text encoder: the line of a host operation (R100), a bitmap's array written under `name`; `none` for what the Host
cannot issue. -/
def encodeLine (name : List Byte) : Instr → Option (List Byte)
  | .beginOp v => some (lineText .beginOp [byteText v])
  | .reset => some (lineText .reset [])
  | .displayEnable v => some (lineText .displayEnable [byteText v])
  | .scroll v => some (lineText .scroll [byteText v])
  | .orient v => some (lineText .orient [byteText v])
  | .invert v => some (lineText .invert [byteText v])
  | .allOn v => some (lineText .allOn [byteText v])
  | .setPixel x y m => some (lineText .setPixel [intText x, intText y, m.text])
  | .clearBuffer => some (lineText .clearBuffer [])
  | .transfer x y w h => some (lineText .transfer [intText x, intText y, natText w, natText h])
  | .bitmap x y w h _ => some (lineText .bitmap [intText x, intText y, natText w, natText h, 0x40 :: name])
  | .fillScreen p d => some (lineText .fillScreen [byteText p, natText d])
  | .fillPage p => some (lineText .fillPage [byteText p])
  | _ => none

end Sys2Proof
end

