-- ==== Sys2Proof/Machine/State.lean ====
section
/-! DEFINITION. The state of the machine as plain data: everything 10_state.md and 70_reset_and_hazards.md give it, the
reference receiver among it, with the reasons an operation can stop for and the state after construction. -/

namespace Sys2Proof.Machine

/-- A line level (00_scope.md R12). -/
inductive Level where
  | low
  | high
  | unknown
  deriving DecidableEq, Repr

/-- The lines the block drives (10_state.md R34). -/
inductive Line where
  | cs
  | cd
  | rst
  | sclk
  | sda
  deriving DecidableEq, Repr

/-- A level for each line (10_state.md R34, R45). -/
structure Pins where
  cs   : Level
  cd   : Level
  rst  : Level
  sclk : Level
  sda  : Level
  deriving DecidableEq, Repr

/-- `ControllerState` (10_state.md R36). -/
inductive Ctl where
  | uninitialized
  | resetting
  | ready
  deriving DecidableEq, Repr

/-- The sticky marks (10_state.md R38), one member each. -/
inductive Mark where
  | preReady
  | scrollRange
  | dataCdNotHigh
  deriving DecidableEq, Repr

/-- The set of marks (10_state.md R38). -/
structure Marks where
  preReady      : Bool
  scrollRange   : Bool
  dataCdNotHigh : Bool
  deriving DecidableEq, Repr

/-- The fault reasons (10_state.md R39, 60_exceptions.md R241). -/
inductive Fault where
  /-- Code 1. Raised by `STREAM` (from `TRANSFER`, `BITMAP` or the Block itself) when a source byte at an offset past the
  end of its array is about to be sent. The operation records it in the state and ends; the next step answers it. Safe:
  the machine stops before the byte reaches the line. -/
  | srcOob
  /-- Code 2. Raised by `STREAM` from the pixel buffer when a byte with an `Unknown` bit is about to be sent. Recorded and
  answered as `srcOob` is. Safe: the machine stops before the byte reaches the line. -/
  | srcUninit
  deriving DecidableEq, Repr

/-- The refusal reasons. A refused operation has had no effect (60_exceptions.md R240). -/
inductive Refusal where
  /-- An arm of `exec` that has no meaning yet. Safe: nothing runs. No arm answers it. -/
  | notModelled (mnemonic : String)
  /-- `TRANSFER`, `BITMAP` or `STREAM` with h above 248 (44_transfer.md R209). Safe: nothing runs. -/
  | hTooLarge
  /-- An internal operation issued by the Host (60_exceptions.md R243). Safe: nothing runs. -/
  | internalOp
  /-- A wire byte issued by the Host, which has no such operation (30_encoding.md R96, 45_fill.md R232). Safe: nothing runs. -/
  | wireUnit
  /-- Construction with a device geometry out of range (60_exceptions.md R242). Safe: no machine is built. -/
  | badGeometry
  /-- Construction with a pixel buffer out of range (60_exceptions.md R242). Safe: no machine is built. -/
  | badBuffer
  /-- Construction with exactly one software pin unset (60_exceptions.md R242). Safe: no machine is built. -/
  | badTransport
  /-- Construction with another parameter that violates 00_scope.md R10: a recovery delay not above the settle delay, two
  equal orientation codes, or `VAL_DISPLAY_ON` other than 0x01 (30_encoding.md R98). The spec names no reason for these:
  DESIGN CHOICE (log 24). Safe: no machine is built. -/
  | badParameter
  /-- A queued operation with an operand outside its type (30_encoding.md R97), raised by the step. Safe: nothing runs. -/
  | malformed
  /-- Queued text or bytes that decode to no operation, raised by the step. Safe: nothing runs. -/
  | undecodable (why : Reject)
  deriving DecidableEq, Repr

/-- The two transport modes as `XportSetup` names them (10_state.md R41). -/
inductive XportMode where
  | hw
  | sw
  deriving DecidableEq, Repr

/-- The events of the trace (10_state.md R41). -/
inductive Event where
  | pinConfig (p : Line)
  | xportSetup (m : XportMode)
  | pinWrite (p : Line) (v : Level)
  | spiByte (b : Byte)
  | delayMs (t : Nat)
  | delayUs (t : Nat)
  deriving DecidableEq, Repr

/-- A byte whose bits are 0, 1 or `Unknown` (10_state.md R42): `known` has a bit set where the bit is not `Unknown`, and an
`Unknown` bit is 0 in `val`. -/
structure TByte where
  val   : Byte
  known : Byte
  deriving DecidableEq, Repr

/-- A received frame (40_transport.md R133); `none` is a byte with an `Unknown` bit. -/
inductive Frame where
  | cmd (c : Option Byte)
  | data (c : Option Byte)
  | unclassified (c : Option Byte)
  deriving DecidableEq, Repr

/-- The controller as the reference receiver models it (10_state.md R45). `none` is `Unknown`: in a half of the column
(20_memory.md R67), in the page, in the whole command log (40_transport.md R133). `ram` lists the known bytes by
`page * W + col`; a byte it does not list is `Unknown`. -/
structure Dev where
  colLo  : Option Nibble
  colHi  : Option Nibble
  page   : Option Nibble
  ram    : List Host.Cell
  cmdLog : Option (List Byte)
  deriving DecidableEq, Repr

/-- The reference receiver (10_state.md R45): the levels it has seen, its partial byte (`none` once a bit of it is
`Unknown`) and bit count, the frames decoded, and the controller. -/
structure Rx where
  lv     : Pins
  shift  : Option Byte
  count  : Nat
  frames : List Frame
  dev    : Dev
  deriving DecidableEq, Repr

/-- The 14 write-only controller registers of 10_state.md R44, each as a value byte: the one last sent to it while the
controller was listening, and before that, or after a reset pulse, a free value (70_reset_and_hazards.md R271, R274,
93_implementation_defined.md U18; log 32). That a register is taken as the value byte sent to it, its field layout not being
in the source (91_not_in_source.md N2), is the model's: DESIGN CHOICE (log 18). -/
structure DevRegs where
  tempcomp  : Byte
  addrmode  : Byte
  framerate : Byte
  bias      : Byte
  power     : Byte
  gain      : Byte
  dispen    : Byte
  orient    : Byte
  scroll    : Byte
  inverse   : Byte
  allon     : Byte
  colLo     : Byte
  colHi     : Byte
  page      : Byte
  deriving DecidableEq, Repr

/-- The agents that issue operations (00_scope.md R6); the Receiver issues none. -/
inductive Agent where
  | host
  | block
  deriving DecidableEq, Repr

/-- An operation waiting to be executed (log 6): a line of the Host's assembler text, a typed call of the Host
(30_encoding.md R90), an operation the Block itself issues, or a wire unit the Block puts on the channel. -/
inductive Item where
  | line (text : List Byte)
  | call (i : Instr)
  | inner (i : Instr)
  | wire (cls : WireClass) (bytes : List Byte)
  deriving DecidableEq, Repr

/-- The state: the configuration, the fields of 10_state.md R46, the receiver of R45, the controller registers of R44, and
the model's own `arrays`, `pending` and `issuer` (log 6). `buf` lists the bytes of the pixel buffer by byte index, in
rising order; a byte it does not list has every bit `Unknown`. -/
structure State where
  cfg            : Cfg
  pin            : Pins
  pinsConfigured : Bool
  ctl            : Ctl
  marks          : Marks
  fault          : Option Fault
  trace          : List Event
  buf            : List (Nat × TByte)
  rx             : Rx
  devRegs        : DevRegs
  arrays         : List (List Byte × List Byte)
  pending        : List Item
  issuer         : Agent
  deriving DecidableEq, Repr

/-- Every line `Unknown` (92_eei_decisions.md D11). -/
def Pins.unknown : Pins := ⟨.unknown, .unknown, .unknown, .unknown, .unknown⟩

/-- The empty set of marks. -/
def Marks.empty : Marks := ⟨false, false, false⟩

/-- The register contents that `f` lists. -/
def DevRegs.ofFn (f : Reg → Byte) : DevRegs where
  tempcomp := f .tempcomp
  addrmode := f .addrmode
  framerate := f .framerate
  bias := f .bias
  power := f .power
  gain := f .gain
  dispen := f .dispen
  orient := f .orient
  scroll := f .scroll
  inverse := f .inverse
  allon := f .allon
  colLo := f .colLo
  colHi := f .colHi
  page := f .page

/-- The registers after construction: a free value each (70_reset_and_hazards.md R271; log 32). -/
def DevRegs.atConstruction : DevRegs := DevRegs.ofFn Config.regAtConstruction

/-- The controller after construction (70_reset_and_hazards.md R271). -/
def Dev.initial : Dev := ⟨none, none, none, [], some []⟩

/-- The receiver after construction (40_transport.md R134, 70_reset_and_hazards.md R271). -/
def Rx.initial : Rx := ⟨Pins.unknown, some 0, 0, [], Dev.initial⟩

/-- The block after construction with `c` (70_reset_and_hazards.md R271). -/
def State.initial (c : Cfg) : State where
  cfg := c
  pin := Pins.unknown
  pinsConfigured := false
  ctl := .uninitialized
  marks := Marks.empty
  fault := none
  trace := []
  buf := []
  rx := Rx.initial
  devRegs := DevRegs.atConstruction
  arrays := []
  pending := []
  issuer := .host

/-- The machine right after reset: construction with the reference configuration (logs 1, 2, 3). -/
def State.reset : State := State.initial Cfg.reference

end Sys2Proof.Machine
end

