-- ==== Sys2Proof/Machine/Memory.lean ====
section
/-! DEFINITION. Sparse byte memories in one canonical form (20_memory.md R60): a list of address and byte pairs, addresses
strictly rising, listing no byte that reads as an unlisted one does. The pixel buffer's unlisted bytes are wholly
`Unknown` (10_state.md R42, R47); the controller RAM's unlisted bytes are `Unknown` (R45). -/

namespace Sys2Proof.Machine

/-- The entry at an address. -/
def memFind {β : Type} : List (Nat × β) → Nat → Option β
  | [], _ => none
  | (k, v) :: rest, a => if k = a then some v else memFind rest a

/-- Write an entry, in order. -/
def memSet {β : Type} : List (Nat × β) → Nat → β → List (Nat × β)
  | [], a, v => [(a, v)]
  | (k, w) :: rest, a, v =>
    if a < k then (a, v) :: (k, w) :: rest
    else if a = k then (a, v) :: rest
    else (k, w) :: memSet rest a v

/-- Remove the entries of an address. -/
def memErase {β : Type} (m : List (Nat × β)) (a : Nat) : List (Nat × β) := m.filter fun e => e.1 != a

/-- Every address is above `lo` and they rise strictly. -/
def risingFrom {β : Type} : Nat → List (Nat × β) → Bool
  | _, [] => true
  | lo, (k, _) :: rest => decide (lo ≤ k) && risingFrom (k + 1) rest

/-- Every bit `Unknown`. -/
def TByte.unknown : TByte := ⟨0, 0⟩

/-- A byte all of whose bits are known. -/
def TByte.ofByte (b : Byte) : TByte := ⟨b, 0xFF⟩

/-- A byte is defined when none of its bits is `Unknown` (10_state.md R42). -/
def TByte.defined (t : TByte) : Bool := t.known == 0xFF

/-- An `Unknown` bit is 0 in `val`, so that equal bytes are equal data. -/
def TByte.wf (t : TByte) : Bool := t.val &&& ~~~t.known == 0

/-- Bit `k`: `none` is `Unknown`. -/
def TByte.bit (t : TByte) (k : Nat) : Option Bool :=
  if t.known.getLsbD k then some (t.val.getLsbD k) else none

/-- The canonical form of the pixel buffer of `len` bytes. -/
def bufWf (len : Nat) (m : List (Nat × TByte)) : Bool :=
  risingFrom 0 m && m.all fun e => decide (e.1 < len) && e.2.wf && e.2 != TByte.unknown

/-- The canonical form of a controller RAM of `len` bytes. -/
def ramWf (len : Nat) (m : List Host.Cell) : Bool :=
  risingFrom 0 m && m.all fun e => decide (e.1 < len)

/-- A byte of a buffer: an unlisted one is wholly `Unknown`. -/
def bufRead (m : List (Nat × TByte)) (i : Nat) : TByte := (memFind m i).getD TByte.unknown

/-- Write a byte of a buffer, keeping the canonical form. -/
def bufWrite (m : List (Nat × TByte)) (i : Nat) (t : TByte) : List (Nat × TByte) :=
  if t = TByte.unknown then memErase m i else memSet m i t

/-- A buffer with its first `len` bytes 0x00 and every other byte as before (43_pixel_buffer.md R191). -/
def bufClear (m : List (Nat × TByte)) (len : Nat) : List (Nat × TByte) :=
  (List.range len).map (fun i => (i, TByte.ofByte 0x00)) ++ m.filter fun e => decide (len ≤ e.1)

/-- Both memories of a state are in canonical form (20_memory.md R60, R74). -/
def State.memWf (s : State) : Bool :=
  bufWf s.cfg.bufLen s.buf && ramWf (s.cfg.width * s.cfg.pages) s.rx.dev.ram

end Sys2Proof.Machine
end

