-- ==== Sys2Proof/Machine/Operands.lean ====
section
/-! DEFINITION. Every operand computation of the spec: command byte assembly and the column's nibbles (30_encoding.md R91,
R93), bit order on the channel (20_memory.md R63), pixel addressing and blending (20_memory.md R61, 43_pixel_buffer.md
R190), the streamer's cursor, bands and offsets (44_transfer.md R201, R202, R205), orientation codes (42_lifecycle.md
R170). -/

namespace Sys2Proof.Machine

/-- `cmdByte(sel, v) = sel | v` (30_encoding.md R91). -/
def cmdByte (sel v : Byte) : Byte := sel ||| v

/-- `column[3:0]` as a value byte (30_encoding.md R93). -/
def colLo (column : Nat) : Byte := BitVec.ofNat 8 (column % 16)

/-- `column[7:4]` as a value byte (30_encoding.md R93). -/
def colHi (column : Nat) : Byte := BitVec.ofNat 8 (column / 16 % 16)

/-- A page as a value byte (44_transfer.md R203). -/
def pageValue (page : Nat) : Byte := BitVec.ofNat 8 page

/-- The bits of a byte in channel order, most significant first (20_memory.md R63). -/
def bitsMsbFirst (b : Byte) : List Bool :=
  [b.getLsbD 7, b.getLsbD 6, b.getLsbD 5, b.getLsbD 4, b.getLsbD 3, b.getLsbD 2, b.getLsbD 1, b.getLsbD 0]

/-- The level of a bit on the data line (40_transport.md R121). -/
def bitLevel (b : Bool) : Level := if b then .high else .low

/-- `byteIndex(x, y) = BW * (y / 8) + x` (20_memory.md R61). -/
def byteIndex (bw x y : Nat) : Nat := bw * (y / 8) + x

/-- `bitIndex(x, y) = y mod 8` (20_memory.md R61). -/
def bitIndex (y : Nat) : Nat := y % 8

/-- The mask of bit `k` (43_pixel_buffer.md R190). -/
def bitMask (k : Nat) : Byte := (1 : Byte) <<< k

/-- Combine a new pixel with bit `k` (43_pixel_buffer.md R190): SET and CLEAR make the bit known, INVERT leaves an
`Unknown` bit `Unknown` (92_eei_decisions.md D21). -/
def blend (mode : BlendMode) (k : Nat) (t : TByte) : TByte :=
  match mode with
  | .set => ⟨t.val ||| bitMask k, t.known ||| bitMask k⟩
  | .clear => ⟨t.val &&& ~~~bitMask k, t.known ||| bitMask k⟩
  | .invert => ⟨t.val ^^^ (bitMask k &&& t.known), t.known⟩

/-- `max(y, 0) >> 3` (44_transfer.md R201). -/
def firstPage (y : Int) : Nat := y.toNat / 8

/-- `max(x, 0)` (44_transfer.md R201). -/
def firstColumn (x : Int) : Nat := x.toNat

/-- `n` lies in `[0, bound)`. -/
def inRange (n : Int) (bound : Nat) : Bool := decide (0 ≤ n) && decide (n < bound)

/-- The band offsets `ty` in `[0, h)` step 8 (44_transfer.md R200). -/
def bandTops (h : Nat) : List Nat := (List.range ((h + 7) / 8)).map fun k => 8 * k

/-- `w * (ty >> 3) + tx` (44_transfer.md R205). -/
def sourceOffset (w ty tx : Nat) : Nat := w * (ty / 8) + tx

/-- The orientation code `ORIENT` sends: a recognised value itself, anything else the normal code (42_lifecycle.md R170). -/
def orientationCode (c : OrientCodes) (v : Byte) : Byte :=
  if v = c.normal ∨ v = c.m1 ∨ v = c.m2 ∨ v = c.m3 then v else c.normal

/-- A level in a set of lines. -/
def Pins.get (p : Pins) : Line → Level
  | .cs => p.cs
  | .cd => p.cd
  | .rst => p.rst
  | .sclk => p.sclk
  | .sda => p.sda

/-- Change one line's level. -/
def Pins.set (p : Pins) (l : Line) (v : Level) : Pins :=
  match l with
  | .cs => { p with cs := v }
  | .cd => { p with cd := v }
  | .rst => { p with rst := v }
  | .sclk => { p with sclk := v }
  | .sda => { p with sda := v }

/-- The value byte a register holds. -/
def DevRegs.get (d : DevRegs) : Reg → Byte
  | .tempcomp => d.tempcomp
  | .addrmode => d.addrmode
  | .framerate => d.framerate
  | .bias => d.bias
  | .power => d.power
  | .gain => d.gain
  | .dispen => d.dispen
  | .orient => d.orient
  | .scroll => d.scroll
  | .inverse => d.inverse
  | .allon => d.allon
  | .colLo => d.colLo
  | .colHi => d.colHi
  | .page => d.page

/-- Write the value byte of a register. -/
def DevRegs.set (d : DevRegs) (r : Reg) (v : Byte) : DevRegs :=
  match r with
  | .tempcomp => { d with tempcomp := v }
  | .addrmode => { d with addrmode := v }
  | .framerate => { d with framerate := v }
  | .bias => { d with bias := v }
  | .power => { d with power := v }
  | .gain => { d with gain := v }
  | .dispen => { d with dispen := v }
  | .orient => { d with orient := v }
  | .scroll => { d with scroll := v }
  | .inverse => { d with inverse := v }
  | .allon => { d with allon := v }
  | .colLo => { d with colLo := v }
  | .colHi => { d with colHi := v }
  | .page => { d with page := v }

/-- The registers in their reset state: a free value each (70_reset_and_hazards.md R274; log 32). -/
def DevRegs.afterReset : DevRegs := DevRegs.ofFn Config.regAfterReset

end Sys2Proof.Machine
end

