-- ==== Sys2Proof/Machine/Receiver.lean ====
section
/-! DEFINITION. The reference receiver, the controller-side decoder and addressing cursor (40_transport.md R128 to R134,
20_memory.md R66 to R70): how one event of the trace changes it. It is the spec's own model of the controller
(92_eei_decisions.md D12, D13, D14), and a claim about controller content needs an empty set of marks (20_memory.md R71). -/

namespace Sys2Proof.Machine

/-- The column, when both its halves are known (20_memory.md R67). -/
def Dev.col (d : Dev) : Option Nat :=
  match d.colHi, d.colLo with
  | some hi, some lo => some (16 * hi.toNat + lo.toNat)
  | _, _ => none

/-- Set the column. -/
def Dev.setCol (d : Dev) (n : Nat) : Dev :=
  { d with colLo := some (BitVec.ofNat 4 n), colHi := some (BitVec.ofNat 4 (n / 16)) }

/-- Every field `Unknown` (40_transport.md R133). -/
def Dev.unknown : Dev := ⟨none, none, none, [], none⟩

/-- The controller after a rising edge of RST (20_memory.md R70). -/
def Dev.afterReset : Dev := ⟨some 0, some 0, some 0, [], some []⟩

/-- A command frame (20_memory.md R67). -/
def Dev.command (m : RegMap) (d : Dev) (c : Byte) : Dev :=
  if c &&& 0xF0 = m.colLo then { d with colLo := some (lowNibble c) }
  else if c &&& 0xF0 = m.colHi then { d with colHi := some (lowNibble c) }
  else if c &&& 0xF0 = m.page then { d with page := some (lowNibble c) }
  else { d with cmdLog := d.cmdLog.map (· ++ [c]) }

/-- The next page (20_memory.md R69). -/
def nextPage (pages : Nat) (p : Nibble) : Nibble := BitVec.ofNat 4 ((p.toNat + 1) % pages)

/-- The cursor advance `CURSOR_WRAP` (20_memory.md R69). -/
def Dev.advance (width pages : Nat) (d : Dev) : Dev :=
  match d.col with
  | none => d
  | some c =>
    if width ≤ c + 1 then { d.setCol 0 with page := d.page.map (nextPage pages) }
    else d.setCol (c + 1)

/-- The RAM address of a page and column. -/
def ramIndex (width page col : Nat) : Nat := page * width + col

/-- Store a data byte at the cursor, if the cursor is known and inside the panel (20_memory.md R68). -/
def Dev.store (width pages : Nat) (d : Dev) (b : Byte) : Dev :=
  match d.col, d.page with
  | some c, some p =>
    if c < width ∧ p.toNat < pages then { d with ram := memSet d.ram (ramIndex width p.toNat c) b } else d
  | _, _ => d

/-- A data frame (20_memory.md R68). -/
def Dev.data (width pages : Nat) (d : Dev) (b : Byte) : Dev := (d.store width pages b).advance width pages

/-- A byte of controller RAM; `none` is `Unknown` (20_memory.md R66). -/
def Dev.readRam (width : Nat) (d : Dev) (page col : Nat) : Option Byte := memFind d.ram (ramIndex width page col)

/-- The pixel of controller RAM at a row and column: bit k of the byte at page p is row 8p + k (20_memory.md R66, R62;
92_eei_decisions.md D13). `none` is `Unknown`. -/
def Dev.pixel (width : Nat) (d : Dev) (row col : Nat) : Option Bool :=
  (d.readRam width (row / 8) col).map fun b => b.getLsbD (row % 8)

/-- What a frame does to the controller (40_transport.md R133). -/
def Dev.frame (c : Cfg) (d : Dev) : Frame → Dev
  | .cmd (some b) => d.command c.regmap b
  | .data (some b) => d.data c.width c.pages b
  | .cmd none => Dev.unknown
  | .data none => Dev.unknown
  | .unclassified _ => Dev.unknown

/-- Classify a received byte by the CD level (40_transport.md R131). -/
def classify (cd : Level) (b : Option Byte) : Frame :=
  match cd with
  | .low => .cmd b
  | .high => .data b
  | .unknown => .unclassified b

/-- `complete(c)` (40_transport.md R131, R133). -/
def Rx.complete (c : Cfg) (rx : Rx) (b : Option Byte) : Rx :=
  let f := classify rx.lv.cd b
  { rx with frames := rx.frames ++ [f], dev := rx.dev.frame c f }

/-- Shift one bit into a byte; an `Unknown` bit makes the byte `Unknown` (40_transport.md R129). -/
def shiftIn (shift : Option Byte) (bit : Option Bool) : Option Byte :=
  match shift, bit with
  | some b, some x => some ((b <<< 1) ||| (if x then 1 else 0))
  | _, _ => none

/-- Receive one bit (40_transport.md R129). -/
def Rx.bit (c : Cfg) (rx : Rx) (bit : Option Bool) : Rx :=
  let sh := shiftIn rx.shift bit
  if rx.count + 1 = 8 then { rx.complete c sh with count := 0, shift := some 0 }
  else { rx with shift := sh, count := rx.count + 1 }

/-- Forget a partial byte (40_transport.md R132). -/
def Rx.clearPartial (rx : Rx) : Rx := { rx with count := 0, shift := some 0 }

/-- A level read as a bit. -/
def levelBit : Level → Option Bool
  | .low => some false
  | .high => some true
  | .unknown => none

/-- The edge rules, before the level is recorded (40_transport.md R129, R132, 20_memory.md R70). -/
def Rx.edge (c : Cfg) (rx : Rx) (p : Line) (v : Level) : Rx :=
  match p, v with
  | .sclk, .high => if rx.lv.sclk ≠ .high ∧ rx.lv.cs = .low then rx.bit c (levelBit rx.lv.sda) else rx
  | .cs, .high => rx.clearPartial
  | .rst, .high => if rx.lv.rst = .low then { rx.clearPartial with dev := Dev.afterReset } else rx
  | _, _ => rx

/-- One event of the trace (40_transport.md R128 to R132). -/
def Rx.event (c : Cfg) (rx : Rx) : Event → Rx
  | .pinWrite p v => let r := rx.edge c p v; { r with lv := r.lv.set p v }
  | .spiByte b => if rx.lv.cs = .low then (bitsMsbFirst b).foldl (fun r x => r.bit c (some x)) rx else rx
  | .pinConfig _ => rx
  | .xportSetup _ => rx
  | .delayMs _ => rx
  | .delayUs _ => rx

/-- The receiver after a list of events. -/
def Rx.events (c : Cfg) (rx : Rx) (es : List Event) : Rx := es.foldl (fun r e => r.event c e) rx

/-- The receiver of a whole trace, from construction (40_transport.md R134). -/
def Rx.ofTrace (c : Cfg) (trace : List Event) : Rx := Rx.initial.events c trace

/-- The frame view of a trace (40_transport.md R134). -/
def frameView (c : Cfg) (trace : List Event) : List Frame := (Rx.ofTrace c trace).frames

end Sys2Proof.Machine
end

