-- ==== Sys2Proof/Machine/Ops.lean ====
section
/-! DEFINITION. The pseudocode primitives of 00_scope.md R13 as named operations: the one that appends an event (and lets
the receiver see it), the one that drives a line, the byte accesses of the pixel buffer and of a source array, and the
raising of a fault, which is all the spec has in place of an exception (60_exceptions.md R241, R249: no trap, no handler,
no return). -/

namespace Sys2Proof.Machine

/-- The outcome of an operation. -/
abbrev Result := Host.Outcome State Fault Refusal

/-- `Emit(e)`: append an event (00_scope.md R13); the receiver, a fold of the trace, takes it (10_state.md R45). -/
def emit (e : Event) (s : State) : State :=
  { s with trace := s.trace ++ [e], rx := s.rx.event s.cfg e }

/-- `Pin(p) <- v`: drive a line and append the event (00_scope.md R13). -/
def drive (p : Line) (v : Level) (s : State) : State :=
  emit (.pinWrite p v) { s with pin := s.pin.set p v }

/-- `DelayMs(T)` (00_scope.md R13). -/
def delayMs (t : Nat) (s : State) : State := emit (.delayMs t) s

/-- `DelayUs(T)` (00_scope.md R13). -/
def delayUs (t : Nat) (s : State) : State := emit (.delayUs t) s

/-- A byte of the pixel buffer, as the block and the Host read it (10_state.md R42). -/
def readBuf (s : State) (i : Nat) : TByte := bufRead s.buf i

/-- `MemWrite(buf, i, 1, v)` (00_scope.md R13). -/
def writeBuf (i : Nat) (t : TByte) (s : State) : State := { s with buf := bufWrite s.buf i t }

/-- The Host's read of one buffer byte: any byte of the buffer, no other (10_state.md R42, 20_memory.md R60). -/
def hostRead (s : State) (i : Nat) : Option TByte := if i < s.cfg.bufLen then some (readBuf s i) else none

/-- `read(src, off, fromBuf)` (44_transfer.md R206): past the end is `SRC_OOB`, tested first; a buffer byte with an
`Unknown` bit is `SRC_UNINIT`. -/
def readSource (src : Source) (off : Nat) (s : State) : Except Fault Byte :=
  match src with
  | .array bytes =>
    match bytes[off]? with
    | some b => .ok b
    | none => .error .srcOob
  | .buffer =>
    if s.cfg.bufLen ≤ off then .error .srcOob
    else if (readBuf s off).defined then .ok (readBuf s off).val
    else .error .srcUninit

/-- `raise Fault(r)`: every event and change so far is kept and the sticky fault field records the reason
(00_scope.md R13, 60_exceptions.md R241). -/
def raiseFault (r : Fault) (s : State) : State := { s with fault := some r }

/-- An operation in progress: running on, or ended at once by a raised fault (60_exceptions.md R241). -/
inductive Flow where
  | running (s : State)
  | raised (s : State)

/-- Go on unless a fault was raised. -/
def Flow.andThen (f : Flow) (next : State → Flow) : Flow :=
  match f with
  | .running s => next s
  | .raised s => .raised s

/-- `f` applied `n` times (a counted loop). -/
def repeatOp : Nat → (State → State) → State → State
  | 0, _, s => s
  | n + 1, f, s => repeatOp n f (f s)

/-- The operations between a chip-select bracket (41_framer.md R144). -/
def bracket (body : State → State) (s : State) : State := drive .cs .high (body (drive .cs .low s))

/-- An internal operation runs when the Block issues it and is refused to the Host (60_exceptions.md R243). -/
def whenInternal (s : State) (run : State → Result) : Result :=
  match s.issuer with
  | .host => .refused .internalOp
  | .block => run s

/-- A wire byte is put on the channel by the Block; the Host has no such operation (30_encoding.md R96, 45_fill.md R232). -/
def whenWire (s : State) (run : State → Result) : Result :=
  match s.issuer with
  | .host => .refused .wireUnit
  | .block => run s

end Sys2Proof.Machine
end

