-- ==== Sys2Proof/Machine/Flags.lean ====
section
/-! DEFINITION. The block has no condition flag or status register (10_state.md R40). What it has is the sticky set of
marks (10_state.md R38, 60_exceptions.md R244), and every rule that sets one is here. A mark changes no event. -/

namespace Sys2Proof.Machine

/-- Add a mark to the set. -/
def Marks.add (m : Marks) (k : Mark) : Marks :=
  match k with
  | .preReady => { m with preReady := true }
  | .scrollRange => { m with scrollRange := true }
  | .dataCdNotHigh => { m with dataCdNotHigh := true }

/-- Whether a mark is in the set. -/
def Marks.has (m : Marks) : Mark → Bool
  | .preReady => m.preReady
  | .scrollRange => m.scrollRange
  | .dataCdNotHigh => m.dataCdNotHigh

/-- `if c then mark(k)` (00_scope.md R13). -/
def markIf (c : Bool) (k : Mark) (s : State) : State := { s with marks := if c then s.marks.add k else s.marks }

/-- `devUndefined(st)`: the controller's content is not determined by the spec (10_state.md R38). -/
def devUndefined (s : State) : Bool := s.marks != Marks.empty

/-- `requireReady()` (42_lifecycle.md R167). -/
def requireReady (s : State) : State := markIf (s.ctl != .ready) .preReady s

/-- `RESET` before the lines are configured (42_lifecycle.md R163). -/
def requireConfigured (s : State) : State := markIf (!s.pinsConfigured) .preReady s

/-- A scroll offset above 64 rows (42_lifecycle.md R169). -/
def requireScrollRange (v : Byte) (s : State) : State := markIf (decide (64 < v.toNat)) .scrollRange s

/-- Data while CD is not High (41_framer.md R141). -/
def requireDataMode (s : State) : State := markIf (s.pin.cd != .high) .dataCdNotHigh s

end Sys2Proof.Machine
end

