-- ==== Sys2Proof/Machine/Transport.lean ====
section
/-! DEFINITION. The serial transport encoder (40_transport.md R120 to R127). -/

namespace Sys2Proof.Machine

/-- One bit of the software transport (40_transport.md R121): data, clock up, delay, clock down, delay. -/
def clockBit (s : State) (b : Bool) : State :=
  delayUs s.cfg.tHalf (drive .sclk .low (delayUs s.cfg.tHalf (drive .sclk .high (drive .sda (bitLevel b) s))))

/-- `SEND_BYTE(b)` in the mode fixed at construction (40_transport.md R120, R121, R122). -/
def sendByte (b : Byte) (s : State) : State :=
  match s.cfg.xport with
  | .hw => emit (.spiByte b) s
  | .sw _ _ => (bitsMsbFirst b).foldl clockBit s

/-- SEND_BYTE (40_transport.md R120, R121). -/
def execSendByte (b : Byte) (s : State) : Result := whenInternal s fun s => .next (sendByte b s)

end Sys2Proof.Machine
end

