-- ==== Sys2Proof/Machine/Framer.lean ====
section
/-! DEFINITION. The command framer (41_framer.md R140 to R143). -/

namespace Sys2Proof.Machine

/-- A register takes the value byte sent to it, if the controller is listening (10_state.md R44, 41_framer.md R142; log 18). -/
def noteRegister (r : Reg) (v : Byte) (s : State) : State :=
  { s with devRegs := if s.pin.cs = .low then s.devRegs.set r v else s.devRegs }

/-- `SEND_COMMAND(sel, v)` (41_framer.md R140). -/
def sendCommand (r : Reg) (v : Byte) (s : State) : State :=
  noteRegister r v (drive .cd .high (sendByte (cmdByte (s.cfg.regmap.sel r) v) (drive .cd .low s)))

/-- `SEND_DATA(b)` (41_framer.md R141). -/
def sendData (b : Byte) (s : State) : State := sendByte b (requireDataMode s)

/-- SEND_COMMAND (41_framer.md R140). -/
def execSendCommand (r : Reg) (v : Byte) (s : State) : Result := whenInternal s fun s => .next (sendCommand r v s)

/-- SEND_DATA (41_framer.md R141). -/
def execSendData (b : Byte) (s : State) : Result := whenInternal s fun s => .next (sendData b s)

end Sys2Proof.Machine
end

