-- ==== Sys2Proof/Machine/Fill.lean ====
section
/-! DEFINITION. The whole-screen fill streams (45_fill.md R230 to R234). -/

namespace Sys2Proof.Machine

/-- The data bytes of a whole screen, `W * (H / 8)` (45_fill.md R230). -/
def screenBytes (c : Cfg) : Nat := c.width * (c.height / 8)

/-- The data bytes of `FILL_PAGE`, `(W * (H / 8)) / 8` (45_fill.md R231). -/
def pageBytes (c : Cfg) : Nat := c.width * (c.height / 8) / 8

/-- FILL_SCREEN (45_fill.md R230). -/
def execFillScreen (pattern : Byte) (d : Nat) (s : State) : Result :=
  .next (bracket (repeatOp (screenBytes s.cfg) fun s => delayUs d (sendData pattern s)) (requireReady s))

/-- FILL_PAGE (45_fill.md R231). -/
def execFillPage (pattern : Byte) (s : State) : Result :=
  .next (bracket (repeatOp (pageBytes s.cfg) (sendData pattern)) (requireReady s))

end Sys2Proof.Machine
end

