-- ==== Sys2Proof/Machine/Lifecycle.lean ====
section
/-! DEFINITION. The controller lifecycle and power-on reset sequencer (42_lifecycle.md R160 to R175). -/

namespace Sys2Proof.Machine

/-- The five initial registers, in their fixed order (42_lifecycle.md R162). -/
def initFive (s : State) : State :=
  let v := s.cfg.initvals
  sendCommand .power v.power (sendCommand .bias v.bias (sendCommand .framerate v.framerate
    (sendCommand .addrmode v.addrmode (sendCommand .tempcomp v.tempcomp s))))

/-- The gain written twice, the display enabled, the default orientation (42_lifecycle.md R162). -/
def initFour (vbias : Byte) (s : State) : State :=
  sendCommand .orient (s.cfg.orientCode.code .normal) (sendCommand .dispen s.cfg.valDisplayOn
    (sendCommand .gain vbias (sendCommand .gain 0x00 s)))

/-- `INIT_REGS(vbias)` (42_lifecycle.md R162). -/
def initRegs (vbias : Byte) (s : State) : State :=
  bracket (fun s => initFour vbias (delayMs s.cfg.tInitStab (initFive s))) s

/-- The reset pulse: RST Low, the settle delay, RST High, the longer delay (42_lifecycle.md R163, R164). The
controller's registers are then in their reset state (70_reset_and_hazards.md R274), a free value each (log 32). -/
def resetPulse (s : State) : State :=
  let s := drive .rst .high (delayMs s.cfg.tRstLow (drive .rst .low s))
  delayMs s.cfg.tRstRec { s with devRegs := DevRegs.afterReset }

/-- `RESET()` (42_lifecycle.md R163). -/
def resetOp (s : State) : State := { resetPulse (requireConfigured s) with ctl := .resetting }

/-- The control-pin directions and the transport setup of `BEGIN` (42_lifecycle.md R161). -/
def configurePins (s : State) : State :=
  let s := emit (.pinConfig .rst) (emit (.pinConfig .cd) (emit (.pinConfig .cs) s))
  match s.cfg.xport with
  | .sw _ _ =>
    let s := emit (.xportSetup .sw) (emit (.pinConfig .sda) (emit (.pinConfig .sclk) s))
    drive .sda .low (drive .sclk .low s)
  | .hw => emit (.xportSetup .hw) s

/-- `BEGIN(vbias)` (42_lifecycle.md R161). -/
def beginOp (vbias : Byte) (s : State) : State :=
  { initRegs vbias (resetOp { configurePins s with pinsConfigured := true }) with ctl := .ready }

/-- One display-control command in its own bracket (42_lifecycle.md R168 to R172, 41_framer.md R145). -/
def displayCommand (r : Reg) (v : Byte) (s : State) : State := bracket (sendCommand r v) s

/-- BEGIN (42_lifecycle.md R161). -/
def execBegin (vbias : Byte) (s : State) : Result := .next (beginOp vbias s)

/-- RESET (42_lifecycle.md R163). -/
def execReset (s : State) : Result := .next (resetOp s)

/-- DISPLAY_ENABLE (42_lifecycle.md R168). -/
def execDisplayEnable (v : Byte) (s : State) : Result := .next (displayCommand .dispen v (requireReady s))

/-- SCROLL (42_lifecycle.md R169): the value is sent unchecked. -/
def execScroll (v : Byte) (s : State) : Result :=
  .next (displayCommand .scroll v (requireScrollRange v (requireReady s)))

/-- ORIENT (42_lifecycle.md R170). -/
def execOrient (v : Byte) (s : State) : Result :=
  .next (displayCommand .orient (orientationCode s.cfg.orientCode v) (requireReady s))

/-- INVERT (42_lifecycle.md R171). -/
def execInvert (v : Byte) (s : State) : Result := .next (displayCommand .inverse v (requireReady s))

/-- ALL_ON (42_lifecycle.md R172). -/
def execAllOn (v : Byte) (s : State) : Result := .next (displayCommand .allon v (requireReady s))

/-- INIT_REGS (42_lifecycle.md R162). -/
def execInitRegs (vbias : Byte) (s : State) : Result := whenInternal s fun s => .next (initRegs vbias s)

end Sys2Proof.Machine
end

