-- ==== Sys2Proof/Machine/PixelBuffer.lean ====
section
/-! DEFINITION. The pixel buffer (43_pixel_buffer.md R190 to R195). -/

namespace Sys2Proof.Machine

/-- `SET_PIXEL(x, y, mode)` (43_pixel_buffer.md R190): outside the buffer it is a silent no-op. -/
def setPixel (x y : Int) (mode : BlendMode) (s : State) : State :=
  if inRange x s.cfg.bufWidth && inRange y s.cfg.bufHeight then
    let i := byteIndex s.cfg.bufWidth x.toNat y.toNat
    writeBuf i (blend mode (bitIndex y.toNat) (readBuf s i)) s
  else s

/-- `CLEAR_BUFFER()` (43_pixel_buffer.md R191). -/
def clearBuffer (s : State) : State := { s with buf := bufClear s.buf s.cfg.bufLen }

/-- SET_PIXEL (43_pixel_buffer.md R190). -/
def execSetPixel (x y : Int) (mode : BlendMode) (s : State) : Result := .next (setPixel x y mode s)

/-- CLEAR_BUFFER (43_pixel_buffer.md R191). -/
def execClearBuffer (s : State) : Result := .next (clearBuffer s)

end Sys2Proof.Machine
end

