-- ==== Sys2Proof/Machine/Streamer.lean ====
section
/-! DEFINITION. The buffer-to-device page and column address streamer (44_transfer.md R200 to R216). -/

namespace Sys2Proof.Machine

/-- `ADDR_TRIPLE(column, page)` (44_transfer.md R203). -/
def addrTriple (column page : Nat) (s : State) : State :=
  sendCommand .page (pageValue page) (sendCommand .colHi (colHi column) (sendCommand .colLo (colLo column) s))

/-- One column of a band (44_transfer.md R205, R206): a clipped byte is not read; a bad read raises its fault before the
byte reaches the line. -/
def streamByte (x : Int) (w : Nat) (src : Source) (ty tx : Nat) (s : State) : Flow :=
  if inRange (x + tx) s.cfg.width then
    match readSource src (sourceOffset w ty tx) s with
    | .ok b => .running (sendData b s)
    | .error r => .raised (raiseFault r s)
  else .running s

/-- The columns of a band, in order. -/
def streamRow (x : Int) (w : Nat) (src : Source) (ty : Nat) : List Nat → State → Flow
  | [], s => .running s
  | tx :: rest, s => (streamByte x w src ty tx s).andThen (streamRow x w src ty rest)

/-- The bands, in order, with the page counter, which only a written band advances (44_transfer.md R200, R202). -/
def streamBands (x y : Int) (w : Nat) (src : Source) : List Nat → Nat → State → Flow
  | [], _, s => .running s
  | ty :: rest, page, s =>
    if inRange (y + ty) s.cfg.height then
      (streamRow x w src ty (List.range w) (addrTriple (firstColumn x) page s)).andThen
        (streamBands x y w src rest (page + 1))
    else streamBands x y w src rest page s

/-- `STREAM(x, y, w, h, src, fromBuf)` (44_transfer.md R200, R209). A raised fault ends the operation with its state: no
later event, CS still Low (60_exceptions.md R241; log 8). -/
def streamOp (x y : Int) (w h : Nat) (src : Source) (s : State) : Result :=
  if 248 < h then .refused .hTooLarge
  else
    match streamBands x y w src (bandTops h) (firstPage y) (drive .cs .low (requireReady s)) with
    | .running s' => .next (drive .cs .high s')
    | .raised s' => .next s'

/-- TRANSFER (44_transfer.md R207). -/
def execTransfer (x y : Int) (w h : Nat) (s : State) : Result := streamOp x y w h .buffer s

/-- BITMAP (44_transfer.md R208). -/
def execBitmap (x y : Int) (w h : Nat) (image : List Byte) (s : State) : Result := streamOp x y w h (.array image) s

/-- STREAM (44_transfer.md R200). -/
def execStream (x y : Int) (w h : Nat) (src : Source) (s : State) : Result :=
  whenInternal s fun s => streamOp x y w h src s

/-- ADDR_TRIPLE (44_transfer.md R203). -/
def execAddrTriple (column page : Nat) (s : State) : Result :=
  whenInternal s fun s => .next (addrTriple column page s)

end Sys2Proof.Machine
end

