-- ==== Sys2Proof/Machine/Wire.lean ====
section
/-! DEFINITION. The wire bytes (30_encoding.md R104 to R118): a command byte crosses the channel as `SEND_COMMAND` sends it
and a data byte as `SEND_DATA` sends it, and the receiver takes the frame when CS is Low (log 10). -/

namespace Sys2Proof.Machine

/-- A command byte put on the channel (30_encoding.md R91, 41_framer.md R140). -/
def wireCommand (r : Reg) (v : Byte) (s : State) : Result := whenWire s fun s => .next (sendCommand r v s)

/-- DATA (30_encoding.md R104). -/
def execData (b : Byte) (s : State) : Result := whenWire s fun s => .next (sendData b s)

/-- CMD_TEMPCOMP (30_encoding.md R105). -/
def execCmdTempcomp (s : State) : Result := wireCommand .tempcomp s.cfg.initvals.tempcomp s

/-- CMD_ADDRMODE (30_encoding.md R106). -/
def execCmdAddrmode (s : State) : Result := wireCommand .addrmode s.cfg.initvals.addrmode s

/-- CMD_FRAMERATE (30_encoding.md R107). -/
def execCmdFramerate (s : State) : Result := wireCommand .framerate s.cfg.initvals.framerate s

/-- CMD_BIAS (30_encoding.md R108). -/
def execCmdBias (s : State) : Result := wireCommand .bias s.cfg.initvals.bias s

/-- CMD_POWER (30_encoding.md R109). -/
def execCmdPower (s : State) : Result := wireCommand .power s.cfg.initvals.power s

/-- CMD_GAIN (30_encoding.md R110). -/
def execCmdGain (v : Byte) (s : State) : Result := wireCommand .gain v s

/-- CMD_DISPEN (30_encoding.md R111). -/
def execCmdDispen (v : Byte) (s : State) : Result := wireCommand .dispen v s

/-- CMD_ORIENT (30_encoding.md R112). -/
def execCmdOrient (code : Byte) (s : State) : Result := wireCommand .orient code s

/-- CMD_SCROLL (30_encoding.md R113). -/
def execCmdScroll (v : Byte) (s : State) : Result := wireCommand .scroll v s

/-- CMD_INVERSE (30_encoding.md R114). -/
def execCmdInverse (v : Byte) (s : State) : Result := wireCommand .inverse v s

/-- CMD_ALLON (30_encoding.md R115). -/
def execCmdAllon (v : Byte) (s : State) : Result := wireCommand .allon v s

/-- CMD_COL_LO (30_encoding.md R116). -/
def execCmdColLo (nib : Nibble) (s : State) : Result := wireCommand .colLo (nib.setWidth 8) s

/-- CMD_COL_HI (30_encoding.md R117). -/
def execCmdColHi (nib : Nibble) (s : State) : Result := wireCommand .colHi (nib.setWidth 8) s

/-- CMD_PAGE (30_encoding.md R118). -/
def execCmdPage (page : Nibble) (s : State) : Result := wireCommand .page (page.setWidth 8) s

end Sys2Proof.Machine
end

