-- ==== Sys2Proof/Machine/Dispatch.lean ====
section
/-! DEFINITION. One arm per operation (30_encoding.md R96): the meaning each row of spec/opcode_table.json has. -/

namespace Sys2Proof.Machine

/-- Execute one operation to completion (00_scope.md R7). -/
def exec (i : Instr) (s : State) : Host.Outcome State Fault Refusal :=
  match i with
  | .beginOp vbias => Sys2Proof.Machine.execBegin vbias s
  | .reset => Sys2Proof.Machine.execReset s
  | .displayEnable v => Sys2Proof.Machine.execDisplayEnable v s
  | .scroll v => Sys2Proof.Machine.execScroll v s
  | .orient v => Sys2Proof.Machine.execOrient v s
  | .invert v => Sys2Proof.Machine.execInvert v s
  | .allOn v => Sys2Proof.Machine.execAllOn v s
  | .setPixel x y mode => Sys2Proof.Machine.execSetPixel x y mode s
  | .clearBuffer => Sys2Proof.Machine.execClearBuffer s
  | .transfer x y w h => Sys2Proof.Machine.execTransfer x y w h s
  | .bitmap x y w h image => Sys2Proof.Machine.execBitmap x y w h image s
  | .fillScreen pattern d => Sys2Proof.Machine.execFillScreen pattern d s
  | .fillPage pattern => Sys2Proof.Machine.execFillPage pattern s
  | .sendByte b => Sys2Proof.Machine.execSendByte b s
  | .sendCommand r v => Sys2Proof.Machine.execSendCommand r v s
  | .sendData b => Sys2Proof.Machine.execSendData b s
  | .initRegs vbias => Sys2Proof.Machine.execInitRegs vbias s
  | .stream x y w h src => Sys2Proof.Machine.execStream x y w h src s
  | .addrTriple column page => Sys2Proof.Machine.execAddrTriple column page s
  | .data b => Sys2Proof.Machine.execData b s
  | .cmdTempcomp => Sys2Proof.Machine.execCmdTempcomp s
  | .cmdAddrmode => Sys2Proof.Machine.execCmdAddrmode s
  | .cmdFramerate => Sys2Proof.Machine.execCmdFramerate s
  | .cmdBias => Sys2Proof.Machine.execCmdBias s
  | .cmdPower => Sys2Proof.Machine.execCmdPower s
  | .cmdGain v => Sys2Proof.Machine.execCmdGain v s
  | .cmdDispen v => Sys2Proof.Machine.execCmdDispen v s
  | .cmdOrient code => Sys2Proof.Machine.execCmdOrient code s
  | .cmdScroll v => Sys2Proof.Machine.execCmdScroll v s
  | .cmdInverse v => Sys2Proof.Machine.execCmdInverse v s
  | .cmdAllon v => Sys2Proof.Machine.execCmdAllon v s
  | .cmdColLo nib => Sys2Proof.Machine.execCmdColLo nib s
  | .cmdColHi nib => Sys2Proof.Machine.execCmdColHi nib s
  | .cmdPage page => Sys2Proof.Machine.execCmdPage page s

end Sys2Proof.Machine
end

