-- ==== Sys2Proof/Machine/Fetch.lean ====
section
/-! DEFINITION. Taking the next operation. There is no program counter and no instruction fetch (10_state.md R32,
20_memory.md R65): the Host issues its operations one at a time (00_scope.md R6), and the model keeps what is still to be
issued in `State.pending` (log 6). -/

namespace Sys2Proof.Machine

/-- The operation an item stands for and the agent that issues it, or why there is none. -/
def readItem (s : State) : Item → Except Refusal (Agent × Instr)
  | .line text =>
    match decodeLine s.arrays s.cfg text with
    | .ok i => .ok (.host, i)
    | .error .internalOperation => .error .internalOp
    | .error why => .error (.undecodable why)
  | .call i => .ok (.host, i)
  | .inner i => .ok (.block, i)
  | .wire cls bytes =>
    match decodeWire s.cfg cls bytes with
    | .ok i => .ok (.block, i)
    | .error why => .error (.undecodable why)

/-- The operation of an item, if its operands lie in their types (30_encoding.md R97). -/
def fetchItem (s : State) (it : Item) : Except Refusal (Agent × Instr) :=
  match readItem s it with
  | .error r => .error r
  | .ok (a, i) => if i.wellFormed then .ok (a, i) else .error .malformed

/-- The state an operation starts in: taken off the queue, with its issuer. -/
def issue (a : Agent) (rest : List Item) (s : State) : State := { s with pending := rest, issuer := a }

/-- Put a wire unit at the head of the queue. -/
def placeWire (bytes : List Byte) (s : State) : State := { s with pending := .wire .command bytes :: s.pending }

/-- The Host issues a program text: its lines join the queue in order (log 6). -/
def hostIssues (text : List Byte) (s : State) : State :=
  { s with pending := s.pending ++ (programLines text).map Item.line }

/-- The Host names a byte array, for `@name` operands (30_encoding.md R100, 20_memory.md R60). -/
def hostNames (name bytes : List Byte) (s : State) : State := { s with arrays := (name, bytes) :: s.arrays }

end Sys2Proof.Machine
end

