-- ==== Sys2Proof/Machine/Step.lean ====
section
/-! DEFINITION. One step of the machine: the next operation, executed to completion (00_scope.md R7). -/

namespace Sys2Proof.Machine

/-- One step. After a fault nothing runs (60_exceptions.md R250): the step answers the recorded fault. With no operation
left the run has ended and the state is final (00_scope.md R9): the step changes nothing. Otherwise the next operation is
taken off the queue and executed. -/
def step (s : State) : Host.Outcome State Fault Refusal :=
  match s.fault with
  | some r => .fault r
  | none =>
    match s.pending with
    | [] => .next s
    | it :: rest =>
      match fetchItem s it with
      | .error r => .refused r
      | .ok (a, i) => exec i (issue a rest s)

/-- `s` with a table word placed where the next step takes its operation: at the head of the queue, as a command byte
(log 11). -/
def State.withFetchWord (s : State) (nbits w : Nat) : State := placeWire (wordBytes nbits w) s

end Sys2Proof.Machine
end

