-- ==== Sys2Proof/Machine/Construct.lean ====
section
/-! DEFINITION. Construction, the block's reset (70_reset_and_hazards.md R270): the configuration is checked in the order
of 60_exceptions.md R242, then against the rest of 00_scope.md R10, and the first failing check names the refusal. -/

namespace Sys2Proof.Machine

/-- What construction is given: a configuration with the two pin identifiers of the transport, `none` being the UNSET
sentinel, in place of the transport variant (10_state.md R33). -/
structure CfgRequest where
  base    : Cfg
  clkPin  : Option Nat
  dataPin : Option Nat
  deriving DecidableEq, Repr

/-- `modeOf(clk, data)` (10_state.md R33). -/
def modeOf (clk data : Option Nat) : Except Refusal Xport :=
  match clk, data with
  | none, none => .ok .hw
  | some c, some d => .ok (.sw c d)
  | none, some _ => .error .badTransport
  | some _, none => .error .badTransport

/-- The device geometry (00_scope.md R10, R11). -/
def geometryOk (c : Cfg) : Bool :=
  decide (c.height % 8 = 0) && decide (1 ≤ c.width) && decide (c.width ≤ 256) && decide (8 ≤ c.height)
    && decide (c.height ≤ 128)

/-- The pixel buffer geometry (43_pixel_buffer.md R194, 60_exceptions.md R242). -/
def bufferOk (c : Cfg) : Bool :=
  decide (c.bufWidth ≤ c.width) && decide (c.bufHeight ≤ c.height) && decide (c.bufHeight % 8 = 0)
    && decide (c.bufWidth ≤ 255) && decide (c.bufHeight ≤ 248)

/-- The remaining constraints of 00_scope.md R10: the recovery delay is the longer one, the four orientation codes are
distinct, `VAL_DISPLAY_ON` is 0x01 (92_eei_decisions.md D5). -/
def parametersOk (c : Cfg) : Bool :=
  decide (c.tRstLow < c.tRstRec) && c.valDisplayOn == 0x01
    && c.orientCode.normal != c.orientCode.m1 && c.orientCode.normal != c.orientCode.m2
    && c.orientCode.normal != c.orientCode.m3 && c.orientCode.m1 != c.orientCode.m2
    && c.orientCode.m1 != c.orientCode.m3 && c.orientCode.m2 != c.orientCode.m3

/-- `construct(Cfg)` (70_reset_and_hazards.md R270): the three checks of 60_exceptions.md R242 in its order, then the
constraints of 00_scope.md R10 that R242 names no reason for (30_encoding.md R98; the reason and its place are the model's:
DESIGN CHOICE, log 24). -/
def construct (q : CfgRequest) : Except Refusal State :=
  if !geometryOk q.base then .error .badGeometry
  else if !bufferOk q.base then .error .badBuffer
  else
    match modeOf q.clkPin q.dataPin with
    | .error r => .error r
    | .ok x => if parametersOk q.base then .ok (State.initial { q.base with xport := x }) else .error .badParameter

/-- The geometry of a configuration construction can yield. -/
def cfgOk (c : Cfg) : Bool := geometryOk c && bufferOk c

/-- The selectors the reference receiver's decode needs (92_eei_decisions.md D2, "for the reference receiver only", so
construction does not check them: log 24): three distinct high nibbles over a zero low nibble. -/
def addressable (m : RegMap) : Bool :=
  m.colLo &&& 0x0F == 0 && m.colHi &&& 0x0F == 0 && m.page &&& 0x0F == 0
    && m.colLo != m.colHi && m.colLo != m.page && m.colHi != m.page

end Sys2Proof.Machine
end

