-- ==== Sys2Proof/Safety.lean ====
section
/-! DEFINITION. What counts as a safe run, in the terms the claims use: the invariants of a machine between operations, the
condition under which controller content may be claimed, and the spec's own listing of what each operation emits. -/

namespace Sys2Proof.Machine

/-! ### Events and what they leave -/

/-- The levels of the lines after a list of events: the last level written to each, else the level before. -/
def linesAfter (p : Pins) : List Event → Pins
  | [] => p
  | .pinWrite l v :: es => linesAfter (p.set l v) es
  | .pinConfig _ :: es => linesAfter p es
  | .xportSetup _ :: es => linesAfter p es
  | .spiByte _ :: es => linesAfter p es
  | .delayMs _ :: es => linesAfter p es
  | .delayUs _ :: es => linesAfter p es

/-- `s` after the events `es`: the trace extended, the lines at their last levels, the receiver having taken them, and
nothing else changed. -/
def State.play (s : State) (es : List Event) : State :=
  { s with trace := s.trace ++ es, pin := linesAfter s.pin es, rx := s.rx.events s.cfg es }

/-- The five events of one software bit (40_transport.md R121). -/
def bitEvents (c : Cfg) (x : Bool) : List Event :=
  [.pinWrite .sda (if x then .high else .low), .pinWrite .sclk .high, .delayUs c.tHalf, .pinWrite .sclk .low,
   .delayUs c.tHalf]

/-- The events of one byte: one event in hardware mode (40_transport.md R120), forty in software mode, bit 7 first (R121). -/
def byteEvents (c : Cfg) (b : Byte) : List Event :=
  match c.xport with
  | .hw => [.spiByte b]
  | .sw _ _ =>
    bitEvents c (b.getLsbD 7) ++ bitEvents c (b.getLsbD 6) ++ bitEvents c (b.getLsbD 5) ++ bitEvents c (b.getLsbD 4) ++
      bitEvents c (b.getLsbD 3) ++ bitEvents c (b.getLsbD 2) ++ bitEvents c (b.getLsbD 1) ++ bitEvents c (b.getLsbD 0)

/-- The events of one command: CD Low, the byte selector OR value, CD High (41_framer.md R140). -/
def commandEvents (c : Cfg) (r : Reg) (v : Byte) : List Event :=
  .pinWrite .cd .low :: byteEvents c (c.regmap.sel r ||| v) ++ [.pinWrite .cd .high]

/-- Events inside one chip-select bracket (41_framer.md R144). -/
def bracketEvents (body : List Event) : List Event := .pinWrite .cs .low :: body ++ [.pinWrite .cs .high]

/-- The events of `RESET` (42_lifecycle.md R163, R164). -/
def resetEvents (c : Cfg) : List Event :=
  [.pinWrite .rst .low, .delayMs c.tRstLow, .pinWrite .rst .high, .delayMs c.tRstRec]

/-- The events of `INIT_REGS` (42_lifecycle.md R162). -/
def initEvents (c : Cfg) (vbias : Byte) : List Event :=
  bracketEvents
    (commandEvents c .tempcomp c.initvals.tempcomp ++ commandEvents c .addrmode c.initvals.addrmode ++
      commandEvents c .framerate c.initvals.framerate ++ commandEvents c .bias c.initvals.bias ++
      commandEvents c .power c.initvals.power ++ [.delayMs c.tInitStab] ++ commandEvents c .gain 0x00 ++
      commandEvents c .gain vbias ++ commandEvents c .dispen c.valDisplayOn ++
      commandEvents c .orient c.orientCode.normal)

/-- The controller registers after the commands of `INIT_REGS` (42_lifecycle.md R162). -/
def initDevRegs (c : Cfg) (vbias : Byte) (d : DevRegs) : DevRegs :=
  { d with
    tempcomp := c.initvals.tempcomp
    addrmode := c.initvals.addrmode
    framerate := c.initvals.framerate
    bias := c.initvals.bias
    power := c.initvals.power
    gain := vbias
    dispen := c.valDisplayOn
    orient := c.orientCode.normal }

/-- The events that configure the lines in `BEGIN` (42_lifecycle.md R161). -/
def setupEvents (c : Cfg) : List Event :=
  match c.xport with
  | .hw => [.pinConfig .cs, .pinConfig .cd, .pinConfig .rst, .xportSetup .hw]
  | .sw _ _ =>
    [.pinConfig .cs, .pinConfig .cd, .pinConfig .rst, .pinConfig .sclk, .pinConfig .sda, .xportSetup .sw,
     .pinWrite .sclk .low, .pinWrite .sda .low]

/-- The nine command frames of `BEGIN` (42_lifecycle.md R173). -/
def beginFrames (c : Cfg) (vbias : Byte) : List Frame :=
  [ .cmd (some (c.regmap.tempcomp ||| c.initvals.tempcomp)), .cmd (some (c.regmap.addrmode ||| c.initvals.addrmode)),
    .cmd (some (c.regmap.framerate ||| c.initvals.framerate)), .cmd (some (c.regmap.bias ||| c.initvals.bias)),
    .cmd (some (c.regmap.power ||| c.initvals.power)), .cmd (some (c.regmap.gain ||| 0x00)),
    .cmd (some (c.regmap.gain ||| vbias)), .cmd (some (c.regmap.dispen ||| c.valDisplayOn)),
    .cmd (some (c.regmap.orient ||| c.orientCode.normal)) ]

/-- The events of one addressing triple (44_transfer.md R203). -/
def tripleEvents (c : Cfg) (column page : Nat) : List Event :=
  commandEvents c .colLo (BitVec.ofNat 8 (column % 16)) ++ commandEvents c .colHi (BitVec.ofNat 8 (column / 16 % 16)) ++
    commandEvents c .page (BitVec.ofNat 8 page)

/-- The frames of one addressing triple (44_transfer.md R203, 95_test_vectors.md `triple`). -/
def tripleFrames (c : Cfg) (column page : Nat) : List Frame :=
  [ .cmd (some (c.regmap.colLo ||| BitVec.ofNat 8 (column % 16))),
    .cmd (some (c.regmap.colHi ||| BitVec.ofNat 8 (column / 16 % 16))),
    .cmd (some (c.regmap.page ||| BitVec.ofNat 8 page)) ]

/-! ### The streamer's listing -/

/-- What a stream does, in order: an addressing triple for a page, or the byte at a source offset (44_transfer.md R210). -/
inductive StreamAct where
  | triple (page : Nat)
  | byte (off : Nat)
  deriving DecidableEq, Repr

/-- The written bands `B` of 44_transfer.md R210. -/
def writtenBands (c : Cfg) (y : Int) (h : Nat) : List Nat := (bandTops h).filter fun ty => inRange (y + ty) c.height

/-- The unclipped columns `C` of 44_transfer.md R210. -/
def sentColumns (c : Cfg) (x : Int) (w : Nat) : List Nat := (List.range w).filter fun tx => inRange (x + tx) c.width

/-- The acts of a stream (44_transfer.md R210): for each written band its triple, with the page of the band's top row
(R211), then the byte of each unclipped column at its source offset (R205). -/
def streamActs (c : Cfg) (x y : Int) (w h : Nat) : List StreamAct :=
  (writtenBands c y h).flatMap fun ty : Nat =>
    .triple ((y + ty) / 8).toNat :: (sentColumns c x w).map fun tx : Nat => .byte (w * (ty / 8) + tx)

/-- The events of an act, given the source's bytes. -/
def actEvents (c : Cfg) (x : Int) (bytes : Nat → Byte) : StreamAct → List Event
  | .triple page => tripleEvents c (max x 0).toNat page
  | .byte off => byteEvents c (bytes off)

/-- The frames of an act, given the source's bytes. -/
def actFrames (c : Cfg) (x : Int) (bytes : Nat → Byte) : StreamAct → List Frame
  | .triple page => tripleFrames c (max x 0).toNat page
  | .byte off => [.data (some (bytes off))]

/-- The controller registers after an act. -/
def actRegs (x : Int) (d : DevRegs) : StreamAct → DevRegs
  | .triple page =>
    ((d.set .colLo (BitVec.ofNat 8 ((max x 0).toNat % 16))).set .colHi
      (BitVec.ofNat 8 ((max x 0).toNat / 16 % 16))).set .page (BitVec.ofNat 8 page)
  | .byte _ => d

/-- The byte of a source at an offset, where it can be read; any value elsewhere. -/
def sourceByte (s : State) : Source → Nat → Byte
  | .buffer, off => (readBuf s off).val
  | .array bytes, off => (bytes[off]?).getD 0

/-- A source byte that is there and, in the pixel buffer, has no `Unknown` bit (44_transfer.md R206). -/
def readable (s : State) : Source → Nat → Prop
  | .buffer, off => off < s.cfg.bufLen ∧ (readBuf s off).defined = true
  | .array bytes, off => off < bytes.length

/-- What a stream leaves in the controller registers: all its triples when every byte can be read, else those before the first
byte that cannot (44_transfer.md R206, R210; registers as value bytes sent, log 18). -/
def StreamRecorded (x : Int) (acts : List StreamAct) (src : Source) (s t : State) : Prop :=
  ((∀ off, .byte off ∈ acts → readable s src off) → t.devRegs = acts.foldl (actRegs x) s.devRegs) ∧
  ∀ before off after, acts = before ++ .byte off :: after → (∀ o, .byte o ∈ before → readable s src o) →
    ¬ readable s src off → t.devRegs = before.foldl (actRegs x) s.devRegs

/-! ### Marks -/

/-- The marks after `requireReady` (42_lifecycle.md R167). -/
def readyMarks (s : State) : Marks :=
  { s.marks with preReady := s.marks.preReady || decide (s.ctl ≠ .ready) }

/-- The marks after data bytes while CD is at its level in `s` (41_framer.md R141). -/
def dataMarks (m : Marks) (s : State) : Marks :=
  { m with dataCdNotHigh := m.dataCdNotHigh || decide (s.pin.cd ≠ .high) }

/-! ### Invariants of the machine between operations -/

/-- The lines between operations: CD is never left Low, CS is left Low only by a fault (10_state.md R48, 60_exceptions.md
R241), SCLK is never left High in software mode (40_transport.md R124), and the software lines are never driven in
hardware mode (10_state.md R34). -/
structure State.LinesAtRest (s : State) : Prop where
  cd_released : s.pin.cd ≠ .low
  cs_released : s.fault = none → s.pin.cs ≠ .low
  sclk_low    : ∀ clk dat, s.cfg.xport = .sw clk dat → s.pin.sclk ≠ .high
  hw_serial   : s.cfg.xport = .hw → s.pin.sclk = .unknown ∧ s.pin.sda = .unknown

/-- The receiver is the fold of the trace (10_state.md R45, R46), has seen the lines at their levels, and holds no partial
byte between operations (40_transport.md R132). -/
structure State.ReceiverFollows (s : State) : Prop where
  is_fold     : s.rx = Rx.ofTrace s.cfg s.trace
  sees_lines  : s.rx.lv = s.pin
  whole_bytes : s.rx.count = 0 ∧ s.rx.shift = some 0

/-- Everything that holds of a machine between operations. -/
structure State.Inv (s : State) : Prop where
  lines    : s.LinesAtRest
  receiver : s.ReceiverFollows
  memory   : s.memWf = true

/-- The receiver can take whole bytes: it has seen the lines at their levels, holds no partial byte, and in software mode
sees SCLK not High. -/
structure State.ReceiverAtRest (s : State) : Prop where
  sees_lines  : s.rx.lv = s.pin
  whole_bytes : s.rx.count = 0 ∧ s.rx.shift = some 0
  sclk_low    : ∀ clk dat, s.cfg.xport = .sw clk dat → s.pin.sclk ≠ .high

/-- The controller's content is determined: no fault and no mark (10_state.md R38, R39, 20_memory.md R71). -/
def State.determined (s : State) : Prop := s.fault = none ∧ devUndefined s = false

/-! ### The two transport modes side by side -/

/-- Two states that differ only in the transport: its variant, the software lines, the trace. Everything else, the frames
and the controller among it, is the same (40_transport.md R123). -/
structure SameButTransport (s t : State) : Prop where
  cfg      : { s.cfg with xport := t.cfg.xport } = t.cfg
  cs       : s.pin.cs = t.pin.cs
  cd       : s.pin.cd = t.pin.cd
  rst      : s.pin.rst = t.pin.rst
  conf     : s.pinsConfigured = t.pinsConfigured
  ctl      : s.ctl = t.ctl
  marks    : s.marks = t.marks
  fault    : s.fault = t.fault
  buf      : s.buf = t.buf
  frames   : s.rx.frames = t.rx.frames
  dev      : s.rx.dev = t.rx.dev
  devRegs  : s.devRegs = t.devRegs
  arrays   : s.arrays = t.arrays
  pending  : s.pending = t.pending
  issuer   : s.issuer = t.issuer

end Sys2Proof.Machine
end

