-- ==== Sys2Proof/Certificates/Slice0/Obligations.lean ====
section
/-! DEFINITION. The statements for the provers. Each docstring names the rule of spec/ it formalises, or says that it is the
model's own choice and names its log entry. -/

open Sys2Proof Sys2Proof.Machine

/-! ### Decoding and stepping -/

/-- A few bytes of the reference map, written out from 93_implementation_defined.md G1 to G3 (general knowledge, log 2),
decode to the operations they stand for (30_encoding.md R102), and one line of text to its host operation (R100). Rows with
more mask bits are tried first in every map: with the gain selector 0xF1 and the page selector 0xF0, 0xF1 is a gain byte. -/
def Obligations.ReferenceBytesDecode : Prop :=
  decodeTableWord 8 0xB3 = some (.cmdPage 3) ∧
  decodeTableWord 8 0x1B = some (.cmdColHi 0xB) ∧
  decodeTableWord 8 0x8A = some .cmdAddrmode ∧
  decodeTableWord 8 0xAF = some (.cmdDispen 1) ∧
  decodeTableWord 8 0xC4 = some (.cmdOrient 4) ∧
  decodeTableWord 8 0x4A = some (.cmdScroll 10) ∧
  decodeTableWord 8 0xC9 = some (.cmdGain 0x48) ∧
  decodeWire Cfg.reference .data [0x8A] = .ok (.data 0x8A) ∧
  decodeWire { Cfg.reference with regmap := { RegMap.reference with gain := 0xF1, page := 0xF0 } } .command [0xF1] =
    .ok (.cmdGain 0) ∧
  decodeLine [] Cfg.reference (ascii ['S', 'C', 'R', 'O', 'L', 'L', ' ', '1', '0']) = .ok (.scroll 10)

/-- Decoding a wire unit loses no bit, whatever the configuration: the operation read encodes to the byte it was read from,
with its class (30_encoding.md R91, R92, R95, R102). -/
def Obligations.WireDecodeLosesNoBit : Prop :=
  ∀ (c : Cfg) (cls : WireClass) (bytes : List Byte) (i : Instr),
    decodeWire c cls bytes = .ok i → ∃ b, bytes = [b] ∧ encodeWire c i = some (cls, b)

/-- With the reference map, every wire operation whose value lies in its row's value field decodes from its own byte. A gain
byte is excluded where it reads as another command (30_encoding.md R102, 93_implementation_defined.md U16). The map is the
spec's general knowledge (log 2). -/
def Obligations.WireEncodeThenDecode : Prop :=
  ∀ (c : Cfg) (i : Instr) (cls : WireClass) (b : Byte),
    c.regmap = RegMap.reference → c.initvals = InitVals.reference → encodeWire c i = some (cls, b) →
    (match i with
      | .cmdGain v => v &&& 0x81 = 0 ∧ b ≠ 0xA1 ∧ b ≠ 0xEB ∧ b ≠ 0xA5 ∧ b ≠ 0xA7 ∧ b ≠ 0xAF ∧ b &&& 0xF0 ≠ 0xB0
      | .cmdDispen v => v &&& 0xFE = 0
      | .cmdInverse v => v &&& 0xFE = 0
      | .cmdAllon v => v &&& 0xFE = 0
      | .cmdOrient v => v &&& 0xF9 = 0
      | .cmdScroll v => v &&& 0xC0 = 0
      | _ => True) →
    decodeWire c cls [b] = .ok i

/-- Every well-formed host operation decodes from the line it is written as, whatever the configuration; a bitmap's array
under any name without a blank, comma or semicolon that stands for it (30_encoding.md R97, R100). -/
def Obligations.LineEncodeThenDecode : Prop :=
  ∀ (c : Cfg) (arrays : HostArrays) (name : List Byte) (i : Instr) (line : List Byte),
    i.wellFormed = true → encodeLine name i = some line →
    (∀ x y w h image, i = .bitmap x y w h image →
      HostArrays.find arrays name = some image ∧
      ∀ b ∈ name, b ≠ 0x20 ∧ b ≠ 0x09 ∧ b ≠ 0x2C ∧ b ≠ 0x3B) →
    decodeLine arrays c line = .ok i

/-- The pseudo-operations expand before execution (30_encoding.md R101; the spec's decisions D5, D27). -/
def Obligations.PseudoOperationsExpand : Prop :=
  ∀ (c : Cfg) (arrays : HostArrays),
    decodeLine arrays c (ascii ['F', 'L', 'U', 'S', 'H']) = .ok (.transfer 0 0 c.bufWidth c.bufHeight) ∧
    decodeLine arrays c (ascii ['D', 'I', 'S', 'P', 'L', 'A', 'Y', '_', 'O', 'F', 'F']) = .ok (.displayEnable 0) ∧
    decodeLine arrays c (ascii ['D', 'I', 'S', 'P', 'L', 'A', 'Y', '_', 'O', 'N']) =
      .ok (.displayEnable c.valDisplayOn)

/-- The step takes the operation at the head of the queue and executes it to completion: a decoded wire unit and an inner
operation as the Block's, a decoded line and a typed call as the Host's. There is no program counter to move (10_state.md
R32); the queue is the model's own (log 6). -/
def Obligations.StepRunsTheNextOperation : Prop :=
  ∀ (s : State) (rest : List Item) (i : Instr), s.fault = none → i.wellFormed = true →
    (∀ cls bytes, s.pending = .wire cls bytes :: rest → decodeWire s.cfg cls bytes = .ok i →
      step s = exec i { s with pending := rest, issuer := .block }) ∧
    (s.pending = .inner i :: rest → step s = exec i { s with pending := rest, issuer := .block }) ∧
    (∀ text, s.pending = .line text :: rest → decodeLine s.arrays s.cfg text = .ok i →
      step s = exec i { s with pending := rest, issuer := .host }) ∧
    (s.pending = .call i :: rest → step s = exec i { s with pending := rest, issuer := .host })

/-- Nothing runs after a fault (60_exceptions.md R250), and with no operation left the state is final (00_scope.md R9). That
the step answers the recorded fault, and the unchanged state, is the model's choice (logs 7, 8). -/
def Obligations.StepAtTheEndOfARun : Prop :=
  ∀ s : State,
    (∀ r, s.fault = some r → step s = .fault r) ∧
    (s.fault = none → s.pending = [] → step s = .next s)

/-- What does not decode, or decodes to an operation with an operand outside its type, is refused by name and nothing runs
(30_encoding.md R97, R99; that such an item stops the run is the model's choice, logs 13, 20, 21). -/
def Obligations.BadItemsAreRefused : Prop :=
  ∀ (s : State) (rest : List Item) (i : Instr) (why : Reject), s.fault = none →
    (∀ cls bytes, s.pending = .wire cls bytes :: rest → decodeWire s.cfg cls bytes = .error why →
      step s = .refused (.undecodable why)) ∧
    (∀ text, s.pending = .line text :: rest → decodeLine s.arrays s.cfg text = .error why →
      step s = .refused (if why = .internalOperation then .internalOp else .undecodable why)) ∧
    (s.pending = .call i :: rest ∨ s.pending = .inner i :: rest → i.wellFormed = false → step s = .refused .malformed)

/-! ### Refusals -/

/-- The operation refusals are exactly those of 60_exceptions.md R243, for every operation that is no wire byte: a height
above 248 in `TRANSFER`, `BITMAP` (or `STREAM` from the Block), and an internal operation issued by the Host; and
construction is refused with one of its three reasons when the parameters R242 does not check are those of 00_scope.md R10
(`Obligations.ConstructionRefusesBadParameters` says what happens when they are not). -/
def Obligations.OperationRefusals : Prop :=
  (∀ (i : Instr) (s : State) (r : Refusal), i.format ≠ .wire →
    (exec i s = .refused r ↔
      (r = .internalOp ∧ i.format = .internalOp ∧ s.issuer = .host) ∨
      (r = .hTooLarge ∧
        ((∃ x y w h, i = .transfer x y w h ∧ 248 < h) ∨ (∃ x y w h img, i = .bitmap x y w h img ∧ 248 < h) ∨
          (∃ x y w h src, i = .stream x y w h src ∧ 248 < h ∧ s.issuer = .block))))) ∧
  (∀ (q : CfgRequest) (r : Refusal), q.base.tRstLow < q.base.tRstRec → q.base.valDisplayOn = 0x01 →
    (∀ o p, q.base.orientCode.code o = q.base.orientCode.code p → o = p) → construct q = .error r →
    r = .badGeometry ∨ r = .badBuffer ∨ r = .badTransport)

/-- Every host operation completes in every state, for every argument, but for a height above 248 (30_encoding.md R98,
60_exceptions.md R247). A stream that raises a fault completes with the fault recorded (log 8). -/
def Obligations.EveryHostCallCompletes : Prop :=
  ∀ (i : Instr) (s : State), i.format = .hostOp →
    (∀ x y w h, i = .transfer x y w h → h ≤ 248) → (∀ x y w h img, i = .bitmap x y w h img → h ≤ 248) →
    ∃ t, exec i s = .next t

/-- The Host has no wire operation (30_encoding.md R96): refused, by the model's own name (log 10). -/
def Obligations.WireBytesAreTheBlocks : Prop :=
  ∀ (i : Instr) (s : State), i.format = .wire → s.issuer = .host → exec i s = .refused .wireUnit

/-! ### Transport -/

/-- `SEND_BYTE` in hardware mode: one event, no line touched (40_transport.md R120). -/
def Obligations.SendByteHardware : Prop :=
  ∀ (b : Byte) (s : State), s.issuer = .block → s.cfg.xport = .hw →
    exec (.sendByte b) s =
      .next { s with trace := s.trace ++ [.spiByte b], rx := s.rx.event s.cfg (.spiByte b) }

/-- `SEND_BYTE` in software mode: forty events, most significant bit first; SDA ends at bit 0, SCLK Low, and no other line
moves (40_transport.md R121; the spec's decision D10). -/
def Obligations.SendByteSoftware : Prop :=
  ∀ (b : Byte) (s : State) (clk dat : Nat), s.issuer = .block → s.cfg.xport = .sw clk dat →
    ∃ es : List Event,
      es = [7, 6, 5, 4, 3, 2, 1, 0].flatMap (fun k =>
        [.pinWrite .sda (if b.getLsbD k then .high else .low), .pinWrite .sclk .high, .delayUs s.cfg.tHalf,
         .pinWrite .sclk .low, .delayUs s.cfg.tHalf]) ∧
      es.length = 40 ∧
      exec (.sendByte b) s =
        .next
          { s with
            trace := s.trace ++ es
            rx := s.rx.events s.cfg es
            pin := { s.pin with sclk := .low, sda := if b.getLsbD 0 then .high else .low } }

/-! ### Framer -/

/-- `SEND_COMMAND`: CD Low, the byte selector OR value, CD High; CS untouched (41_framer.md R140). What becomes of the
controller registers is `Obligations.RegisterRecordFollowsCommands`, here and below. -/
def Obligations.SendCommandRuns : Prop :=
  ∀ (r : Reg) (v : Byte) (s : State), s.issuer = .block →
    ∃ d, exec (.sendCommand r v) s =
      .next
        { s.play ([.pinWrite .cd .low] ++ byteEvents s.cfg (s.cfg.regmap.sel r ||| v) ++ [.pinWrite .cd .high]) with
          devRegs := d }

/-- `SEND_DATA`: the byte unchanged, no line of its own driven, the mark when CD is not High (41_framer.md R141; the spec's
decision D15). -/
def Obligations.SendDataRuns : Prop :=
  ∀ (b : Byte) (s : State), s.issuer = .block →
    exec (.sendData b) s =
      .next
        { s.play (byteEvents s.cfg b) with
          marks := if s.pin.cd = .high then s.marks else { s.marks with dataCdNotHigh := true } }

/-- Between whole bytes, a byte sent while CS is Low is one frame of the class CD gives, in both modes, and the controller
takes it (40_transport.md R129, R130, R131, R133; the spec's decision D12). -/
def Obligations.SelectedByteIsOneFrame : Prop :=
  ∀ (b : Byte) (s t : State), s.issuer = .block → s.ReceiverAtRest → s.pin.cs = .low → exec (.sendByte b) s = .next t →
    t.rx.frames = s.rx.frames ++
      [match s.pin.cd with
        | .low => .cmd (some b)
        | .high => .data (some b)
        | .unknown => .unclassified (some b)] ∧
    t.rx.dev =
      (match s.pin.cd with
        | .low => s.rx.dev.command s.cfg.regmap b
        | .high => s.rx.dev.data s.cfg.width s.cfg.pages b
        | .unknown => Dev.unknown) ∧
    t.ReceiverAtRest

/-- With CS not Low the bytes of a framing call go out and the receiver ignores them (41_framer.md R142, which the spec
derives). -/
def Obligations.UnselectedBytesAreIgnored : Prop :=
  ∀ (s t : State) (i : Instr), s.issuer = .block → s.ReceiverAtRest → s.pin.cs ≠ .low →
    (∃ r v, i = .sendCommand r v) ∨ (∃ b, i = .sendData b) → exec i s = .next t →
    t.rx.frames = s.rx.frames ∧ t.rx.dev = s.rx.dev ∧ t.devRegs = s.devRegs ∧ s.trace.length < t.trace.length

/-- Both transport modes deliver the same frames to the controller, operation by operation (40_transport.md R123, which the
spec derives): from two states that differ only in the transport, an operation ends alike and leaves two such states. -/
def Obligations.TransportModesAgree : Prop :=
  ∀ (i : Instr) (s t : State) (clk dat : Nat), s.cfg.xport = .hw → t.cfg.xport = .sw clk dat → SameButTransport s t →
    s.ReceiverAtRest → t.ReceiverAtRest →
    (∀ r, exec i s = .refused r ↔ exec i t = .refused r) ∧
    (∀ s', exec i s = .next s' →
      ∃ t', exec i t = .next t' ∧ SameButTransport s' t' ∧ s'.ReceiverAtRest ∧ t'.ReceiverAtRest)

/-! ### Lifecycle -/

/-- `INIT_REGS`: one bracket, five registers in order, the delay, the gain twice, display on, normal orientation
(42_lifecycle.md R162; the spec's decisions D3, D5). -/
def Obligations.InitRegsRuns : Prop :=
  ∀ (vbias : Byte) (s : State), s.issuer = .block →
    ∃ d, exec (.initRegs vbias) s =
      .next
        { s.play
            ([.pinWrite .cs .low] ++ commandEvents s.cfg .tempcomp s.cfg.initvals.tempcomp ++
              commandEvents s.cfg .addrmode s.cfg.initvals.addrmode ++
              commandEvents s.cfg .framerate s.cfg.initvals.framerate ++
              commandEvents s.cfg .bias s.cfg.initvals.bias ++ commandEvents s.cfg .power s.cfg.initvals.power ++
              [.delayMs s.cfg.tInitStab] ++ commandEvents s.cfg .gain 0x00 ++ commandEvents s.cfg .gain vbias ++
              commandEvents s.cfg .dispen s.cfg.valDisplayOn ++
              commandEvents s.cfg .orient (s.cfg.orientCode.code .normal) ++ [.pinWrite .cs .high]) with
          devRegs := d }

/-- `BEGIN`: lines configured, transport set up, reset pulse, initialisation; READY in every case (42_lifecycle.md R161; the
spec's decisions D11, D18). -/
def Obligations.BeginRuns : Prop :=
  ∀ (vbias : Byte) (s : State),
    ∃ d, exec (.beginOp vbias) s =
      .next
        { s.play
            ([.pinConfig .cs, .pinConfig .cd, .pinConfig .rst] ++
              (match s.cfg.xport with
                | .hw => [.xportSetup .hw]
                | .sw _ _ =>
                  [.pinConfig .sclk, .pinConfig .sda, .xportSetup .sw, .pinWrite .sclk .low, .pinWrite .sda .low]) ++
              [.pinWrite .rst .low, .delayMs s.cfg.tRstLow, .pinWrite .rst .high, .delayMs s.cfg.tRstRec] ++
              initEvents s.cfg vbias) with
          pinsConfigured := true
          ctl := .ready
          devRegs := d }

/-- The frames of `BEGIN` are the nine of 42_lifecycle.md R173 (which the spec derives), from every state and in both modes;
the controller takes them from its reset state (20_memory.md R70). -/
def Obligations.BeginSendsNineFrames : Prop :=
  ∀ (vbias : Byte) (s : State), ∃ t, exec (.beginOp vbias) s = .next t ∧
    t.rx.frames = s.rx.frames ++ beginFrames s.cfg vbias ∧
    t.rx.dev = (beginFrames s.cfg vbias).foldl (Dev.frame s.cfg) Dev.afterReset ∧
    t.pin.cs = .high ∧ t.pin.cd = .high ∧ t.pin.rst = .high

/-- `RESET`: Low, settle delay, High, longer delay, nothing between them; RESETTING; the mark when the lines are not
configured (42_lifecycle.md R163, R164; the spec's decisions D15, D19, D28). -/
def Obligations.ResetRuns : Prop :=
  ∀ s : State,
    ∃ d, exec .reset s =
      .next
        { s.play [.pinWrite .rst .low, .delayMs s.cfg.tRstLow, .pinWrite .rst .high, .delayMs s.cfg.tRstRec] with
          ctl := .resetting
          devRegs := d
          marks := if s.pinsConfigured = false then { s.marks with preReady := true } else s.marks }

/-- What the reset pulse does to the controller and what `RESET` leaves alone (20_memory.md R70, 70_reset_and_hazards.md
R272; the spec's decisions D14, D19, D28): cursor at column 0 of page 0, RAM Unknown, log empty, no partial byte, no frame;
RST High; CS, CD, SCLK, SDA, the buffer, the fault and `pinsConfigured` as before, and no mark lost. -/
def Obligations.ResetClearsTheController : Prop :=
  ∀ s : State, ∃ t, exec .reset s = .next t ∧
    t.rx.dev.col = some 0 ∧ t.rx.dev.page = some 0 ∧ (∀ p c, t.rx.dev.readRam t.cfg.width p c = none) ∧
    t.rx.dev.cmdLog = some [] ∧ t.rx.count = 0 ∧ t.rx.shift = some 0 ∧ t.rx.frames = s.rx.frames ∧
    t.pin = { s.pin with rst := .high } ∧ t.ctl = .resetting ∧ t.buf = s.buf ∧ t.fault = s.fault ∧
    t.pinsConfigured = s.pinsConfigured ∧ ∀ k, s.marks.has k = true → t.marks.has k = true

/-- `DISPLAY_ENABLE`, `INVERT` and `ALL_ON` send their byte unchecked in a bracket of its own (42_lifecycle.md R168, R171,
R172; the spec's decision D5). -/
def Obligations.DisplayControlsRun : Prop :=
  ∀ (v : Byte) (s : State) (i : Instr) (r : Reg),
    (i = .displayEnable v ∧ r = .dispen) ∨ (i = .invert v ∧ r = .inverse) ∨ (i = .allOn v ∧ r = .allon) →
    ∃ d, exec i s =
      .next
        { s.play ([.pinWrite .cs .low] ++ commandEvents s.cfg r v ++ [.pinWrite .cs .high]) with
          marks := if s.ctl = .ready then s.marks else { s.marks with preReady := true }
          devRegs := d }

/-- `SCROLL` sends its value unchecked; above 64 it marks `SCROLL_RANGE` (42_lifecycle.md R169; the spec's decision D15). -/
def Obligations.ScrollRuns : Prop :=
  ∀ (v : Byte) (s : State),
    ∃ d, exec (.scroll v) s =
      .next
        { s.play ([.pinWrite .cs .low] ++ commandEvents s.cfg .scroll v ++ [.pinWrite .cs .high]) with
          marks :=
            { s.marks with
              preReady := s.marks.preReady || decide (s.ctl ≠ .ready)
              scrollRange := s.marks.scrollRange || decide (v.toNat > 64) }
          devRegs := d }

/-- `ORIENT` sends a recognised code itself and the normal code for anything else (42_lifecycle.md R170; the spec's decision
D4). -/
def Obligations.OrientRuns : Prop :=
  ∀ (v code : Byte) (s : State),
    (∃ o, v = s.cfg.orientCode.code o) ∧ code = v ∨
      (¬ ∃ o, v = s.cfg.orientCode.code o) ∧ code = s.cfg.orientCode.code .normal →
    ∃ d, exec (.orient v) s =
      .next
        { s.play ([.pinWrite .cs .low] ++ commandEvents s.cfg .orient code ++ [.pinWrite .cs .high]) with
          marks := if s.ctl = .ready then s.marks else { s.marks with preReady := true }
          devRegs := d }

/-- Every drawing and display-control operation marks `PRE_READY` when the controller is not READY, and only then; and the
mark stops nothing: the operation emits the events it would emit in READY (42_lifecycle.md R167; the spec's decision D15). -/
def Obligations.UnreadyOperationsAreMarked : Prop :=
  ∀ (i : Instr) (s t : State),
    (∃ v, i = .displayEnable v ∨ i = .scroll v ∨ i = .orient v ∨ i = .invert v ∨ i = .allOn v ∨ i = .fillPage v) ∨
      (∃ p d, i = .fillScreen p d) ∨ (∃ x y w h, i = .transfer x y w h) ∨ (∃ x y w h img, i = .bitmap x y w h img) →
    exec i s = .next t →
    t.marks.preReady = (s.marks.preReady || decide (s.ctl ≠ .ready)) ∧
    ∃ u, exec i { s with ctl := .ready } = .next u ∧ u.trace = t.trace ∧ u.rx = t.rx ∧ u.fault = t.fault

/-- The transitions of the controller state (10_state.md R37; the spec's decisions D18, D19): `BEGIN` ends READY, `RESET`
RESETTING, and no other operation writes it. -/
def Obligations.ControllerStateTransitions : Prop :=
  ∀ (i : Instr) (s t : State), exec i s = .next t →
    t.ctl =
      (match i with
        | .beginOp _ => .ready
        | .reset => .resetting
        | _ => s.ctl)

/-! ### Pixel buffer -/

/-- `SET_PIXEL` writes one bit of one byte and nothing else; outside the buffer it does nothing (43_pixel_buffer.md R190,
20_memory.md R61; the spec's decision D21): SET makes the bit 1, CLEAR 0, INVERT turns a known bit and leaves an Unknown
one Unknown. -/
def Obligations.SetPixelWritesOneBit : Prop :=
  ∀ (x y : Int) (mode : BlendMode) (s : State),
    if 0 ≤ x ∧ x < s.cfg.bufWidth ∧ 0 ≤ y ∧ y < s.cfg.bufHeight then
      ∃ t, exec (.setPixel x y mode) s = .next t ∧ t = { s with buf := t.buf } ∧
        (readBuf t (s.cfg.bufWidth * (y.toNat / 8) + x.toNat)).bit (y.toNat % 8) =
          (match mode with
            | .set => some true
            | .clear => some false
            | .invert =>
              ((readBuf s (s.cfg.bufWidth * (y.toNat / 8) + x.toNat)).bit (y.toNat % 8)).map (fun v => !v)) ∧
        (∀ k, k ≠ y.toNat % 8 →
          (readBuf t (s.cfg.bufWidth * (y.toNat / 8) + x.toNat)).bit k =
            (readBuf s (s.cfg.bufWidth * (y.toNat / 8) + x.toNat)).bit k) ∧
        (∀ j, j ≠ s.cfg.bufWidth * (y.toNat / 8) + x.toNat → readBuf t j = readBuf s j)
    else exec (.setPixel x y mode) s = .next s

/-- Two `INVERT` calls restore every bit of the buffer (43_pixel_buffer.md R193, which the spec derives). -/
def Obligations.InvertTwiceRestores : Prop :=
  ∀ (x y : Int) (s : State), ∃ t u, exec (.setPixel x y .invert) s = .next t ∧
    exec (.setPixel x y .invert) t = .next u ∧ ∀ j k, (readBuf u j).bit k = (readBuf s j).bit k

/-- `CLEAR_BUFFER` makes every byte of the buffer a known 0x00 and changes nothing else (43_pixel_buffer.md R191). -/
def Obligations.ClearBufferZeroes : Prop :=
  ∀ s : State, ∃ t, exec .clearBuffer s = .next t ∧ t = { s with buf := t.buf } ∧
    (∀ j, j < s.cfg.bufWidth * (s.cfg.bufHeight / 8) → readBuf t j = ⟨0x00, 0xFF⟩) ∧
    (∀ j, s.cfg.bufWidth * (s.cfg.bufHeight / 8) ≤ j → readBuf t j = readBuf s j)

/-- Only `SET_PIXEL` and `CLEAR_BUFFER` write the pixel buffer (10_state.md R42, 20_memory.md R60). -/
def Obligations.OnlyTwoOperationsWriteTheBuffer : Prop :=
  ∀ (i : Instr) (s t : State), exec i s = .next t →
    (∀ x y mode, i ≠ .setPixel x y mode) → i ≠ .clearBuffer → t.buf = s.buf

/-! ### Streamer -/

/-- A stream whose bytes are all there runs the acts of `streamActs` inside one bracket: for each band whose top row is on
the device its addressing triple, then its unclipped bytes from their source offsets; the page is that of the band's top row
(44_transfer.md R200, R201, R202, R205). `TRANSFER` reads the buffer, `BITMAP` its image, `STREAM` either, from the Block. -/
def Obligations.ReadableStreamRuns : Prop :=
  ∀ (x y : Int) (w h : Nat) (src : Source) (s : State) (i : Instr), h ≤ 248 →
    (i = .transfer x y w h ∧ src = .buffer) ∨ (∃ img, i = .bitmap x y w h img ∧ src = .array img) ∨
      (i = .stream x y w h src ∧ s.issuer = .block) →
    (∀ off, .byte off ∈ streamActs s.cfg x y w h → readable s src off) →
    ∃ d, exec i s =
      .next
        { s.play
            ([.pinWrite .cs .low] ++
              (streamActs s.cfg x y w h).flatMap (actEvents s.cfg x (sourceByte s src)) ++ [.pinWrite .cs .high]) with
          marks := if s.ctl = .ready then s.marks else { s.marks with preReady := true }
          devRegs := d }

/-- A stream stops at the first byte that is past its source (`SRC_OOB`, tested first) or has an Unknown bit (`SRC_UNINIT`):
the events before it are kept, CS stays Low, the sticky fault names the reason (44_transfer.md R206, 60_exceptions.md R241;
the spec's decisions D16, D21). That the operation answers a next state holding the fault is the model's choice (log 8). -/
def Obligations.UnreadableStreamFaults : Prop :=
  ∀ (x y : Int) (w h off : Nat) (src : Source) (s : State) (i : Instr) (before after : List StreamAct) (r : Fault),
    h ≤ 248 →
    (i = .transfer x y w h ∧ src = .buffer) ∨ (∃ img, i = .bitmap x y w h img ∧ src = .array img) ∨
      (i = .stream x y w h src ∧ s.issuer = .block) →
    streamActs s.cfg x y w h = before ++ .byte off :: after →
    (∀ o, .byte o ∈ before → readable s src o) →
    (match src with
      | .array img => img.length ≤ off ∧ r = .srcOob
      | .buffer =>
        (s.cfg.bufLen ≤ off ∧ r = .srcOob) ∨
          (off < s.cfg.bufLen ∧ (readBuf s off).defined = false ∧ r = .srcUninit)) →
    ∃ d, exec i s =
      .next
        { s.play ([.pinWrite .cs .low] ++ before.flatMap (actEvents s.cfg x (sourceByte s src))) with
          marks := if s.ctl = .ready then s.marks else { s.marks with preReady := true }
          devRegs := d
          fault := some r }

/-- A height above 248 is refused before any effect (44_transfer.md R209; the spec's decision D7). -/
def Obligations.TallStreamIsRefused : Prop :=
  ∀ (x y : Int) (w h : Nat) (src : Source) (img : List Byte) (s : State), 248 < h →
    exec (.transfer x y w h) s = .refused .hTooLarge ∧
    exec (.bitmap x y w h img) s = .refused .hTooLarge ∧
    (s.issuer = .block → exec (.stream x y w h src) s = .refused .hTooLarge)

/-- The frames of a stream, in both modes: three command frames for each written band, then one data frame for each
unclipped column, in order (44_transfer.md R210, R211, which the spec derives). -/
def Obligations.StreamSendsItsFrames : Prop :=
  ∀ (x y : Int) (w h : Nat) (s : State) (src : Source) (i : Instr), h ≤ 248 → s.ReceiverAtRest →
    (i = .transfer x y w h ∧ src = .buffer) ∨ (∃ img, i = .bitmap x y w h img ∧ src = .array img) ∨
      (i = .stream x y w h src ∧ s.issuer = .block) →
    (∀ off, .byte off ∈ streamActs s.cfg x y w h → readable s src off) →
    ∃ t, exec i s = .next t ∧
      t.rx.frames = s.rx.frames ++
        (writtenBands s.cfg y h).flatMap (fun ty : Nat =>
          tripleFrames s.cfg (max x 0).toNat ((y + ty) / 8).toNat ++
            (sentColumns s.cfg x w).map (fun tx : Nat => .data (some (sourceByte s src (w * (ty / 8) + tx))))) ∧
      t.pin.cs = .high ∧ t.ReceiverAtRest

/-- A rectangle wholly on the device, its image long enough, sends `ceil(h/8)` triples and `w * ceil(h/8)` data bytes
(44_transfer.md R212, which the spec derives; 90_conflicts.md C3). -/
def Obligations.InBoundsStreamCounts : Prop :=
  ∀ (x y : Int) (w h : Nat) (img : List Byte) (s : State), h ≤ 248 → s.ReceiverAtRest →
    0 ≤ x → x + w ≤ s.cfg.width → 0 ≤ y → y + h ≤ s.cfg.height → w * ((h + 7) / 8) ≤ img.length →
    ∃ t new, exec (.bitmap x y w h img) s = .next t ∧ t.fault = s.fault ∧ t.rx.frames = s.rx.frames ++ new ∧
      (new.filter fun f => match f with | .cmd _ => true | _ => false).length = 3 * ((h + 7) / 8) ∧
      (new.filter fun f => match f with | .data _ => true | _ => false).length = w * ((h + 7) / 8)

/-- `ADDR_TRIPLE`: column low nibble, column high nibble, page; CS untouched (44_transfer.md R203, 30_encoding.md R93). That
a page above 255 sends its low eight bits is the model's choice (log 23). -/
def Obligations.AddrTripleRuns : Prop :=
  ∀ (column page : Nat) (s : State), s.issuer = .block →
    ∃ d, exec (.addrTriple column page) s =
      .next
        { s.play
            (commandEvents s.cfg .colLo (BitVec.ofNat 8 (column % 16)) ++
              commandEvents s.cfg .colHi (BitVec.ofNat 8 (column / 16 % 16)) ++
              commandEvents s.cfg .page (BitVec.ofNat 8 page)) with
          devRegs := d }

/-! ### Fills -/

/-- `FILL_SCREEN`: one bracket, `W * (H / 8)` bytes, the delay after each, no addressing command (45_fill.md R230; the spec's
decision D22). -/
def Obligations.FillScreenRuns : Prop :=
  ∀ (pattern : Byte) (d : Nat) (s : State),
    exec (.fillScreen pattern d) s =
      .next
        { s.play
            ([.pinWrite .cs .low] ++
              (List.replicate (s.cfg.width * (s.cfg.height / 8)) (byteEvents s.cfg pattern ++ [.delayUs d])).flatten ++
              [.pinWrite .cs .high]) with
          marks :=
            { s.marks with
              preReady := s.marks.preReady || decide (s.ctl ≠ .ready)
              dataCdNotHigh :=
                s.marks.dataCdNotHigh || decide (s.pin.cd ≠ .high ∧ 0 < s.cfg.width * (s.cfg.height / 8)) } }

/-- `FILL_PAGE`: one bracket, `(W * (H / 8)) / 8` bytes, no delay (45_fill.md R231, 90_conflicts.md C1). -/
def Obligations.FillPageRuns : Prop :=
  ∀ (pattern : Byte) (s : State),
    exec (.fillPage pattern) s =
      .next
        { s.play
            ([.pinWrite .cs .low] ++
              (List.replicate (s.cfg.width * (s.cfg.height / 8) / 8) (byteEvents s.cfg pattern)).flatten ++
              [.pinWrite .cs .high]) with
          marks :=
            { s.marks with
              preReady := s.marks.preReady || decide (s.ctl ≠ .ready)
              dataCdNotHigh :=
                s.marks.dataCdNotHigh || decide (s.pin.cd ≠ .high ∧ 0 < s.cfg.width * (s.cfg.height / 8) / 8) } }

/-- From any cursor on the panel, `FILL_SCREEN` writes every RAM byte and ends with the cursor where it started (45_fill.md
R233, which the spec derives, on its decision D13). Controller content, so the state is determined (20_memory.md R71). -/
def Obligations.FillScreenCoversTheRam : Prop :=
  ∀ (pattern : Byte) (d col : Nat) (page : Nibble) (s : State), cfgOk s.cfg = true → s.determined → s.ctl = .ready →
    s.ReceiverAtRest → s.pin.cd = .high → s.rx.dev.col = some col → s.rx.dev.page = some page →
    col < s.cfg.width → page.toNat < s.cfg.pages →
    ∃ t, exec (.fillScreen pattern d) s = .next t ∧ t.determined ∧
      (∀ p c, p < s.cfg.pages → c < s.cfg.width → t.rx.dev.readRam s.cfg.width p c = some pattern) ∧
      t.rx.dev.col = some col ∧ t.rx.dev.page = some page

/-! ### Wire bytes and the controller -/

/-- Each register command byte crosses the channel as selector OR value with CD Low, the five initial registers with their
configured value (30_encoding.md R105 to R115). That a wire row runs as its command does is the model's choice (log 10). -/
def Obligations.RegisterCommandBytesRun : Prop :=
  ∀ (v : Byte) (s : State) (i : Instr) (r : Reg) (value : Byte), s.issuer = .block →
    (i = .cmdTempcomp ∧ r = .tempcomp ∧ value = s.cfg.initvals.tempcomp) ∨
      (i = .cmdAddrmode ∧ r = .addrmode ∧ value = s.cfg.initvals.addrmode) ∨
      (i = .cmdFramerate ∧ r = .framerate ∧ value = s.cfg.initvals.framerate) ∨
      (i = .cmdBias ∧ r = .bias ∧ value = s.cfg.initvals.bias) ∨
      (i = .cmdPower ∧ r = .power ∧ value = s.cfg.initvals.power) ∨
      (i = .cmdGain v ∧ r = .gain ∧ value = v) ∨ (i = .cmdDispen v ∧ r = .dispen ∧ value = v) ∨
      (i = .cmdOrient v ∧ r = .orient ∧ value = v) ∨ (i = .cmdScroll v ∧ r = .scroll ∧ value = v) ∨
      (i = .cmdInverse v ∧ r = .inverse ∧ value = v) ∨ (i = .cmdAllon v ∧ r = .allon ∧ value = v) →
    encodeWire s.cfg i = some (.command, s.cfg.regmap.sel r ||| value) ∧
    ∃ d, exec i s =
      .next
        { s.play ([.pinWrite .cd .low] ++ byteEvents s.cfg (s.cfg.regmap.sel r ||| value) ++ [.pinWrite .cd .high]) with
          devRegs := d }

/-- The addressing command bytes and the data byte on the channel (30_encoding.md R104, R116, R117, R118). That a wire row
runs as its command does is the model's choice (log 10). -/
def Obligations.AddressingAndDataBytesRun : Prop :=
  ∀ (n : Nibble) (b : Byte) (s : State), s.issuer = .block →
    (∀ i r, (i = .cmdColLo n ∧ r = .colLo) ∨ (i = .cmdColHi n ∧ r = .colHi) ∨ (i = .cmdPage n ∧ r = .page) →
      ∃ d, exec i s =
        .next
          { s.play
              ([.pinWrite .cd .low] ++ byteEvents s.cfg (s.cfg.regmap.sel r ||| n.setWidth 8) ++
                [.pinWrite .cd .high]) with
            devRegs := d }) ∧
    exec (.data b) s =
      .next
        { s.play (byteEvents s.cfg b) with
          marks := if s.pin.cd = .high then s.marks else { s.marks with dataCdNotHigh := true } }

/-- A command byte received is decoded by its upper four bits: the low or high half of the column, the page, or else the
command log (20_memory.md R67; the spec's decision D13). -/
def Obligations.CommandFramesAreDecoded : Prop :=
  ∀ (r : Reg) (v : Byte) (s : State), s.issuer = .block → s.ReceiverAtRest → s.pin.cs = .low →
    ∃ t, exec (.sendCommand r v) s = .next t ∧
      (if (s.cfg.regmap.sel r ||| v) &&& 0xF0 = s.cfg.regmap.colLo then
        t.rx.dev = { s.rx.dev with colLo := some ((s.cfg.regmap.sel r ||| v).extractLsb' 0 4) }
      else if (s.cfg.regmap.sel r ||| v) &&& 0xF0 = s.cfg.regmap.colHi then
        t.rx.dev = { s.rx.dev with colHi := some ((s.cfg.regmap.sel r ||| v).extractLsb' 0 4) }
      else if (s.cfg.regmap.sel r ||| v) &&& 0xF0 = s.cfg.regmap.page then
        t.rx.dev = { s.rx.dev with page := some ((s.cfg.regmap.sel r ||| v).extractLsb' 0 4) }
      else
        t.rx.dev =
          { s.rx.dev with cmdLog := s.rx.dev.cmdLog.map (fun log => log ++ [s.cfg.regmap.sel r ||| v]) })

/-- An addressing byte received moves its part of the cursor and nothing else of the controller, when the selectors are
those the reference receiver needs (20_memory.md R67, 92_eei_decisions.md D2, D13). That a wire row runs as its command does
is the model's choice (log 10). -/
def Obligations.AddressingBytesMoveTheCursor : Prop :=
  ∀ (n : Nibble) (s : State), s.issuer = .block → s.ReceiverAtRest → s.pin.cs = .low →
    addressable s.cfg.regmap = true →
    (∃ t, exec (.cmdColLo n) s = .next t ∧ t.rx.dev = { s.rx.dev with colLo := some n }) ∧
    (∃ t, exec (.cmdColHi n) s = .next t ∧ t.rx.dev = { s.rx.dev with colHi := some n }) ∧
    (∃ t, exec (.cmdPage n) s = .next t ∧ t.rx.dev = { s.rx.dev with page := some n })

/-- A data byte received is stored unchanged at the cursor when the cursor is known and on the panel, and nowhere else, and
the cursor advances: to the next column, or past the last column to column 0 of the next page, or of page 0 after the last;
an unknown column does not move (20_memory.md R68, R69; the spec's decision D13). Pixel by pixel: bit k of the byte is the
pixel of row 8p + k (R66). -/
def Obligations.DataByteIsStoredAndAdvances : Prop :=
  ∀ (b : Byte) (s : State), s.issuer = .block → s.ReceiverAtRest → cfgOk s.cfg = true →
    s.pin.cs = .low → s.pin.cd = .high →
    ∃ t, exec (.sendData b) s = .next t ∧
      (∀ p c, c < s.cfg.width →
        t.rx.dev.readRam s.cfg.width p c =
          if s.rx.dev.col = some c ∧ s.rx.dev.page.map (fun q => q.toNat) = some p ∧ p < s.cfg.pages then some b
          else s.rx.dev.readRam s.cfg.width p c) ∧
      (∀ p k c, k < 8 → c < s.cfg.width →
        t.rx.dev.pixel s.cfg.width (8 * p + k) c =
          if s.rx.dev.col = some c ∧ s.rx.dev.page.map (fun q => q.toNat) = some p ∧ p < s.cfg.pages then some (b.getLsbD k)
          else s.rx.dev.pixel s.cfg.width (8 * p + k) c) ∧
      t.rx.dev.cmdLog = s.rx.dev.cmdLog ∧
      (match s.rx.dev.col with
        | none => t.rx.dev = s.rx.dev
        | some c =>
          t.rx.dev.col = some (if s.cfg.width ≤ c + 1 then 0 else c + 1) ∧
          t.rx.dev.page.map (fun q => q.toNat) =
            s.rx.dev.page.map (fun q => if s.cfg.width ≤ c + 1 then (q.toNat + 1) % s.cfg.pages else q.toNat))

/-- A byte received before CD is driven is unclassified and makes everything of the controller Unknown (40_transport.md R131,
R133; the spec's decisions D12, D13). -/
def Obligations.UnclassifiedByteUndoesTheController : Prop :=
  ∀ (b : Byte) (s : State), s.issuer = .block → s.ReceiverAtRest → s.pin.cs = .low → s.pin.cd = .unknown →
    ∃ t, exec (.sendData b) s = .next t ∧ t.rx.frames = s.rx.frames ++ [.unclassified (some b)] ∧
      t.rx.dev.col = none ∧ t.rx.dev.page = none ∧ t.rx.dev.cmdLog = none ∧
      (∀ p c, t.rx.dev.readRam s.cfg.width p c = none) ∧ t.marks.dataCdNotHigh = true

/-- What each operation does to the 14 controller registers (10_state.md R44). That a register holds the value byte sent to it
while CS is Low is the model's choice (log 18); a reset pulse puts all in their reset state (70_reset_and_hazards.md R274), of
which the spec gives no value and this statement none: a free value each (log 32). `ORIENT` leaves the code it sends
(42_lifecycle.md R170). A stream leaves its triples, those before the first byte it cannot read when there is one
(44_transfer.md R206). -/
def Obligations.RegisterRecordFollowsCommands : Prop :=
  ∀ (i : Instr) (s t : State), exec i s = .next t →
    match i with
    | .beginOp v => t.devRegs = initDevRegs s.cfg v (DevRegs.ofFn Config.regAfterReset)
    | .initRegs v => t.devRegs = initDevRegs s.cfg v s.devRegs
    | .reset => ∀ r, t.devRegs.get r = Config.regAfterReset r
    | .displayEnable v => t.devRegs = s.devRegs.set .dispen v
    | .scroll v => t.devRegs = s.devRegs.set .scroll v
    | .invert v => t.devRegs = s.devRegs.set .inverse v
    | .allOn v => t.devRegs = s.devRegs.set .allon v
    | .orient v =>
      ((∃ o, v = s.cfg.orientCode.code o) → t.devRegs = s.devRegs.set .orient v) ∧
      ((¬ ∃ o, v = s.cfg.orientCode.code o) → t.devRegs = s.devRegs.set .orient (s.cfg.orientCode.code .normal))
    | .transfer x y w h => StreamRecorded x (streamActs s.cfg x y w h) .buffer s t
    | .bitmap x y w h img => StreamRecorded x (streamActs s.cfg x y w h) (.array img) s t
    | .stream x y w h src => StreamRecorded x (streamActs s.cfg x y w h) src s t
    | .addrTriple column page =>
      t.devRegs = if s.pin.cs = .low then [StreamAct.triple page].foldl (actRegs column) s.devRegs else s.devRegs
    | .sendCommand r v => t.devRegs = if s.pin.cs = .low then s.devRegs.set r v else s.devRegs
    | _ =>
      match i.command s.cfg with
      | some (r, v) => t.devRegs = if s.pin.cs = .low then s.devRegs.set r v else s.devRegs
      | none => t.devRegs = s.devRegs

/-! ### Invariants of every step -/

/-- Every step keeps both memories in canonical form, in a configuration that construction can yield: the pixel buffer within
its length and the controller RAM within the panel (20_memory.md R60, R74; the form is the model's own, log 14). -/
def Obligations.StepKeepsMemoryCanonical : Prop :=
  ∀ s t : State, cfgOk s.cfg = true → s.memWf = true → step s = .next t → cfgOk t.cfg = true ∧ t.memWf = true

/-- Every step keeps the receiver the fold of the trace, with the lines at the levels it has seen and no partial byte
(10_state.md R45, R46, 40_transport.md R132; the receiver is kept in the state, log 5). -/
def Obligations.StepKeepsReceiverTheFold : Prop :=
  ∀ s t : State, s.LinesAtRest → s.ReceiverFollows → step s = .next t → t.ReceiverFollows

/-- Every step leaves the lines at rest: CD never Low, CS not Low without a fault, SCLK not High in software mode, the serial
lines undriven in hardware mode (10_state.md R34, R48, 40_transport.md R124, partly derived by the spec). -/
def Obligations.StepKeepsLinesAtRest : Prop :=
  ∀ s t : State, s.LinesAtRest → step s = .next t → t.LinesAtRest

/-- All of it holds of whatever construction yields (70_reset_and_hazards.md R270, R271), a configuration that meets 00_scope.md
R10; every controller register holds the free value that R271 leaves unspecified (log 32), and the model's own named arrays,
queue and issuer are empty (and Host) (log 6). And all of it holds at reset, which is construction with the reference configuration (the model's choice, logs 1, 2, 3). -/
def Obligations.ConstructedMachineIsAtRest : Prop :=
  (∀ (q : CfgRequest) (s : State), construct q = .ok s →
    cfgOk s.cfg = true ∧ parametersOk s.cfg = true ∧ s.Inv ∧ (∀ r, s.devRegs.get r = Config.regAtConstruction r) ∧
      s.arrays = [] ∧ s.pending = [] ∧ s.issuer = .host) ∧
  cfgOk State.reset.cfg = true ∧ parametersOk State.reset.cfg = true ∧ State.reset.Inv ∧
  construct ⟨Cfg.reference, none, none⟩ = .ok State.reset

/-- A bracketed operation that raises no fault ends with CS High, and no operation but a faulting one takes CS from High
(10_state.md R48, 41_framer.md R145, R146). -/
def Obligations.BracketsReleaseChipSelect : Prop :=
  ∀ (i : Instr) (s t : State), exec i s = .next t → s.fault = none → t.fault = none →
    (((∃ v, i = .beginOp v ∨ i = .initRegs v ∨ i = .displayEnable v ∨ i = .scroll v ∨ i = .orient v ∨ i = .invert v ∨
          i = .allOn v ∨ i = .fillPage v) ∨ (∃ p d, i = .fillScreen p d) ∨ (∃ x y w h, i = .transfer x y w h) ∨
        (∃ x y w h img, i = .bitmap x y w h img) ∨ (∃ x y w h src, i = .stream x y w h src)) → t.pin.cs = .high) ∧
    (s.pin.cs = .high → t.pin.cs = .high)

/-- No step changes the configuration (10_state.md R30). -/
def Obligations.ConfigurationNeverChanges : Prop :=
  ∀ s t : State, step s = .next t → t.cfg = s.cfg

/-- Marks and the fault are sticky: no operation removes a mark, clears the fault, or takes an event out of the trace
(10_state.md R38, R39, R41). -/
def Obligations.RecordsOnlyGrow : Prop :=
  ∀ (i : Instr) (s t : State), exec i s = .next t →
    (∀ k, s.marks.has k = true → t.marks.has k = true) ∧
    (s.fault ≠ none → t.fault ≠ none) ∧
    ∃ es, t.trace = s.trace ++ es

/-- In hardware mode no operation writes SCLK or SDA (10_state.md R34). -/
def Obligations.HardwareModeLeavesSerialLines : Prop :=
  ∀ (i : Instr) (s t : State), s.cfg.xport = .hw → exec i s = .next t →
    t.pin.sclk = s.pin.sclk ∧ t.pin.sda = s.pin.sda

/-- The wait events of each host operation, in both modes (70_reset_and_hazards.md R279, which the spec derives). -/
def Obligations.WaitEventCounts : Prop :=
  ∀ (i : Instr) (s t : State) (es : List Event), exec i s = .next t → t.trace = s.trace ++ es → t.fault = none →
    let half := match s.cfg.xport with | .hw => 0 | .sw _ _ => 16
    let ms := (es.filter fun e => match e with | .delayMs _ => true | _ => false).length
    let us := (es.filter fun e => match e with | .delayUs _ => true | _ => false).length
    match i with
    | .beginOp _ => ms = 3 ∧ us = half * 9
    | .reset => ms = 2 ∧ us = 0
    | .displayEnable _ | .scroll _ | .orient _ | .invert _ | .allOn _ => ms = 0 ∧ us = half
    | .transfer x y w h | .bitmap x y w h _ =>
      ms = 0 ∧
        us = half * (3 * (writtenBands s.cfg y h).length +
          (writtenBands s.cfg y h).length * (sentColumns s.cfg x w).length)
    | .fillScreen _ _ => ms = 0 ∧ us = (half + 1) * (s.cfg.width * (s.cfg.height / 8))
    | .fillPage _ => ms = 0 ∧ us = half * (s.cfg.width * (s.cfg.height / 8) / 8)
    | .setPixel _ _ _ | .clearBuffer => ms = 0 ∧ us = 0
    | _ => True

/-! ### Construction -/

/-- Construction checks the geometry, then the buffer, then the transport, and the first failing check names the refusal;
otherwise, its other parameters being those of 00_scope.md R10, it yields the state of 70_reset_and_hazards.md R271 with the
transport the two identifiers select (60_exceptions.md R242, 70_reset_and_hazards.md R270, 10_state.md R33; the spec's
decisions D5, D8, D20, D21). -/
def Obligations.ConstructionChecksInOrder : Prop :=
  ∀ (q : CfgRequest),
    let c := q.base
    let geometry := c.height % 8 = 0 ∧ 1 ≤ c.width ∧ c.width ≤ 256 ∧ 8 ≤ c.height ∧ c.height ≤ 128
    let buffer :=
      c.bufWidth ≤ c.width ∧ c.bufHeight ≤ c.height ∧ c.bufHeight % 8 = 0 ∧ c.bufWidth ≤ 255 ∧ c.bufHeight ≤ 248
    let parameters :=
      c.tRstLow < c.tRstRec ∧ c.valDisplayOn = 0x01 ∧ ∀ o p, c.orientCode.code o = c.orientCode.code p → o = p
    (¬ geometry → construct q = .error .badGeometry) ∧
    (geometry → ¬ buffer → construct q = .error .badBuffer) ∧
    (geometry → buffer → q.clkPin.isSome ≠ q.dataPin.isSome → construct q = .error .badTransport) ∧
    (geometry → buffer → parameters → q.clkPin = none → q.dataPin = none →
      construct q = .ok (State.initial { c with xport := .hw })) ∧
    (∀ clk dat, geometry → buffer → parameters → q.clkPin = some clk → q.dataPin = some dat →
      construct q = .ok (State.initial { c with xport := .sw clk dat }))

/-- Construction refuses a configuration whose other parameters violate 00_scope.md R10 (30_encoding.md R98): a recovery delay
not longer than the settle delay, `VAL_DISPLAY_ON` other than 0x01, two equal orientation codes. The reason's name and that
it is checked last are the model's choice (log 24). -/
def Obligations.ConstructionRefusesBadParameters : Prop :=
  ∀ (q : CfgRequest),
    construct q = .error .badParameter ↔
      cfgOk q.base = true ∧ q.clkPin.isSome = q.dataPin.isSome ∧
        (q.base.tRstRec ≤ q.base.tRstLow ∨ q.base.valDisplayOn ≠ 0x01 ∨
          ∃ o p, o ≠ p ∧ q.base.orientCode.code o = q.base.orientCode.code p)

/-- Every field R271 gives a value after construction (70_reset_and_hazards.md R271, 10_state.md R47; the spec's decisions D11
to D16, D21). The controller registers, which R271 leaves unspecified, and the model's own fields are in
`Obligations.ConstructedMachineIsAtRest`. -/
def Obligations.StateAfterConstruction : Prop :=
  ∀ c : Cfg,
    let s := State.initial c
    s.cfg = c ∧ (∀ l, s.pin.get l = .unknown) ∧ s.pinsConfigured = false ∧ s.ctl = .uninitialized ∧
    (∀ k, s.marks.has k = false) ∧ s.fault = none ∧ s.trace = [] ∧ (∀ i k, (readBuf s i).bit k = none) ∧
    (∀ l, s.rx.lv.get l = .unknown) ∧ s.rx.shift = some 0 ∧ s.rx.count = 0 ∧ s.rx.frames = [] ∧
    s.rx.dev.col = none ∧ s.rx.dev.page = none ∧ (∀ p k, s.rx.dev.readRam c.width p k = none) ∧
    s.rx.dev.cmdLog = some []
end

