-- ==== Sys2Proof/Laws/Decode.lean ====
section
/-! SUPPORT. What the wire decoder's table search can answer, in which order it tries the rows, and how a byte splits at a mask. -/

namespace Sys2Proof

/-- A match comes from a row of the table, applied to the byte's value field (30_encoding.md R102). -/
theorem matchRows_some {rows : List WireRow} {b : Byte} {i : Instr} (h : matchRows rows b = some i) :
    ∃ r ∈ rows, b &&& r.mask = r.pattern ∧ i = r.build (b &&& ~~~r.mask) := by
  induction rows with
  | nil => cases h
  | cons r rest ih =>
    simp only [matchRows] at h
    split at h
    · rename_i hm
      exact ⟨r, by simp, hm, (Option.some.inj h).symm⟩
    · obtain ⟨q, hq, hm⟩ := ih h
      exact ⟨q, by simp [hq], hm⟩

/-- Sorting keeps the rows. -/
theorem mem_insertRow {r q : WireRow} {rows : List WireRow} : q ∈ insertRow r rows ↔ q = r ∨ q ∈ rows := by
  induction rows with
  | nil => simp [insertRow]
  | cons p rest ih =>
    simp only [insertRow]
    split <;> simp [ih, or_left_comm]

theorem mem_foldr_insertRow {q : WireRow} {rows : List WireRow} : q ∈ rows.foldr insertRow [] ↔ q ∈ rows := by
  induction rows with
  | nil => rfl
  | cons r rest ih => simp [mem_insertRow, ih]

/-- The decoder's rows are the opcode table's (30_encoding.md R102). -/
theorem mem_wireRows {c : Cfg} {q : WireRow} : q ∈ wireRows c ↔ q ∈ commandRows c := mem_foldr_insertRow

theorem sorted_insertRow {r : WireRow} {rows : List WireRow}
    (h : rows.Pairwise fun p q => maskBits q.mask ≤ maskBits p.mask) :
    (insertRow r rows).Pairwise fun p q => maskBits q.mask ≤ maskBits p.mask := by
  induction rows with
  | nil => simp [insertRow]
  | cons p rest ih =>
    obtain ⟨hp, hrest⟩ := List.pairwise_cons.1 h
    simp only [insertRow]
    split
    · rename_i hle
      refine List.pairwise_cons.2 ⟨fun q hq => ?_, h⟩
      rcases List.mem_cons.1 hq with rfl | hq
      · exact hle
      · exact (hp q hq).trans hle
    · rename_i hlt
      refine List.pairwise_cons.2 ⟨fun q hq => ?_, ih hrest⟩
      rcases mem_insertRow.1 hq with rfl | hq
      · omega
      · exact hp q hq

/-- Rows with more mask bits come first, in every configuration (30_encoding.md R102). -/
theorem wireRows_sorted (c : Cfg) : (wireRows c).Pairwise fun p q => maskBits q.mask ≤ maskBits p.mask := by
  unfold wireRows
  induction commandRows c with
  | nil => exact .nil
  | cons r rest ih => exact sorted_insertRow ih

/-- The row a command byte decodes by has the most mask bits of all rows it matches (30_encoding.md R102). -/
theorem matchRows_most_mask_bits {rows : List WireRow} {b : Byte} {i : Instr}
    (hs : rows.Pairwise fun p q => maskBits q.mask ≤ maskBits p.mask) (h : matchRows rows b = some i) :
    ∃ r ∈ rows, b &&& r.mask = r.pattern ∧ i = r.build (b &&& ~~~r.mask) ∧
      ∀ q ∈ rows, b &&& q.mask = q.pattern → maskBits q.mask ≤ maskBits r.mask := by
  induction rows with
  | nil => cases h
  | cons r rest ih =>
    obtain ⟨hr, hrest⟩ := List.pairwise_cons.1 hs
    simp only [matchRows] at h
    split at h
    · rename_i hm
      refine ⟨r, by simp, hm, (Option.some.inj h).symm, fun q hq _ => ?_⟩
      rcases List.mem_cons.1 hq with rfl | hq
      · exact le_rfl
      · exact hr q hq
    · rename_i hm
      obtain ⟨p, hp, hpm, hpi, hmax⟩ := ih hrest h
      refine ⟨p, by simp [hp], hpm, hpi, fun q hq hqm => ?_⟩
      rcases List.mem_cons.1 hq with rfl | hq
      · exact absurd hqm hm
      · exact hmax q hq hqm

/-- A byte is its masked part OR the rest (30_encoding.md R91). -/
theorem and_or_and_not (b m : Byte) : (b &&& m) ||| (b &&& ~~~m) = b := by
  apply BitVec.eq_of_getLsbD_eq
  intro i hi
  simp only [BitVec.getLsbD_or, BitVec.getLsbD_and, BitVec.getLsbD_not, hi]
  cases b.getLsbD i <;> cases m.getLsbD i <;> rfl

/-- A nibble field is the value field it was read from. -/
theorem lowNibble_field (b : Byte) : (lowNibble (b &&& ~~~(0xF0 : Byte))).setWidth 8 = b &&& ~~~(0xF0 : Byte) := by
  revert b; decide +kernel

end Sys2Proof
end

