-- ==== Sys2Proof/Laws/State.lean ====
section
/-! SUPPORT. What each record update does to each field of the state, true by unfolding, so that no later proof unfolds an
update. -/

namespace Sys2Proof.Machine

/-! ### `emit` -/

@[simp] theorem emit_cfg (e : Event) (s : State) : (emit e s).cfg = s.cfg := rfl
@[simp] theorem emit_pin (e : Event) (s : State) : (emit e s).pin = s.pin := rfl
@[simp] theorem emit_pinsConfigured (e : Event) (s : State) : (emit e s).pinsConfigured = s.pinsConfigured := rfl
@[simp] theorem emit_ctl (e : Event) (s : State) : (emit e s).ctl = s.ctl := rfl
@[simp] theorem emit_marks (e : Event) (s : State) : (emit e s).marks = s.marks := rfl
@[simp] theorem emit_fault (e : Event) (s : State) : (emit e s).fault = s.fault := rfl
@[simp] theorem emit_trace (e : Event) (s : State) : (emit e s).trace = s.trace ++ [e] := rfl
@[simp] theorem emit_buf (e : Event) (s : State) : (emit e s).buf = s.buf := rfl
@[simp] theorem emit_rx (e : Event) (s : State) : (emit e s).rx = s.rx.event s.cfg e := rfl
@[simp] theorem emit_devRegs (e : Event) (s : State) : (emit e s).devRegs = s.devRegs := rfl
@[simp] theorem emit_arrays (e : Event) (s : State) : (emit e s).arrays = s.arrays := rfl
@[simp] theorem emit_pending (e : Event) (s : State) : (emit e s).pending = s.pending := rfl
@[simp] theorem emit_issuer (e : Event) (s : State) : (emit e s).issuer = s.issuer := rfl

/-! ### `drive` -/

@[simp] theorem drive_cfg (p : Line) (v : Level) (s : State) : (drive p v s).cfg = s.cfg := rfl
@[simp] theorem drive_pin (p : Line) (v : Level) (s : State) : (drive p v s).pin = s.pin.set p v := rfl
@[simp] theorem drive_pinsConfigured (p : Line) (v : Level) (s : State) : (drive p v s).pinsConfigured = s.pinsConfigured := rfl
@[simp] theorem drive_ctl (p : Line) (v : Level) (s : State) : (drive p v s).ctl = s.ctl := rfl
@[simp] theorem drive_marks (p : Line) (v : Level) (s : State) : (drive p v s).marks = s.marks := rfl
@[simp] theorem drive_fault (p : Line) (v : Level) (s : State) : (drive p v s).fault = s.fault := rfl
@[simp] theorem drive_trace (p : Line) (v : Level) (s : State) : (drive p v s).trace = s.trace ++ [.pinWrite p v] := rfl
@[simp] theorem drive_buf (p : Line) (v : Level) (s : State) : (drive p v s).buf = s.buf := rfl
@[simp] theorem drive_rx (p : Line) (v : Level) (s : State) : (drive p v s).rx = s.rx.event s.cfg (.pinWrite p v) := rfl
@[simp] theorem drive_devRegs (p : Line) (v : Level) (s : State) : (drive p v s).devRegs = s.devRegs := rfl
@[simp] theorem drive_arrays (p : Line) (v : Level) (s : State) : (drive p v s).arrays = s.arrays := rfl
@[simp] theorem drive_pending (p : Line) (v : Level) (s : State) : (drive p v s).pending = s.pending := rfl
@[simp] theorem drive_issuer (p : Line) (v : Level) (s : State) : (drive p v s).issuer = s.issuer := rfl

/-! ### `markIf` -/

@[simp] theorem markIf_cfg (c : Bool) (k : Mark) (s : State) : (markIf c k s).cfg = s.cfg := rfl
@[simp] theorem markIf_pin (c : Bool) (k : Mark) (s : State) : (markIf c k s).pin = s.pin := rfl
@[simp] theorem markIf_pinsConfigured (c : Bool) (k : Mark) (s : State) : (markIf c k s).pinsConfigured = s.pinsConfigured := rfl
@[simp] theorem markIf_ctl (c : Bool) (k : Mark) (s : State) : (markIf c k s).ctl = s.ctl := rfl
@[simp] theorem markIf_marks (c : Bool) (k : Mark) (s : State) : (markIf c k s).marks = if c then s.marks.add k else s.marks := rfl
@[simp] theorem markIf_fault (c : Bool) (k : Mark) (s : State) : (markIf c k s).fault = s.fault := rfl
@[simp] theorem markIf_trace (c : Bool) (k : Mark) (s : State) : (markIf c k s).trace = s.trace := rfl
@[simp] theorem markIf_buf (c : Bool) (k : Mark) (s : State) : (markIf c k s).buf = s.buf := rfl
@[simp] theorem markIf_rx (c : Bool) (k : Mark) (s : State) : (markIf c k s).rx = s.rx := rfl
@[simp] theorem markIf_devRegs (c : Bool) (k : Mark) (s : State) : (markIf c k s).devRegs = s.devRegs := rfl
@[simp] theorem markIf_arrays (c : Bool) (k : Mark) (s : State) : (markIf c k s).arrays = s.arrays := rfl
@[simp] theorem markIf_pending (c : Bool) (k : Mark) (s : State) : (markIf c k s).pending = s.pending := rfl
@[simp] theorem markIf_issuer (c : Bool) (k : Mark) (s : State) : (markIf c k s).issuer = s.issuer := rfl

/-! ### `raiseFault` -/

@[simp] theorem raiseFault_cfg (r : Fault) (s : State) : (raiseFault r s).cfg = s.cfg := rfl
@[simp] theorem raiseFault_pin (r : Fault) (s : State) : (raiseFault r s).pin = s.pin := rfl
@[simp] theorem raiseFault_pinsConfigured (r : Fault) (s : State) : (raiseFault r s).pinsConfigured = s.pinsConfigured := rfl
@[simp] theorem raiseFault_ctl (r : Fault) (s : State) : (raiseFault r s).ctl = s.ctl := rfl
@[simp] theorem raiseFault_marks (r : Fault) (s : State) : (raiseFault r s).marks = s.marks := rfl
@[simp] theorem raiseFault_fault (r : Fault) (s : State) : (raiseFault r s).fault = some r := rfl
@[simp] theorem raiseFault_trace (r : Fault) (s : State) : (raiseFault r s).trace = s.trace := rfl
@[simp] theorem raiseFault_buf (r : Fault) (s : State) : (raiseFault r s).buf = s.buf := rfl
@[simp] theorem raiseFault_rx (r : Fault) (s : State) : (raiseFault r s).rx = s.rx := rfl
@[simp] theorem raiseFault_devRegs (r : Fault) (s : State) : (raiseFault r s).devRegs = s.devRegs := rfl
@[simp] theorem raiseFault_arrays (r : Fault) (s : State) : (raiseFault r s).arrays = s.arrays := rfl
@[simp] theorem raiseFault_pending (r : Fault) (s : State) : (raiseFault r s).pending = s.pending := rfl
@[simp] theorem raiseFault_issuer (r : Fault) (s : State) : (raiseFault r s).issuer = s.issuer := rfl

/-! ### `writeBuf` -/

@[simp] theorem writeBuf_cfg (i : Nat) (t : TByte) (s : State) : (writeBuf i t s).cfg = s.cfg := rfl
@[simp] theorem writeBuf_pin (i : Nat) (t : TByte) (s : State) : (writeBuf i t s).pin = s.pin := rfl
@[simp] theorem writeBuf_pinsConfigured (i : Nat) (t : TByte) (s : State) : (writeBuf i t s).pinsConfigured = s.pinsConfigured := rfl
@[simp] theorem writeBuf_ctl (i : Nat) (t : TByte) (s : State) : (writeBuf i t s).ctl = s.ctl := rfl
@[simp] theorem writeBuf_marks (i : Nat) (t : TByte) (s : State) : (writeBuf i t s).marks = s.marks := rfl
@[simp] theorem writeBuf_fault (i : Nat) (t : TByte) (s : State) : (writeBuf i t s).fault = s.fault := rfl
@[simp] theorem writeBuf_trace (i : Nat) (t : TByte) (s : State) : (writeBuf i t s).trace = s.trace := rfl
@[simp] theorem writeBuf_buf (i : Nat) (t : TByte) (s : State) : (writeBuf i t s).buf = bufWrite s.buf i t := rfl
@[simp] theorem writeBuf_rx (i : Nat) (t : TByte) (s : State) : (writeBuf i t s).rx = s.rx := rfl
@[simp] theorem writeBuf_devRegs (i : Nat) (t : TByte) (s : State) : (writeBuf i t s).devRegs = s.devRegs := rfl
@[simp] theorem writeBuf_arrays (i : Nat) (t : TByte) (s : State) : (writeBuf i t s).arrays = s.arrays := rfl
@[simp] theorem writeBuf_pending (i : Nat) (t : TByte) (s : State) : (writeBuf i t s).pending = s.pending := rfl
@[simp] theorem writeBuf_issuer (i : Nat) (t : TByte) (s : State) : (writeBuf i t s).issuer = s.issuer := rfl

/-! ### `clearBuffer` -/

@[simp] theorem clearBuffer_cfg (s : State) : (clearBuffer s).cfg = s.cfg := rfl
@[simp] theorem clearBuffer_pin (s : State) : (clearBuffer s).pin = s.pin := rfl
@[simp] theorem clearBuffer_pinsConfigured (s : State) : (clearBuffer s).pinsConfigured = s.pinsConfigured := rfl
@[simp] theorem clearBuffer_ctl (s : State) : (clearBuffer s).ctl = s.ctl := rfl
@[simp] theorem clearBuffer_marks (s : State) : (clearBuffer s).marks = s.marks := rfl
@[simp] theorem clearBuffer_fault (s : State) : (clearBuffer s).fault = s.fault := rfl
@[simp] theorem clearBuffer_trace (s : State) : (clearBuffer s).trace = s.trace := rfl
@[simp] theorem clearBuffer_buf (s : State) : (clearBuffer s).buf = bufClear s.buf s.cfg.bufLen := rfl
@[simp] theorem clearBuffer_rx (s : State) : (clearBuffer s).rx = s.rx := rfl
@[simp] theorem clearBuffer_devRegs (s : State) : (clearBuffer s).devRegs = s.devRegs := rfl
@[simp] theorem clearBuffer_arrays (s : State) : (clearBuffer s).arrays = s.arrays := rfl
@[simp] theorem clearBuffer_pending (s : State) : (clearBuffer s).pending = s.pending := rfl
@[simp] theorem clearBuffer_issuer (s : State) : (clearBuffer s).issuer = s.issuer := rfl

/-! ### `noteRegister` -/

@[simp] theorem noteRegister_cfg (r : Reg) (v : Byte) (s : State) : (noteRegister r v s).cfg = s.cfg := rfl
@[simp] theorem noteRegister_pin (r : Reg) (v : Byte) (s : State) : (noteRegister r v s).pin = s.pin := rfl
@[simp] theorem noteRegister_pinsConfigured (r : Reg) (v : Byte) (s : State) : (noteRegister r v s).pinsConfigured = s.pinsConfigured := rfl
@[simp] theorem noteRegister_ctl (r : Reg) (v : Byte) (s : State) : (noteRegister r v s).ctl = s.ctl := rfl
@[simp] theorem noteRegister_marks (r : Reg) (v : Byte) (s : State) : (noteRegister r v s).marks = s.marks := rfl
@[simp] theorem noteRegister_fault (r : Reg) (v : Byte) (s : State) : (noteRegister r v s).fault = s.fault := rfl
@[simp] theorem noteRegister_trace (r : Reg) (v : Byte) (s : State) : (noteRegister r v s).trace = s.trace := rfl
@[simp] theorem noteRegister_buf (r : Reg) (v : Byte) (s : State) : (noteRegister r v s).buf = s.buf := rfl
@[simp] theorem noteRegister_rx (r : Reg) (v : Byte) (s : State) : (noteRegister r v s).rx = s.rx := rfl
@[simp] theorem noteRegister_devRegs (r : Reg) (v : Byte) (s : State) : (noteRegister r v s).devRegs = if s.pin.cs = .low then s.devRegs.set r v else s.devRegs := rfl
@[simp] theorem noteRegister_arrays (r : Reg) (v : Byte) (s : State) : (noteRegister r v s).arrays = s.arrays := rfl
@[simp] theorem noteRegister_pending (r : Reg) (v : Byte) (s : State) : (noteRegister r v s).pending = s.pending := rfl
@[simp] theorem noteRegister_issuer (r : Reg) (v : Byte) (s : State) : (noteRegister r v s).issuer = s.issuer := rfl

/-! ### `issue` -/

@[simp] theorem issue_cfg (a : Agent) (rest : List Item) (s : State) : (issue a rest s).cfg = s.cfg := rfl
@[simp] theorem issue_pin (a : Agent) (rest : List Item) (s : State) : (issue a rest s).pin = s.pin := rfl
@[simp] theorem issue_pinsConfigured (a : Agent) (rest : List Item) (s : State) : (issue a rest s).pinsConfigured = s.pinsConfigured := rfl
@[simp] theorem issue_ctl (a : Agent) (rest : List Item) (s : State) : (issue a rest s).ctl = s.ctl := rfl
@[simp] theorem issue_marks (a : Agent) (rest : List Item) (s : State) : (issue a rest s).marks = s.marks := rfl
@[simp] theorem issue_fault (a : Agent) (rest : List Item) (s : State) : (issue a rest s).fault = s.fault := rfl
@[simp] theorem issue_trace (a : Agent) (rest : List Item) (s : State) : (issue a rest s).trace = s.trace := rfl
@[simp] theorem issue_buf (a : Agent) (rest : List Item) (s : State) : (issue a rest s).buf = s.buf := rfl
@[simp] theorem issue_rx (a : Agent) (rest : List Item) (s : State) : (issue a rest s).rx = s.rx := rfl
@[simp] theorem issue_devRegs (a : Agent) (rest : List Item) (s : State) : (issue a rest s).devRegs = s.devRegs := rfl
@[simp] theorem issue_arrays (a : Agent) (rest : List Item) (s : State) : (issue a rest s).arrays = s.arrays := rfl
@[simp] theorem issue_pending (a : Agent) (rest : List Item) (s : State) : (issue a rest s).pending = rest := rfl
@[simp] theorem issue_issuer (a : Agent) (rest : List Item) (s : State) : (issue a rest s).issuer = a := rfl

/-! ### `play` -/

@[simp] theorem play_cfg (es : List Event) (s : State) : (s.play es).cfg = s.cfg := rfl
@[simp] theorem play_pin (es : List Event) (s : State) : (s.play es).pin = linesAfter s.pin es := rfl
@[simp] theorem play_pinsConfigured (es : List Event) (s : State) : (s.play es).pinsConfigured = s.pinsConfigured := rfl
@[simp] theorem play_ctl (es : List Event) (s : State) : (s.play es).ctl = s.ctl := rfl
@[simp] theorem play_marks (es : List Event) (s : State) : (s.play es).marks = s.marks := rfl
@[simp] theorem play_fault (es : List Event) (s : State) : (s.play es).fault = s.fault := rfl
@[simp] theorem play_trace (es : List Event) (s : State) : (s.play es).trace = s.trace ++ es := rfl
@[simp] theorem play_buf (es : List Event) (s : State) : (s.play es).buf = s.buf := rfl
@[simp] theorem play_rx (es : List Event) (s : State) : (s.play es).rx = s.rx.events s.cfg es := rfl
@[simp] theorem play_devRegs (es : List Event) (s : State) : (s.play es).devRegs = s.devRegs := rfl
@[simp] theorem play_arrays (es : List Event) (s : State) : (s.play es).arrays = s.arrays := rfl
@[simp] theorem play_pending (es : List Event) (s : State) : (s.play es).pending = s.pending := rfl
@[simp] theorem play_issuer (es : List Event) (s : State) : (s.play es).issuer = s.issuer := rfl

/-! ### `Pins` and `DevRegs` -/

@[simp] theorem devRegs_get_ofFn (f : Reg → Byte) (r : Reg) : (DevRegs.ofFn f).get r = f r := by cases r <;> rfl

@[simp] theorem devRegs_get_atConstruction (r : Reg) : DevRegs.atConstruction.get r = Config.regAtConstruction r :=
  devRegs_get_ofFn _ r

@[simp] theorem devRegs_get_afterReset (r : Reg) : DevRegs.afterReset.get r = Config.regAfterReset r :=
  devRegs_get_ofFn _ r

@[simp] theorem pins_get_set_self (p : Pins) (l : Line) (v : Level) : (p.set l v).get l = v := by cases l <;> rfl

theorem pins_get_set_of_ne (p : Pins) (l k : Line) (v : Level) (h : k ≠ l) : (p.set l v).get k = p.get k := by
  cases l <;> cases k <;> first | rfl | exact absurd rfl h

@[simp] theorem devRegs_get_set_self (d : DevRegs) (r : Reg) (v : Byte) : (d.set r v).get r = v := by
  cases r <;> rfl

theorem devRegs_get_set_of_ne (d : DevRegs) (r k : Reg) (v : Byte) (h : k ≠ r) : (d.set r v).get k = d.get k := by
  cases r <;> cases k <;> first | rfl | exact absurd rfl h

/-- `n` lies in `[0, bound)`. -/
theorem inRange_iff (n : Int) (bound : Nat) : inRange n bound = true ↔ 0 ≤ n ∧ n < bound := by simp [inRange]

/-- `ORIENT` sends a recognised code itself (42_lifecycle.md R170). -/
theorem orientationCode_of_code {c : OrientCodes} {v : Byte} (h : ∃ o, v = c.code o) : orientationCode c v = v := by
  obtain ⟨o, rfl⟩ := h
  cases o <;> simp [orientationCode, OrientCodes.code]

/-- `ORIENT` sends the normal code for anything else (42_lifecycle.md R170). -/
theorem orientationCode_of_not_code {c : OrientCodes} {v : Byte} (h : ¬ ∃ o, v = c.code o) :
    orientationCode c v = c.code .normal := by
  refine if_neg fun hv => h ?_
  rcases hv with h | h | h | h
  exacts [⟨.normal, h⟩, ⟨.m1, h⟩, ⟨.m2, h⟩, ⟨.m3, h⟩]

/-- What `construct` checks of the geometry (60_exceptions.md R242). -/
theorem cfgOk_iff (c : Cfg) :
    cfgOk c = true ↔
      (c.height % 8 = 0 ∧ 1 ≤ c.width ∧ c.width ≤ 256 ∧ 8 ≤ c.height ∧ c.height ≤ 128) ∧
        c.bufWidth ≤ c.width ∧ c.bufHeight ≤ c.height ∧ c.bufHeight % 8 = 0 ∧ c.bufWidth ≤ 255 ∧ c.bufHeight ≤ 248 := by
  simp [cfgOk, geometryOk, bufferOk, and_assoc]

/-- The other constraints of 00_scope.md R10: the longer recovery delay, `VAL_DISPLAY_ON`, distinct orientation codes. -/
theorem parametersOk_iff (c : Cfg) :
    parametersOk c = true ↔
      c.tRstLow < c.tRstRec ∧ c.valDisplayOn = 0x01 ∧
        ∀ o p, c.orientCode.code o = c.orientCode.code p → o = p := by
  simp only [parametersOk, Bool.and_eq_true, decide_eq_true_eq, beq_iff_eq, bne_iff_ne, and_assoc]
  refine and_congr_right fun _ => and_congr_right fun _ => ⟨?_, fun h => ?_⟩
  · rintro ⟨h1, h2, h3, h4, h5, h6⟩ o p
    cases o <;> cases p <;> simp_all [OrientCodes.code, eq_comm]
  · refine ⟨?_, ?_, ?_, ?_, ?_, ?_⟩ <;> intro e
    · exact absurd (h .normal .m1 e) (by decide)
    · exact absurd (h .normal .m2 e) (by decide)
    · exact absurd (h .normal .m3 e) (by decide)
    · exact absurd (h .m1 .m2 e) (by decide)
    · exact absurd (h .m1 .m3 e) (by decide)
    · exact absurd (h .m2 .m3 e) (by decide)

/-- What construction yields: the construction state of a configuration in range (70_reset_and_hazards.md R270). -/
theorem construct_ok {q : CfgRequest} {s : State} (h : construct q = .ok s) :
    ∃ x, modeOf q.clkPin q.dataPin = .ok x ∧ cfgOk q.base = true ∧ parametersOk q.base = true ∧
      s = State.initial { q.base with xport := x } := by
  unfold construct at h
  split at h
  · cases h
  · split at h
    · cases h
    · split at h
      · cases h
      · rename_i x hx
        split at h
        · cases h
          exact ⟨x, hx, by simp_all [cfgOk], by assumption, rfl⟩
        · cases h

/-! ### `State.play` -/

@[simp] theorem linesAfter_append (p : Pins) (es fs : List Event) :
    linesAfter p (es ++ fs) = linesAfter (linesAfter p es) fs := by
  induction es generalizing p with
  | nil => rfl
  | cons e es ih => cases e <;> simp [linesAfter, ih]

@[simp] theorem linesAfter_nil (p : Pins) : linesAfter p [] = p := rfl

@[simp] theorem linesAfter_delayUs (p : Pins) (t : Nat) (es : List Event) :
    linesAfter p (.delayUs t :: es) = linesAfter p es := rfl

@[simp] theorem linesAfter_delayMs (p : Pins) (t : Nat) (es : List Event) :
    linesAfter p (.delayMs t :: es) = linesAfter p es := rfl

@[simp] theorem linesAfter_pinWrite (p : Pins) (l : Line) (v : Level) (es : List Event) :
    linesAfter p (.pinWrite l v :: es) = linesAfter (p.set l v) es := rfl

@[simp] theorem linesAfter_pinConfig (p : Pins) (l : Line) (es : List Event) :
    linesAfter p (.pinConfig l :: es) = linesAfter p es := rfl

@[simp] theorem linesAfter_xportSetup (p : Pins) (m : XportMode) (es : List Event) :
    linesAfter p (.xportSetup m :: es) = linesAfter p es := rfl

@[simp] theorem linesAfter_spiByte (p : Pins) (b : Byte) (es : List Event) :
    linesAfter p (.spiByte b :: es) = linesAfter p es := rfl

@[simp] theorem rx_events_append (c : Cfg) (rx : Rx) (es fs : List Event) :
    rx.events c (es ++ fs) = (rx.events c es).events c fs := by simp [Rx.events]

@[simp] theorem rx_events_nil (c : Cfg) (rx : Rx) : rx.events c [] = rx := rfl

@[simp] theorem rx_events_cons (c : Cfg) (rx : Rx) (e : Event) (es : List Event) :
    rx.events c (e :: es) = (rx.event c e).events c es := rfl

theorem play_play (s : State) (es fs : List Event) : (s.play es).play fs = s.play (es ++ fs) := by
  simp [State.play, List.append_assoc]

theorem play_nil (s : State) : s.play [] = s := by simp [State.play, linesAfter]

theorem drive_eq_play (p : Line) (v : Level) (s : State) : drive p v s = s.play [.pinWrite p v] := rfl

theorem delayMs_eq_play (t : Nat) (s : State) : delayMs t s = s.play [.delayMs t] := rfl

theorem delayUs_eq_play (t : Nat) (s : State) : delayUs t s = s.play [.delayUs t] := rfl

theorem emit_eq_play (e : Event) (s : State) (h : linesAfter s.pin [e] = s.pin) : emit e s = s.play [e] := by
  simp [emit, State.play, h]

end Sys2Proof.Machine
end

