-- ==== Sys2Proof/Laws/Memory.lean ====
section
/-! SUPPORT. The laws of the sparse memories: a read after a write, a write leaves every other address alone, and every
operation keeps the canonical form. -/

namespace Sys2Proof.Machine

/-! ### Reads after writes -/

@[simp] theorem memFind_memSet_self {β : Type} (m : List (Nat × β)) (a : Nat) (v : β) :
    memFind (memSet m a v) a = some v := by
  induction m with
  | nil => simp [memSet, memFind]
  | cons e rest ih =>
    obtain ⟨k, w⟩ := e
    by_cases h1 : a < k
    · simp [memSet, memFind, h1]
    · by_cases h2 : a = k
      · simp [memSet, memFind, h2]
      · simp [memSet, memFind, h1, h2, ih, Ne.symm h2]

theorem memFind_memSet_of_ne {β : Type} (m : List (Nat × β)) (a b : Nat) (v : β) (h : b ≠ a) :
    memFind (memSet m a v) b = memFind m b := by
  induction m with
  | nil => simp [memSet, memFind, Ne.symm h]
  | cons e rest ih =>
    obtain ⟨k, w⟩ := e
    by_cases h1 : a < k
    · simp [memSet, memFind, h1, Ne.symm h]
    · by_cases h2 : a = k
      · subst h2; simp [memSet, memFind, Ne.symm h]
      · simp [memSet, memFind, h1, h2, ih]

@[simp] theorem memFind_memErase_self {β : Type} (m : List (Nat × β)) (a : Nat) : memFind (memErase m a) a = none := by
  induction m with
  | nil => rfl
  | cons e rest ih =>
    obtain ⟨k, w⟩ := e
    by_cases h : k = a
    · subst h; simpa [memErase] using ih
    · simpa [memErase, memFind, h] using ih

theorem memFind_memErase_of_ne {β : Type} (m : List (Nat × β)) (a b : Nat) (h : b ≠ a) :
    memFind (memErase m a) b = memFind m b := by
  induction m with
  | nil => rfl
  | cons e rest ih =>
    obtain ⟨k, w⟩ := e
    by_cases h1 : k = a
    · subst h1; simpa [memErase, memFind, Ne.symm h] using ih
    · simp only [memErase] at ih
      by_cases h2 : k = b
      · subst h2; simp [memErase, memFind, h]
      · simp [memErase, memFind, h1, h2, ih]

theorem memFind_append {β : Type} (m n : List (Nat × β)) (a : Nat) :
    memFind (m ++ n) a = (memFind m a).or (memFind n a) := by
  induction m with
  | nil => simp [memFind]
  | cons e rest ih =>
    obtain ⟨k, w⟩ := e
    by_cases h : k = a <;> simp [memFind, h, ih]

theorem memFind_map_range {β : Type} (f : Nat → β) (n a : Nat) :
    memFind ((List.range n).map fun i => (i, f i)) a = if a < n then some (f a) else none := by
  induction n with
  | zero => simp [memFind]
  | succ n ih =>
    rw [List.range_succ, List.map_append, memFind_append, ih]
    by_cases h : a < n
    · simp [h, Nat.lt_succ_of_lt h]
    · by_cases h2 : n = a
      · subst h2; simp [memFind]
      · have : ¬ a < n + 1 := by omega
        simp [memFind, h, h2, this]

theorem memFind_filter_le {β : Type} (m : List (Nat × β)) (lo a : Nat) :
    memFind (m.filter fun e => decide (lo ≤ e.1)) a = if lo ≤ a then memFind m a else none := by
  induction m with
  | nil => simp [memFind]
  | cons e rest ih =>
    obtain ⟨k, w⟩ := e
    by_cases h : lo ≤ k
    · by_cases h2 : k = a
      · subst h2; simp [memFind, h]
      · simp [memFind, h, h2, ih]
    · by_cases h2 : k = a
      · subst h2; simp [h, ih]
      · simp [memFind, h, h2, ih]

/-- A buffer write is read back. -/
@[simp] theorem bufRead_bufWrite_self (m : List (Nat × TByte)) (i : Nat) (t : TByte) : bufRead (bufWrite m i t) i = t := by
  by_cases h : t = TByte.unknown <;> simp [bufRead, bufWrite, h]

/-- A buffer write leaves every other byte as it was. -/
theorem bufRead_bufWrite_of_ne (m : List (Nat × TByte)) (i j : Nat) (t : TByte) (h : j ≠ i) :
    bufRead (bufWrite m i t) j = bufRead m j := by
  by_cases ht : t = TByte.unknown
  · simp [bufRead, bufWrite, ht, memFind_memErase_of_ne m i j h]
  · simp [bufRead, bufWrite, ht, memFind_memSet_of_ne m i j t h]

/-- Clearing makes the first `len` bytes 0x00 and leaves the others (43_pixel_buffer.md R191). -/
theorem bufRead_bufClear (m : List (Nat × TByte)) (len i : Nat) :
    bufRead (bufClear m len) i = if i < len then TByte.ofByte 0x00 else bufRead m i := by
  by_cases h : i < len
  · simp [bufRead, bufClear, memFind_append, memFind_map_range, h]
  · have : len ≤ i := by omega
    simp [bufRead, bufClear, memFind_append, memFind_map_range, memFind_filter_le, h, this]

/-! ### The canonical form -/

theorem risingFrom_mono {β : Type} (m : List (Nat × β)) (lo lo' : Nat) (h : lo' ≤ lo) (hm : risingFrom lo m = true) :
    risingFrom lo' m = true := by
  cases m with
  | nil => rfl
  | cons e rest =>
    obtain ⟨k, w⟩ := e
    simp only [risingFrom, Bool.and_eq_true, decide_eq_true_eq] at *
    exact ⟨by omega, hm.2⟩

theorem risingFrom_memSet {β : Type} (m : List (Nat × β)) (lo a : Nat) (v : β) (hlo : lo ≤ a)
    (hm : risingFrom lo m = true) : risingFrom lo (memSet m a v) = true := by
  induction m generalizing lo with
  | nil => simp [memSet, risingFrom, hlo]
  | cons e rest ih =>
    obtain ⟨k, w⟩ := e
    simp only [risingFrom, Bool.and_eq_true, decide_eq_true_eq] at hm
    by_cases h1 : a < k
    · simp [memSet, risingFrom, h1, hlo, hm.2]
    · by_cases h2 : a = k
      · simp [memSet, risingFrom, h2, hm.1, hm.2]
      · simp [memSet, risingFrom, h1, h2, hm.1, ih (k + 1) (by omega) hm.2]

theorem risingFrom_filter {β : Type} (p : Nat × β → Bool) (m : List (Nat × β)) (lo : Nat) (hm : risingFrom lo m = true) :
    risingFrom lo (m.filter p) = true := by
  induction m generalizing lo with
  | nil => rfl
  | cons e rest ih =>
    obtain ⟨k, w⟩ := e
    simp only [risingFrom, Bool.and_eq_true, decide_eq_true_eq] at hm
    by_cases h : p (k, w) = true
    · simp [h, risingFrom, hm.1, ih (k + 1) hm.2]
    · simpa [h] using risingFrom_mono _ (k + 1) lo (by omega) (ih (k + 1) hm.2)

theorem risingFrom_of_bound {β : Type} (m : List (Nat × β)) (lo lo' : Nat) (hm : risingFrom lo m = true)
    (h : ∀ e ∈ m, lo' ≤ e.1) : risingFrom lo' m = true := by
  cases m with
  | nil => rfl
  | cons e rest =>
    obtain ⟨k, w⟩ := e
    simp only [risingFrom, Bool.and_eq_true, decide_eq_true_eq] at *
    exact ⟨h (k, w) (by simp), hm.2⟩

theorem risingFrom_map_range_append {β : Type} (f : Nat → β) (n : Nat) (rest : List (Nat × β))
    (hr : risingFrom n rest = true) : risingFrom 0 ((List.range n).map (fun i => (i, f i)) ++ rest) = true := by
  induction n generalizing rest with
  | zero => simpa using hr
  | succ n ih =>
    rw [List.range_succ, List.map_append, List.append_assoc]
    exact ih _ (by simp [risingFrom, hr])

theorem mem_memSet {β : Type} (m : List (Nat × β)) (a : Nat) (v : β) (e : Nat × β) (h : e ∈ memSet m a v) :
    e = (a, v) ∨ e ∈ m := by
  induction m with
  | nil => simpa [memSet] using h
  | cons x rest ih =>
    obtain ⟨k, w⟩ := x
    by_cases h1 : a < k
    · simpa [memSet, h1] using h
    · by_cases h2 : a = k
      · subst h2; simp [memSet] at h; rcases h with h | h <;> simp [h]
      · simp [memSet, h1, h2] at h
        rcases h with h | h
        · simp [h]
        · rcases ih h with h | h <;> simp [h]

/-- A buffer write of a canonical byte inside the buffer keeps the canonical form. -/
theorem bufWf_bufWrite (len : Nat) (m : List (Nat × TByte)) (i : Nat) (t : TByte) (hi : i < len) (ht : t.wf = true)
    (hm : bufWf len m = true) : bufWf len (bufWrite m i t) = true := by
  simp only [bufWf, Bool.and_eq_true, List.all_eq_true, bne_iff_ne, decide_eq_true_eq] at *
  by_cases h : t = TByte.unknown
  · simp only [bufWrite, h, if_true, memErase]
    exact ⟨risingFrom_filter _ _ _ hm.1, fun e he => hm.2 e (List.mem_filter.1 he).1⟩
  · simp only [bufWrite, h, if_false]
    refine ⟨risingFrom_memSet _ _ _ _ (Nat.zero_le _) hm.1, fun e he => ?_⟩
    rcases mem_memSet _ _ _ _ he with rfl | he
    · exact ⟨⟨hi, ht⟩, h⟩
    · exact hm.2 e he

/-- Clearing keeps the canonical form. -/
theorem bufWf_bufClear (len : Nat) (m : List (Nat × TByte)) (hm : bufWf len m = true) :
    bufWf len (bufClear m len) = true := by
  simp only [bufWf, Bool.and_eq_true, List.all_eq_true, bne_iff_ne, decide_eq_true_eq] at *
  refine ⟨?_, fun e he => ?_⟩
  · refine risingFrom_map_range_append _ _ _ (risingFrom_of_bound _ 0 _ (risingFrom_filter _ _ _ hm.1) fun e he => ?_)
    simpa using (List.mem_filter.1 he).2
  · rcases List.mem_append.1 he with he | he
    · obtain ⟨i, hi, rfl⟩ := List.mem_map.1 he
      exact ⟨⟨List.mem_range.1 hi, (by decide : (TByte.ofByte 0x00).wf = true)⟩, (by decide : TByte.ofByte 0x00 ≠ TByte.unknown)⟩
    · exact hm.2 e (List.mem_filter.1 he).1

/-- A RAM write inside the RAM keeps the canonical form. -/
theorem ramWf_memSet (len : Nat) (m : List Host.Cell) (i : Nat) (b : Byte) (hi : i < len) (hm : ramWf len m = true) :
    ramWf len (memSet m i b) = true := by
  simp only [ramWf, Bool.and_eq_true, List.all_eq_true, decide_eq_true_eq] at *
  refine ⟨risingFrom_memSet _ _ _ _ (Nat.zero_le _) hm.1, fun e he => ?_⟩
  rcases mem_memSet _ _ _ _ he with rfl | he
  · exact hi
  · exact hm.2 e he

/-! ### Bits of a byte -/

/-- Blending keeps an `Unknown` bit at 0 (92_eei_decisions.md D21). -/
theorem blend_wf (mode : BlendMode) (k : Nat) (t : TByte) (ht : t.wf = true) : (blend mode k t).wf = true := by
  obtain ⟨v, n⟩ := t
  simp only [TByte.wf, beq_iff_eq] at *
  have hb : ∀ i, i < 8 → v.getLsbD i = true → n.getLsbD i = true := by
    intro i hi hv
    have := congrArg (fun b : Byte => b.getLsbD i) ht
    simpa [hi, hv] using this
  cases mode <;> simp only [blend] <;> apply BitVec.eq_of_getLsbD_eq <;> intro i hi <;> have := hb i hi <;>
    cases h1 : v.getLsbD i <;> cases h2 : n.getLsbD i <;> cases h3 : (bitMask k).getLsbD i <;> simp_all

theorem bitMask_getLsbD (k i : Nat) (hk : k < 8) : (bitMask k).getLsbD i = decide (i = k) := by
  by_cases hi : i < 8
  · interval_cases k <;> interval_cases i <;> rfl
  · have : i ≠ k := by omega
    simp [bitMask, this, BitVec.getLsbD_of_ge _ _ (by omega : 8 ≤ i)]

/-- Blending bit `k`: SET makes it 1, CLEAR 0, INVERT turns a known bit (43_pixel_buffer.md R190). -/
theorem blend_bit_self (mode : BlendMode) (k : Nat) (hk : k < 8) (t : TByte) :
    (blend mode k t).bit k =
      match mode with
      | .set => some true
      | .clear => some false
      | .invert => (t.bit k).map (!·) := by
  cases mode <;>
    simp only [blend, TByte.bit, BitVec.getLsbD_or, BitVec.getLsbD_and, BitVec.getLsbD_not, BitVec.getLsbD_xor,
      bitMask_getLsbD k k hk, hk] <;>
    cases h : t.known.getLsbD k <;> simp

/-- Blending bit `k` leaves the other bits (43_pixel_buffer.md R192). -/
theorem blend_bit_of_ne (mode : BlendMode) (k j : Nat) (hk : k < 8) (h : j ≠ k) (t : TByte) :
    (blend mode k t).bit j = t.bit j := by
  by_cases hj : j < 8
  · cases mode <;>
      simp only [blend, TByte.bit, BitVec.getLsbD_or, BitVec.getLsbD_and, BitVec.getLsbD_not, BitVec.getLsbD_xor,
        bitMask_getLsbD k j hk, hj, h] <;> simp
  · cases mode <;> simp [blend, TByte.bit, BitVec.getLsbD_of_ge _ _ (by omega : 8 ≤ j)]

end Sys2Proof.Machine
end

