-- ==== Sys2Proof/Laws/Ops.lean ====
section
/-! SUPPORT. One lemma per shared operation saying everything it does, as `State.play` of the spec's event list and the
record fields it changes. Proofs cite these instead of unfolding an operation. -/

namespace Sys2Proof.Machine

/-- Two plays with a change between them that the events do not look at are one play. -/
theorem play_marks_comm (s : State) (es : List Event) (m : Marks) :
    ({ s with marks := m } : State).play es = { s.play es with marks := m } := rfl

/-! ### Transport -/

theorem clockBit_eq_play (s : State) (b : Bool) : clockBit s b = s.play (bitEvents s.cfg b) := by
  simp only [clockBit, drive_eq_play, delayUs_eq_play, play_play]
  rfl

/-- `SEND_BYTE` plays the events of its byte and changes nothing else (40_transport.md R120, R121). -/
theorem sendByte_eq_play (b : Byte) (s : State) : sendByte b s = s.play (byteEvents s.cfg b) := by
  cases h : s.cfg.xport with
  | hw => simp only [sendByte, byteEvents, h]; rfl
  | sw clk dat =>
    simp only [sendByte, byteEvents, h, bitsMsbFirst, List.foldl, clockBit_eq_play, play_cfg, play_play, List.append_assoc]

/-! ### Framer -/

/-- `SEND_COMMAND` plays its events and writes a listening controller's register (41_framer.md R140). -/
theorem sendCommand_eq (r : Reg) (v : Byte) (s : State) :
    sendCommand r v s =
      { s.play (commandEvents s.cfg r v) with
        devRegs := if s.pin.cs = .low then s.devRegs.set r v else s.devRegs } := by
  have cs : ∀ (b : Byte) (p : Pins), (linesAfter p (byteEvents s.cfg b)).cs = p.cs := by
    intro b p
    cases h : s.cfg.xport <;> simp [byteEvents, h, linesAfter, bitEvents, Pins.set]
  simp only [sendCommand, drive_eq_play, sendByte_eq_play, play_cfg, play_play, noteRegister, commandEvents, cmdByte]
  simp [State.play, linesAfter, Pins.set, cs]

/-- `SEND_DATA` plays its byte's events; the mark is the only other effect (41_framer.md R141). -/
theorem sendData_eq (b : Byte) (s : State) :
    sendData b s = { s.play (byteEvents s.cfg b) with marks := dataMarks s.marks s } := by
  have m : (requireDataMode s).marks = dataMarks s.marks s := by
    rcases s with ⟨_, ⟨_, cd, _, _, _⟩, _, _, ⟨_, _, k⟩, _⟩
    cases cd <;> cases k <;> rfl
  simp only [sendData, sendByte_eq_play]
  simp [State.play, requireDataMode] at *
  exact m

/-! ### The lines an operation leaves -/

/-- The lines after the events of one byte: CS, CD and RST as before. -/
theorem linesAfter_byteEvents (c : Cfg) (b : Byte) (p : Pins) :
    (linesAfter p (byteEvents c b)).cs = p.cs ∧ (linesAfter p (byteEvents c b)).cd = p.cd ∧
      (linesAfter p (byteEvents c b)).rst = p.rst := by
  cases h : c.xport <;> simp [byteEvents, h, linesAfter, bitEvents, Pins.set]

@[simp] theorem linesAfter_byteEvents_cs (c : Cfg) (b : Byte) (p : Pins) : (linesAfter p (byteEvents c b)).cs = p.cs :=
  (linesAfter_byteEvents c b p).1

@[simp] theorem linesAfter_byteEvents_cd (c : Cfg) (b : Byte) (p : Pins) : (linesAfter p (byteEvents c b)).cd = p.cd :=
  (linesAfter_byteEvents c b p).2.1

@[simp] theorem linesAfter_byteEvents_rst (c : Cfg) (b : Byte) (p : Pins) : (linesAfter p (byteEvents c b)).rst = p.rst :=
  (linesAfter_byteEvents c b p).2.2

/-- In hardware mode a byte drives no line (10_state.md R34). -/
theorem linesAfter_byteEvents_hw (c : Cfg) (b : Byte) (p : Pins) (h : c.xport = .hw) :
    linesAfter p (byteEvents c b) = p := by simp [byteEvents, h, linesAfter]

/-- In software mode a byte ends with SCLK Low (40_transport.md R121, R124). -/
theorem linesAfter_byteEvents_sclk (c : Cfg) (b : Byte) (p : Pins) (clk dat : Nat) (h : c.xport = .sw clk dat) :
    (linesAfter p (byteEvents c b)).sclk = .low := by simp [byteEvents, h, linesAfter, bitEvents, Pins.set]

/-- A command leaves CS and RST as they were and CD High (41_framer.md R140). -/
@[simp] theorem linesAfter_commandEvents_cs (c : Cfg) (r : Reg) (v : Byte) (p : Pins) :
    (linesAfter p (commandEvents c r v)).cs = p.cs := by simp [commandEvents, linesAfter, Pins.set]

@[simp] theorem linesAfter_commandEvents_cd (c : Cfg) (r : Reg) (v : Byte) (p : Pins) :
    (linesAfter p (commandEvents c r v)).cd = .high := by simp [commandEvents, linesAfter, Pins.set]

@[simp] theorem linesAfter_commandEvents_rst (c : Cfg) (r : Reg) (v : Byte) (p : Pins) :
    (linesAfter p (commandEvents c r v)).rst = p.rst := by simp [commandEvents, linesAfter, Pins.set]

/-! ### Brackets, lifecycle -/

/-- A display-control command is one bracketed command (42_lifecycle.md R168 to R172). -/
theorem displayCommand_eq (r : Reg) (v : Byte) (s : State) :
    displayCommand r v s =
      { s.play (bracketEvents (commandEvents s.cfg r v)) with devRegs := s.devRegs.set r v } := by
  simp only [displayCommand, bracket, drive_eq_play, sendCommand_eq, play_cfg]
  simp [State.play, linesAfter, Pins.set, bracketEvents]

/-- `requireReady` sets one mark and nothing else (42_lifecycle.md R167). -/
theorem requireReady_eq (s : State) : requireReady s = { s with marks := readyMarks s } := by
  rcases s with ⟨_, _, _, ctl, ⟨m, _, _⟩, _⟩
  cases ctl <;> cases m <;> rfl

/-- `RESET` (42_lifecycle.md R163). -/
theorem resetOp_eq (s : State) :
    resetOp s =
      { s.play (resetEvents s.cfg) with
        ctl := .resetting
        devRegs := DevRegs.afterReset
        marks := { s.marks with preReady := s.marks.preReady || !s.pinsConfigured } } := by
  have m : (requireConfigured s).marks = { s.marks with preReady := s.marks.preReady || !s.pinsConfigured } := by
    rcases s with ⟨_, _, c, _, ⟨m, _, _⟩, _⟩
    cases c <;> cases m <;> rfl
  simp only [resetOp, resetPulse, drive_eq_play, delayMs_eq_play]
  simp [State.play, requireConfigured, resetEvents, linesAfter] at *
  exact m

/-- `INIT_REGS` (42_lifecycle.md R162). -/
theorem initRegs_eq (vbias : Byte) (s : State) :
    initRegs vbias s =
      { s.play (initEvents s.cfg vbias) with devRegs := initDevRegs s.cfg vbias s.devRegs } := by
  simp only [initRegs, bracket, initFive, initFour, drive_eq_play, delayMs_eq_play, sendCommand_eq, play_cfg]
  simp [State.play, linesAfter, Pins.set, bracketEvents, initEvents, initDevRegs, DevRegs.set, OrientCodes.code]

theorem configurePins_eq (s : State) : configurePins s = s.play (setupEvents s.cfg) := by
  cases h : s.cfg.xport <;>
    simp [configurePins, setupEvents, h, emit, drive, State.play, linesAfter, Rx.event]

/-- `BEGIN` (42_lifecycle.md R161). -/
theorem beginOp_eq (vbias : Byte) (s : State) :
    beginOp vbias s =
      { s.play (setupEvents s.cfg ++ resetEvents s.cfg ++ initEvents s.cfg vbias) with
        pinsConfigured := true
        ctl := .ready
        devRegs := initDevRegs s.cfg vbias DevRegs.afterReset } := by
  simp only [beginOp, initRegs_eq, resetOp_eq, configurePins_eq]
  simp [State.play]

/-! ### Streams and fills -/

/-- `ADDR_TRIPLE` (44_transfer.md R203). -/
theorem addrTriple_eq (column page : Nat) (s : State) :
    addrTriple column page s =
      { s.play (tripleEvents s.cfg column page) with
        devRegs :=
          if s.pin.cs = .low then
            ((s.devRegs.set .colLo (colLo column)).set .colHi (colHi column)).set .page (pageValue page)
          else s.devRegs } := by
  simp only [addrTriple, sendCommand_eq, play_cfg]
  by_cases h : s.pin.cs = .low <;>
    simp [State.play, tripleEvents, colLo, colHi, pageValue, h]

/-- Data bytes sent in a loop (45_fill.md R230, R231): the events of the bytes, each with `tail` after it, and the mark the
first one may set. -/
theorem repeatOp_sendData_eq (n : Nat) (b : Byte) (s : State) :
    repeatOp n (sendData b) s =
      { s.play (List.replicate n (byteEvents s.cfg b)).flatten with
        marks := if n = 0 then s.marks else dataMarks s.marks s } := by
  induction n generalizing s with
  | zero => simp [repeatOp, State.play]
  | succ n ih =>
    simp only [repeatOp, ih, sendData_eq]
    by_cases h : n = 0 <;> simp [h, State.play, List.replicate_succ, dataMarks]

/-- As `repeatOp_sendData_eq`, with a delay after every byte (45_fill.md R230). -/
theorem repeatOp_sendData_delay_eq (n : Nat) (b : Byte) (d : Nat) (s : State) :
    repeatOp n (fun s => delayUs d (sendData b s)) s =
      { s.play (List.replicate n (byteEvents s.cfg b ++ [.delayUs d])).flatten with
        marks := if n = 0 then s.marks else dataMarks s.marks s } := by
  induction n generalizing s with
  | zero => simp [repeatOp, State.play]
  | succ n ih =>
    rw [repeatOp, ih]
    simp only [sendData_eq, delayUs_eq_play]
    by_cases h : n = 0 <;> simp [h, State.play, List.replicate_succ, dataMarks, Rx.event]

end Sys2Proof.Machine
end

