-- ==== Sys2Proof/Laws/PerInstr.lean ====
section
/-! SUPPORT. Which encoding each operation has, as syntax (30_encoding.md R90, R96): a wire byte has a wire encoding in every
configuration, a host operation a line of text, and nothing else has either. One lemma per constructor. -/

namespace Sys2Proof.Laws.Coded

/-- An operation has a wire byte exactly when its format is wire, and a line exactly when it is a host operation. -/
def Statement (i : Instr) : Prop :=
  (∀ c : Cfg, (encodeWire c i).isSome = (i.format == .wire)) ∧
    ∀ name : List Byte, (encodeLine name i).isSome = (i.format == .hostOp)

theorem beginOp (v : Byte) : Statement (.beginOp v) := ⟨fun _ => rfl, fun _ => rfl⟩

theorem reset : Statement (.reset) := ⟨fun _ => rfl, fun _ => rfl⟩

theorem displayEnable (v : Byte) : Statement (.displayEnable v) := ⟨fun _ => rfl, fun _ => rfl⟩

theorem scroll (v : Byte) : Statement (.scroll v) := ⟨fun _ => rfl, fun _ => rfl⟩

theorem orient (v : Byte) : Statement (.orient v) := ⟨fun _ => rfl, fun _ => rfl⟩

theorem invert (v : Byte) : Statement (.invert v) := ⟨fun _ => rfl, fun _ => rfl⟩

theorem allOn (v : Byte) : Statement (.allOn v) := ⟨fun _ => rfl, fun _ => rfl⟩

theorem setPixel (x y : Int) (mode : BlendMode) : Statement (.setPixel x y mode) := ⟨fun _ => rfl, fun _ => rfl⟩

theorem clearBuffer : Statement (.clearBuffer) := ⟨fun _ => rfl, fun _ => rfl⟩

theorem transfer (x y : Int) (w h : Nat) : Statement (.transfer x y w h) := ⟨fun _ => rfl, fun _ => rfl⟩

theorem bitmap (x y : Int) (w h : Nat) (image : List Byte) : Statement (.bitmap x y w h image) := ⟨fun _ => rfl, fun _ => rfl⟩

theorem fillScreen (pattern : Byte) (delayUs : Nat) : Statement (.fillScreen pattern delayUs) := ⟨fun _ => rfl, fun _ => rfl⟩

theorem fillPage (pattern : Byte) : Statement (.fillPage pattern) := ⟨fun _ => rfl, fun _ => rfl⟩

theorem sendByte (b : Byte) : Statement (.sendByte b) := ⟨fun _ => rfl, fun _ => rfl⟩

theorem sendCommand (sel : Reg) (v : Byte) : Statement (.sendCommand sel v) := ⟨fun _ => rfl, fun _ => rfl⟩

theorem sendData (b : Byte) : Statement (.sendData b) := ⟨fun _ => rfl, fun _ => rfl⟩

theorem initRegs (vbias : Byte) : Statement (.initRegs vbias) := ⟨fun _ => rfl, fun _ => rfl⟩

theorem stream (x y : Int) (w h : Nat) (src : Source) : Statement (.stream x y w h src) := ⟨fun _ => rfl, fun _ => rfl⟩

theorem addrTriple (column page : Nat) : Statement (.addrTriple column page) := ⟨fun _ => rfl, fun _ => rfl⟩

theorem data (b : Byte) : Statement (.data b) := ⟨fun _ => rfl, fun _ => rfl⟩

theorem cmdTempcomp : Statement (.cmdTempcomp) := ⟨fun _ => rfl, fun _ => rfl⟩

theorem cmdAddrmode : Statement (.cmdAddrmode) := ⟨fun _ => rfl, fun _ => rfl⟩

theorem cmdFramerate : Statement (.cmdFramerate) := ⟨fun _ => rfl, fun _ => rfl⟩

theorem cmdBias : Statement (.cmdBias) := ⟨fun _ => rfl, fun _ => rfl⟩

theorem cmdPower : Statement (.cmdPower) := ⟨fun _ => rfl, fun _ => rfl⟩

theorem cmdGain (v : Byte) : Statement (.cmdGain v) := ⟨fun _ => rfl, fun _ => rfl⟩

theorem cmdDispen (v : Byte) : Statement (.cmdDispen v) := ⟨fun _ => rfl, fun _ => rfl⟩

theorem cmdOrient (code : Byte) : Statement (.cmdOrient code) := ⟨fun _ => rfl, fun _ => rfl⟩

theorem cmdScroll (v : Byte) : Statement (.cmdScroll v) := ⟨fun _ => rfl, fun _ => rfl⟩

theorem cmdInverse (v : Byte) : Statement (.cmdInverse v) := ⟨fun _ => rfl, fun _ => rfl⟩

theorem cmdAllon (v : Byte) : Statement (.cmdAllon v) := ⟨fun _ => rfl, fun _ => rfl⟩

theorem cmdColLo (nib : Nibble) : Statement (.cmdColLo nib) := ⟨fun _ => rfl, fun _ => rfl⟩

theorem cmdColHi (nib : Nibble) : Statement (.cmdColHi nib) := ⟨fun _ => rfl, fun _ => rfl⟩

theorem cmdPage (page : Nibble) : Statement (.cmdPage page) := ⟨fun _ => rfl, fun _ => rfl⟩

end Sys2Proof.Laws.Coded
end

