-- ==== Sys2Proof/Laws/Receiver.lean ====
section
/-! SUPPORT. What the reference receiver makes of the block's events: a whole byte sent while CS is Low becomes one frame,
classified by CD, in both transport modes; a byte sent otherwise is ignored (40_transport.md R123, R129 to R131,
41_framer.md R142). -/

namespace Sys2Proof.Machine

/-- The receiver between whole bytes, having seen the lines at `p`. -/
structure Rx.Rested (c : Cfg) (rx : Rx) (p : Pins) : Prop where
  lv    : rx.lv = p
  count : rx.count = 0
  shift : rx.shift = some 0
  sclk  : ∀ clk dat, c.xport = .sw clk dat → p.sclk ≠ .high

/-- Bit k of the byte at page p is the pixel of row 8p + k (20_memory.md R66). -/
theorem pixel_eq (width : Nat) (d : Dev) (page col k : Nat) (hk : k < 8) :
    d.pixel width (8 * page + k) col = (d.readRam width page col).map fun b => b.getLsbD k := by
  have h1 : (8 * page + k) / 8 = page := by omega
  have h2 : (8 * page + k) % 8 = k := by omega
  simp only [Dev.pixel, h1, h2]

/-- Eight bits of a byte, shifted in most significant first, are the byte (20_memory.md R63). -/
theorem shiftIn_bits (b : Byte) :
    (bitsMsbFirst b).foldl (fun sh x => shiftIn sh (some x)) (some 0) = some b := by
  revert b; decide +kernel

/-- The receiver after one whole byte: one frame and its effect on the controller, the lines as the byte leaves them. -/
def Rx.taken (c : Cfg) (rx : Rx) (f : Frame) (p : Pins) : Rx where
  lv := p
  shift := some 0
  count := 0
  frames := rx.frames ++ [f]
  dev := rx.dev.frame c f

theorem rx_eq (rx : Rx) (lv : Pins) (sh : Option Byte) (n : Nat) (fr : List Frame) (d : Dev)
    (h1 : rx.lv = lv) (h2 : rx.shift = sh) (h3 : rx.count = n) (h4 : rx.frames = fr) (h5 : rx.dev = d) :
    rx = ⟨lv, sh, n, fr, d⟩ := by
  cases rx; simp_all

/-- A byte sent while CS is Low is received as one frame, classified by CD. -/
theorem rx_byteEvents_listening (c : Cfg) (rx : Rx) (p : Pins) (b : Byte) (h : rx.Rested c p) (hcs : p.cs = .low) :
    rx.events c (byteEvents c b) = rx.taken c (classify p.cd (some b)) (linesAfter p (byteEvents c b)) := by
  obtain ⟨lv, sh, n, fr, d⟩ := rx
  obtain ⟨hlv, hn, hsh, hck⟩ := h
  obtain rfl : lv = p := hlv
  obtain rfl : n = 0 := hn
  obtain rfl : sh = some 0 := hsh
  have hb := shiftIn_bits b
  simp only [bitsMsbFirst, List.foldl] at hb
  simp at hb
  cases hx : c.xport with
  | hw =>
    simp [byteEvents, hx, Rx.event, hcs, bitsMsbFirst, Rx.bit, Rx.complete, hb, Rx.taken, linesAfter]
  | sw clk dat =>
    have hck := hck clk dat hx
    have lb : ∀ x : Bool, levelBit (if x = true then Level.high else Level.low) = some x := by decide
    simp [byteEvents, hx, Rx.event, hcs, bitEvents, Rx.edge, Pins.set, Rx.bit, Rx.complete, hb, Rx.taken, linesAfter, lb,
      hck]

/-- A byte sent while CS is not Low is not received; only the levels move (40_transport.md R129, R130). -/
theorem rx_byteEvents_ignored (c : Cfg) (rx : Rx) (b : Byte) (hcs : rx.lv.cs ≠ .low) :
    rx.events c (byteEvents c b) = { rx with lv := linesAfter rx.lv (byteEvents c b) } := by
  cases hx : c.xport with
  | hw => simp [byteEvents, hx, Rx.event, hcs, linesAfter]
  | sw clk dat => simp [byteEvents, hx, Rx.event, hcs, bitEvents, Rx.edge, Pins.set, linesAfter]

/-- Whole bytes leave the receiver between whole bytes. -/
theorem rested_byteEvents (c : Cfg) (rx : Rx) (p : Pins) (b : Byte) (h : rx.Rested c p) :
    (rx.events c (byteEvents c b)).Rested c (linesAfter p (byteEvents c b)) := by
  have hk : ∀ clk dat, c.xport = .sw clk dat → (linesAfter p (byteEvents c b)).sclk ≠ .high := by
    intro clk dat hx; simp [linesAfter_byteEvents_sclk c b p clk dat hx]
  by_cases hcs : p.cs = .low
  · rw [rx_byteEvents_listening c rx p b h hcs]
    exact ⟨rfl, rfl, rfl, hk⟩
  · rw [rx_byteEvents_ignored c rx b (by rw [h.lv]; exact hcs), h.lv]
    exact ⟨rfl, h.count, h.shift, hk⟩

/-- A command sent while CS is Low is received as one command frame (41_framer.md R140, 40_transport.md R131). -/
theorem rx_commandEvents_listening (c : Cfg) (rx : Rx) (p : Pins) (r : Reg) (v : Byte) (h : rx.Rested c p)
    (hcs : p.cs = .low) :
    rx.events c (commandEvents c r v) =
      rx.taken c (.cmd (some (c.regmap.sel r ||| v))) (linesAfter p (commandEvents c r v)) := by
  have hr : ({ rx with lv := p.set .cd .low } : Rx).Rested c (p.set .cd .low) :=
    ⟨rfl, h.count, h.shift, fun clk dat hx => h.sclk clk dat hx⟩
  have he : rx.event c (.pinWrite .cd .low) = { rx with lv := p.set .cd .low } := by
    simp [Rx.event, Rx.edge, h.lv]
  simp only [commandEvents, List.cons_append, rx_events_cons, rx_events_append, he, rx_events_nil,
    rx_byteEvents_listening c _ _ _ hr hcs]
  simp [Rx.event, Rx.edge, Rx.taken, linesAfter, classify, Pins.set]

/-- A command leaves the receiver between whole bytes. -/
theorem rested_commandEvents (c : Cfg) (rx : Rx) (p : Pins) (r : Reg) (v : Byte) (h : rx.Rested c p) :
    (rx.events c (commandEvents c r v)).Rested c (linesAfter p (commandEvents c r v)) := by
  have he : rx.event c (.pinWrite .cd .low) = { rx with lv := p.set .cd .low } := by
    simp [Rx.event, Rx.edge, h.lv]
  have hr : ({ rx with lv := p.set .cd .low } : Rx).Rested c (p.set .cd .low) :=
    ⟨rfl, h.count, h.shift, fun clk dat hx => h.sclk clk dat hx⟩
  have h2 := rested_byteEvents c _ _ (c.regmap.sel r ||| v) hr
  simp only [commandEvents, List.cons_append, rx_events_cons, rx_events_append, he, rx_events_nil, linesAfter,
    linesAfter_append]
  exact ⟨by simp [Rx.event, Rx.edge, h2.lv], by simpa [Rx.event, Rx.edge] using h2.count,
    by simpa [Rx.event, Rx.edge] using h2.shift, fun clk dat hx => by simpa [Pins.set] using h2.sclk clk dat hx⟩

/-- Driving CS Low starts a bracket: the levels move and nothing else (41_framer.md R144). -/
theorem rx_cs_low (c : Cfg) (rx : Rx) : rx.event c (.pinWrite .cs .low) = { rx with lv := rx.lv.set .cs .low } := rfl

/-- Driving CS High with no partial byte: the levels move and nothing else (40_transport.md R132). -/
theorem rx_cs_high (c : Cfg) (rx : Rx) (h0 : rx.count = 0) (h1 : rx.shift = some 0) :
    rx.event c (.pinWrite .cs .high) = { rx with lv := rx.lv.set .cs .high } := by
  cases rx; simp_all [Rx.event, Rx.edge, Rx.clearPartial]

end Sys2Proof.Machine
end

