-- ==== Sys2Proof/Laws/Streamer.lean ====
section
/-! SUPPORT. The streamer runs exactly the acts of `streamActs` in order (44_transfer.md R210, R211), up to the first byte
that cannot be read. -/

namespace Sys2Proof.Machine

/-- The acts of a stream run one after another. -/
def runActs (x : Int) (src : Source) : List StreamAct → State → Flow
  | [], s => .running s
  | .triple page :: rest, s => runActs x src rest (addrTriple (firstColumn x) page s)
  | .byte off :: rest, s =>
    match readSource src off s with
    | .ok b => runActs x src rest (sendData b s)
    | .error r => .raised (raiseFault r s)

theorem runActs_append (x : Int) (src : Source) (as bs : List StreamAct) (s : State) :
    runActs x src (as ++ bs) s = (runActs x src as s).andThen (runActs x src bs) := by
  induction as generalizing s with
  | nil => rfl
  | cons a as ih =>
    cases a with
    | triple page => exact ih _
    | byte off =>
      simp only [List.cons_append, runActs]
      cases readSource src off s with
      | ok b => exact ih _
      | error r => rfl

/-- The columns of a band are the bytes of its unclipped columns (44_transfer.md R205). -/
theorem streamRow_eq (x : Int) (w : Nat) (src : Source) (ty : Nat) (cols : List Nat) (c : Cfg) (s : State)
    (hc : s.cfg = c) :
    streamRow x w src ty cols s =
      runActs x src ((cols.filter fun tx : Nat => inRange (x + tx) c.width).map fun tx : Nat => .byte (w * (ty / 8) + tx)) s := by
  induction cols generalizing s with
  | nil => rfl
  | cons tx rest ih =>
    by_cases h : inRange (x + tx) c.width = true
    · simp only [streamRow, streamByte, hc, h, if_true, List.filter_cons_of_pos, List.map_cons, runActs, sourceOffset]
      cases hr : readSource src (w * (ty / 8) + tx) s with
      | ok b => exact ih _ (by simp [sendData_eq, hc])
      | error r => rfl
    · rw [List.filter_cons_of_neg (by simpa using h)]
      simpa [streamRow, streamByte, hc, h, Flow.andThen] using ih s hc

/-- An operation of the streamer keeps the configuration. -/
def Flow.cfgIs (c : Cfg) : Flow → Prop
  | .running s => s.cfg = c
  | .raised s => s.cfg = c

theorem runActs_cfg (x : Int) (src : Source) (as : List StreamAct) (s : State) :
    (runActs x src as s).cfgIs s.cfg := by
  induction as generalizing s with
  | nil => rfl
  | cons a as ih =>
    cases a with
    | triple page => simpa [runActs, addrTriple_eq] using ih (addrTriple (firstColumn x) page s)
    | byte off =>
      simp only [runActs]
      cases readSource src off s with
      | ok b => simpa [sendData_eq] using ih (sendData b s)
      | error r => rfl

/-- The acts of the bands `ks`, each band `k` with the page of its top row. -/
def bandActs (c : Cfg) (x y : Int) (w : Nat) (ks : List Nat) : List StreamAct :=
  ((ks.map fun k => 8 * k).filter fun ty : Nat => inRange (y + ty) c.height).flatMap fun ty : Nat =>
    .triple ((y + ty) / 8).toNat :: (sentColumns c x w).map fun tx : Nat => .byte (w * (ty / 8) + tx)

/-- The page counter is the page of the band's top row at every written band (44_transfer.md R211). -/
theorem streamBands_eq (x y : Int) (w : Nat) (src : Source) (c : Cfg) (k n page : Nat) (s : State) (hc : s.cfg = c)
    (hneg : y + 8 * k < 0 → page = 0)
    (hpos : 0 ≤ y + 8 * k → y + 8 * k < c.height → page = ((y + 8 * k) / 8).toNat) :
    streamBands x y w src ((List.range' k n).map fun k => 8 * k) page s =
      runActs x src (bandActs c x y w (List.range' k n)) s := by
  induction n generalizing k page s with
  | zero => rfl
  | succ n ih =>
    simp only [List.range'_succ, List.map_cons, streamBands, bandActs, hc]
    by_cases h : inRange (y + ((8 * k : Nat) : Int)) c.height = true
    · have hr : 0 ≤ y + 8 * (k : Int) ∧ y + 8 * (k : Int) < c.height := by
        simpa [inRange] using h
      have hp := hpos hr.1 hr.2
      simp only [h, if_true, List.filter_cons_of_pos, List.flatMap_cons, List.cons_append, runActs]
      rw [runActs_append]
      have e1 : ((y + ((8 * k : Nat) : Int)) / 8).toNat = page := by rw [hp]; push_cast; rfl
      rw [e1, streamRow_eq x w src (8 * k) (List.range w) c _ (by simp [addrTriple_eq, hc])]
      have hcfg := runActs_cfg x src ((sentColumns c x w).map fun tx : Nat => .byte (w * (8 * k / 8) + tx))
        (addrTriple (firstColumn x) page s)
      simp only [sentColumns] at *
      revert hcfg
      cases runActs x src
        (((List.range w).filter fun tx : Nat => inRange (x + tx) c.width).map fun tx : Nat =>
          .byte (w * (8 * k / 8) + tx)) (addrTriple (firstColumn x) page s) with
      | raised s' => intro _; rfl
      | running s' =>
        intro hcfg
        have hcfg' : s'.cfg = c := by simpa [Flow.cfgIs, addrTriple_eq, hc] using hcfg
        exact ih (k + 1) (page + 1) s' hcfg' (by push_cast; omega) (by push_cast; omega)
    · have hr : ¬ (0 ≤ y + 8 * (k : Int) ∧ y + 8 * (k : Int) < c.height) := by
        simpa [inRange] using h
      simp only [h, List.filter_cons]
      exact ih (k + 1) page s hc (by push_cast; omega) (by push_cast; omega)

/-- The streamer runs the acts of 44_transfer.md R210. -/
theorem streamBands_streamActs (x y : Int) (w h : Nat) (src : Source) (s : State) :
    streamBands x y w src (bandTops h) (firstPage y) s = runActs x src (streamActs s.cfg x y w h) s := by
  have := streamBands_eq x y w src s.cfg 0 ((h + 7) / 8) (firstPage y) s rfl
    (by simp [firstPage]; omega) (by simp [firstPage]; omega)
  simpa [bandTops, List.range_eq_range', streamActs, bandActs, writtenBands] using this

/-- What a readable source byte reads as (44_transfer.md R206). -/
theorem readSource_of_readable (src : Source) (off : Nat) (s : State) (h : readable s src off) :
    readSource src off s = .ok (sourceByte s src off) := by
  cases src with
  | buffer =>
    have : ¬ s.cfg.bufLen ≤ off := by have := h.1; omega
    simp [readSource, sourceByte, this, h.2]
  | array bytes =>
    have : off < bytes.length := h
    simp [readSource, sourceByte, List.getElem?_eq_getElem this]

/-- A list of acts begins with a triple. -/
def startsWithTriple : List StreamAct → Prop
  | .byte _ :: _ => False
  | .triple _ :: _ => True
  | [] => True

theorem max_zero_toNat (x : Int) : (max x 0).toNat = x.toNat := by omega

theorem sourceByte_congr (s s' : State) (src : Source) (h : s'.buf = s.buf) : sourceByte s' src = sourceByte s src := by
  cases src <;> funext off <;> simp [sourceByte, readBuf, h]

theorem readable_congr (s s' : State) (src : Source) (off : Nat) (h1 : s'.cfg = s.cfg) (h2 : s'.buf = s.buf) :
    readable s' src off ↔ readable s src off := by
  cases src <;> simp [readable, readBuf, h1, h2]

theorem readSource_congr (s s' : State) (src : Source) (off : Nat) (h1 : s'.cfg = s.cfg) (h2 : s'.buf = s.buf) :
    readSource src off s' = readSource src off s := by
  cases src with
  | buffer => unfold readSource readBuf; rw [h1, h2]
  | array bytes => rfl

/-- Acts whose bytes are all readable run to their end (44_transfer.md R200, R210): the events of the acts, the controller
registers, and nothing else. -/
theorem runActs_readable (x : Int) (src : Source) (as : List StreamAct) (s : State) (hcs : s.pin.cs = .low)
    (hcd : s.pin.cd = .high ∨ startsWithTriple as) (hr : ∀ off, .byte off ∈ as → readable s src off) :
    runActs x src as s =
      .running
        { s.play (as.flatMap (actEvents s.cfg x (sourceByte s src))) with
          devRegs := as.foldl (actRegs x) s.devRegs } := by
  induction as generalizing s with
  | nil => simp [runActs, play_nil]
  | cons a as ih =>
    have hr' : ∀ off, .byte off ∈ as → readable s src off := fun off h => hr off (by simp [h])
    cases a with
    | triple page =>
      simp only [runActs]
      rw [ih]
      · rw [sourceByte_congr s _ src (by simp [addrTriple_eq])]
        simp [addrTriple_eq, State.play, hcs, actEvents, actRegs, firstColumn, colLo, colHi, pageValue, tripleEvents,
          max_zero_toNat]
      · simp [addrTriple_eq, tripleEvents, hcs]
      · left; simp [addrTriple_eq, tripleEvents]
      · exact fun off h => (readable_congr s _ src off (by simp [addrTriple_eq]) (by simp [addrTriple_eq])).2 (hr' off h)
    | byte off =>
      have hcd' : s.pin.cd = .high := by rcases hcd with h | h; exacts [h, h.elim]
      simp only [runActs, readSource_of_readable src off s (hr off (by simp)), sendData_eq]
      rw [ih]
      · rw [sourceByte_congr s { s.play (byteEvents s.cfg (sourceByte s src off)) with marks := dataMarks s.marks s } src rfl]
        simp [State.play, actEvents, actRegs, dataMarks, hcd']
      · simp [hcs]
      · left; simp [hcd']
      · exact fun o h => (readable_congr s _ src o (by simp) (by simp)).2 (hr' o h)

/-- Acts stop at the first byte that cannot be read: its fault is recorded after the events of the acts before it
(44_transfer.md R206, 60_exceptions.md R241). -/
theorem runActs_raised (x : Int) (src : Source) (as bs : List StreamAct) (off : Nat) (r : Fault) (s : State)
    (hcs : s.pin.cs = .low) (hcd : s.pin.cd = .high ∨ startsWithTriple as)
    (hr : ∀ o, .byte o ∈ as → readable s src o) (hf : readSource src off s = .error r) :
    runActs x src (as ++ .byte off :: bs) s =
      .raised
        { s.play (as.flatMap (actEvents s.cfg x (sourceByte s src))) with
          devRegs := as.foldl (actRegs x) s.devRegs
          fault := some r } := by
  rw [runActs_append, runActs_readable x src as s hcs hcd hr]
  simp only [Flow.andThen, runActs]
  rw [readSource_congr s _ src off (by simp) (by simp), hf]
  rfl

theorem streamActs_startsWithTriple (c : Cfg) (x y : Int) (w h : Nat) : startsWithTriple (streamActs c x y w h) := by
  simp only [streamActs]
  cases writtenBands c y h with
  | nil => trivial
  | cons ty rest => simp [startsWithTriple]

/-- Acts are all readable, or split at the first byte that is not. -/
theorem acts_readable_or_split (s : State) (src : Source) (as : List StreamAct) :
    (∀ off, .byte off ∈ as → readable s src off) ∨
      ∃ before off after r, as = before ++ .byte off :: after ∧ (∀ o, .byte o ∈ before → readable s src o) ∧
        readSource src off s = .error r := by
  induction as with
  | nil => left; simp
  | cons a as ih =>
    have ht : (∃ r, ∃ off, a = .byte off ∧ readSource src off s = .error r) ∨
        ∀ off, a = .byte off → readable s src off := by
      cases a with
      | triple page => right; simp
      | byte off =>
        cases src with
        | array bytes =>
          by_cases h : off < bytes.length
          · right; simpa [readable] using h
          · left; exact ⟨.srcOob, off, rfl, by simp [readSource, List.getElem?_eq_none (by omega : bytes.length ≤ off)]⟩
        | buffer =>
          by_cases h : s.cfg.bufLen ≤ off
          · left; exact ⟨.srcOob, off, rfl, by simp [readSource, h]⟩
          · by_cases hd : (readBuf s off).defined = true
            · right; simpa [readable, hd] using h
            · left; exact ⟨.srcUninit, off, rfl, by simp [readSource, h, hd]⟩
    rcases ht with ⟨r, off, rfl, hr⟩ | ht
    · right; exact ⟨[], off, as, r, rfl, by simp, hr⟩
    · rcases ih with ih | ⟨before, off, after, r, rfl, hb, hr⟩
      · left
        intro off h
        rcases List.mem_cons.1 h with h | h
        · exact ht off h.symm
        · exact ih off h
      · right
        refine ⟨a :: before, off, after, r, rfl, ?_, hr⟩
        intro o h
        rcases List.mem_cons.1 h with h | h
        · exact ht o h.symm
        · exact hb o h

/-- A stream whose bytes are all readable (44_transfer.md R200). -/
theorem streamOp_readable (x y : Int) (w h : Nat) (src : Source) (s : State) (hh : h ≤ 248)
    (hr : ∀ off, .byte off ∈ streamActs s.cfg x y w h → readable s src off) :
    streamOp x y w h src s =
      .next
        { s.play (bracketEvents ((streamActs s.cfg x y w h).flatMap (actEvents s.cfg x (sourceByte s src)))) with
          marks := readyMarks s
          devRegs := (streamActs s.cfg x y w h).foldl (actRegs x) s.devRegs } := by
  have hn : ¬ 248 < h := by omega
  have h0 : sourceByte (drive .cs .low (requireReady s)) src = sourceByte s src := sourceByte_congr _ _ _ rfl
  have hrun := runActs_readable x src (streamActs s.cfg x y w h) (drive .cs .low (requireReady s)) rfl
    (.inr (streamActs_startsWithTriple _ _ _ _ _))
    (fun off ho => (readable_congr s _ src off rfl rfl).2 (hr off ho))
  simp only [streamOp, hn, if_false, streamBands_streamActs, drive_cfg, h0] at *
  simp only [requireReady_eq] at *
  rw [hrun]
  simp [drive_eq_play, State.play, bracketEvents]

/-- A stream with a byte that cannot be read (44_transfer.md R206, 60_exceptions.md R241). -/
theorem streamOp_raised (x y : Int) (w h off : Nat) (src : Source) (s : State) (before after : List StreamAct) (r : Fault)
    (hh : h ≤ 248) (ha : streamActs s.cfg x y w h = before ++ .byte off :: after)
    (hr : ∀ o, .byte o ∈ before → readable s src o) (hf : readSource src off s = .error r) :
    streamOp x y w h src s =
      .next
        { s.play (.pinWrite .cs .low :: before.flatMap (actEvents s.cfg x (sourceByte s src))) with
          marks := readyMarks s
          devRegs := before.foldl (actRegs x) s.devRegs
          fault := some r } := by
  have hn : ¬ 248 < h := by omega
  have h0 : sourceByte (drive .cs .low (requireReady s)) src = sourceByte s src := sourceByte_congr _ _ _ rfl
  have hst : startsWithTriple before := by
    have := streamActs_startsWithTriple s.cfg x y w h
    rw [ha] at this
    cases before with
    | nil => trivial
    | cons a rest =>
      cases a with
      | triple page => trivial
      | byte o => exact this
  have hrun := runActs_raised x src before after off r (drive .cs .low (requireReady s)) rfl (.inr hst)
    (fun o ho => (readable_congr s _ src o rfl rfl).2 (hr o ho))
    (by rw [readSource_congr s (drive .cs .low (requireReady s)) src off rfl rfl]; exact hf)
  simp only [streamOp, hn, if_false, streamBands_streamActs, drive_cfg, h0] at *
  simp only [requireReady_eq] at *
  rw [ha, hrun]
  simp [drive_eq_play, State.play]

/-- What a stream can do: refuse, run to its end, or stop at a byte that cannot be read. -/
theorem streamOp_cases (x y : Int) (w h : Nat) (src : Source) (s : State) :
    (248 < h ∧ streamOp x y w h src s = .refused .hTooLarge) ∨
    (h ≤ 248 ∧ (∀ off, .byte off ∈ streamActs s.cfg x y w h → readable s src off) ∧
      streamOp x y w h src s =
        .next
          { s.play (bracketEvents ((streamActs s.cfg x y w h).flatMap (actEvents s.cfg x (sourceByte s src)))) with
            marks := readyMarks s
            devRegs := (streamActs s.cfg x y w h).foldl (actRegs x) s.devRegs }) ∨
    (h ≤ 248 ∧ ∃ before off after r, streamActs s.cfg x y w h = before ++ .byte off :: after ∧
      (∀ o, .byte o ∈ before → readable s src o) ∧ readSource src off s = .error r ∧
      streamOp x y w h src s =
        .next
          { s.play (.pinWrite .cs .low :: before.flatMap (actEvents s.cfg x (sourceByte s src))) with
            marks := readyMarks s
            devRegs := before.foldl (actRegs x) s.devRegs
            fault := some r }) := by
  by_cases hh : 248 < h
  · left; exact ⟨hh, by simp [streamOp, hh]⟩
  · have hh : h ≤ 248 := by omega
    right
    rcases acts_readable_or_split s src (streamActs s.cfg x y w h) with hr | ⟨before, off, after, r, ha, hb, hf⟩
    · left; exact ⟨hh, hr, streamOp_readable x y w h src s hh hr⟩
    · right; exact ⟨hh, before, off, after, r, ha, hb, hf, streamOp_raised x y w h off src s before after r hh ha hb hf⟩

end Sys2Proof.Machine
end

