-- ==== Sys2Proof/Laws/Step.lean ====
section
/-! SUPPORT. What an operation and a step can do, said once: an operation that answers a next state has played a list of
whole events, and the step either changes nothing or is the operation it took. -/

namespace Sys2Proof.Machine

/-- The event lists operations emit, built from whole pieces: a byte, a command, a delay, a write of CS or RST, and the line
setup of `BEGIN`. -/
inductive Whole (c : Cfg) : List Event → Prop where
  | nil : Whole c []
  | byte (b : Byte) (es : List Event) : Whole c es → Whole c (byteEvents c b ++ es)
  | command (r : Reg) (v : Byte) (es : List Event) : Whole c es → Whole c (commandEvents c r v ++ es)
  | delayMs (d : Nat) (es : List Event) : Whole c es → Whole c (.delayMs d :: es)
  | delayUs (d : Nat) (es : List Event) : Whole c es → Whole c (.delayUs d :: es)
  | cs (v : Level) (es : List Event) : Whole c es → Whole c (.pinWrite .cs v :: es)
  | rst (v : Level) (es : List Event) : Whole c es → Whole c (.pinWrite .rst v :: es)
  | setup (es : List Event) : Whole c es → Whole c (setupEvents c ++ es)

theorem Whole.append {c : Cfg} {es fs : List Event} (h : Whole c es) (g : Whole c fs) : Whole c (es ++ fs) := by
  induction h with
  | nil => exact g
  | byte b es _ ih => rw [List.append_assoc]; exact .byte b _ ih
  | command r v es _ ih => rw [List.append_assoc]; exact .command r v _ ih
  | delayMs d es _ ih => exact .delayMs d _ ih
  | delayUs d es _ ih => exact .delayUs d _ ih
  | cs v es _ ih => exact .cs v _ ih
  | rst v es _ ih => exact .rst v _ ih
  | setup es _ ih => rw [List.append_assoc]; exact .setup _ ih

theorem whole_byteEvents (c : Cfg) (b : Byte) : Whole c (byteEvents c b) := by
  simpa using Whole.byte b [] (.nil (c := c))

theorem whole_commandEvents (c : Cfg) (r : Reg) (v : Byte) : Whole c (commandEvents c r v) := by
  simpa using Whole.command r v [] (.nil (c := c))

theorem whole_setupEvents (c : Cfg) : Whole c (setupEvents c) := by simpa using Whole.setup [] (.nil (c := c))

theorem whole_bracketEvents {c : Cfg} {es : List Event} (h : Whole c es) : Whole c (bracketEvents es) :=
  .append (.cs .low _ h) (.cs .high [] .nil)

theorem whole_resetEvents (c : Cfg) : Whole c (resetEvents c) :=
  .rst .low _ (.delayMs _ _ (.rst .high _ (.delayMs _ _ .nil)))

theorem whole_initEvents (c : Cfg) (vbias : Byte) : Whole c (initEvents c vbias) := by
  refine whole_bracketEvents ?_
  repeat' first | exact whole_commandEvents _ _ _ | exact .delayMs _ _ .nil | refine .append ?_ ?_

theorem whole_tripleEvents (c : Cfg) (column page : Nat) : Whole c (tripleEvents c column page) := by
  repeat' first | exact whole_commandEvents _ _ _ | refine .append ?_ ?_

theorem whole_acts (c : Cfg) (x : Int) (bytes : Nat → Byte) (as : List StreamAct) :
    Whole c (as.flatMap (actEvents c x bytes)) := by
  induction as with
  | nil => exact .nil
  | cons a as ih =>
    rw [List.flatMap_cons]
    refine .append ?_ ih
    cases a with
    | triple page => exact whole_tripleEvents _ _ _
    | byte off => exact whole_byteEvents _ _

theorem whole_replicate {c : Cfg} {es : List Event} (h : Whole c es) (n : Nat) :
    Whole c (List.replicate n es).flatten := by
  induction n with
  | zero => exact .nil
  | succ n ih => rw [List.replicate_succ, List.flatten_cons]; exact .append h ih


/-- Whole events leave the receiver between whole bytes (40_transport.md R129 to R132). -/
theorem rested_whole {c : Cfg} {es : List Event} (h : Whole c es) :
    ∀ (rx : Rx) (p : Pins), rx.Rested c p → (rx.events c es).Rested c (linesAfter p es) := by
  induction h with
  | nil => exact fun rx p h => h
  | byte b es _ ih => intro rx p h; simpa using ih _ _ (rested_byteEvents c rx p b h)
  | command r v es _ ih => intro rx p h; simpa using ih _ _ (rested_commandEvents c rx p r v h)
  | delayMs d es _ ih => intro rx p h; exact ih _ _ h
  | delayUs d es _ ih => intro rx p h; exact ih _ _ h
  | cs v es _ ih =>
    intro rx p h; refine ih _ _ ?_
    obtain ⟨h1, h2, h3, h4⟩ := h
    cases v <;> exact ⟨by simp [Rx.event, Rx.edge, Rx.clearPartial, h1], by simp [Rx.event, Rx.edge, Rx.clearPartial, h2], by simp [Rx.event, Rx.edge, Rx.clearPartial, h3], fun a b e => h4 a b e⟩
  | rst v es _ ih =>
    intro rx p h; refine ih _ _ ?_
    obtain ⟨h1, h2, h3, h4⟩ := h
    by_cases hr : rx.lv.rst = .low <;> cases v <;> refine ⟨?_, ?_, ?_, fun a b e => h4 a b e⟩ <;> simp only [Rx.event, Rx.edge, Rx.clearPartial, hr, if_true, if_false] <;> first | assumption | rw [h1]
  | setup es _ ih =>
    intro rx p h
    simp only [rx_events_append, linesAfter_append]
    refine ih _ _ ?_
    obtain ⟨h1, h2, h3, h4⟩ := h
    cases hx : c.xport with
    | hw => simp [setupEvents, hx, Rx.event]; exact ⟨h1, h2, h3, h4⟩
    | sw clk dat =>
      simp [setupEvents, hx, Rx.event, Rx.edge]
      refine ⟨by simp [h1], h2, h3, ?_⟩
      simp [Pins.set]

/-- What whole events keep of the lines: CD not Low, SCLK not High in software mode, the serial lines alone in hardware mode. -/
theorem lines_whole {c : Cfg} {es : List Event} (h : Whole c es) : ∀ p : Pins,
   (p.cd ≠ .low → (linesAfter p es).cd ≠ .low) ∧
   ((∀ a b, c.xport = .sw a b → p.sclk ≠ .high) → (∀ a b, c.xport = .sw a b → (linesAfter p es).sclk ≠ .high)) ∧
   (c.xport = .hw → (linesAfter p es).sclk = p.sclk ∧ (linesAfter p es).sda = p.sda) := by
  induction h with
  | nil => intro p; simp
  | byte b es _ ih =>
    intro p; have := ih (linesAfter p (byteEvents c b))
    simp only [linesAfter_append]
    refine ⟨fun h => this.1 (by simpa using h), fun h => this.2.1 (fun a b' e => by simp [linesAfter_byteEvents_sclk c b p a b' e]), fun h => ?_⟩
    rw [linesAfter_byteEvents_hw c b p h]; exact (ih p).2.2 h
  | command r v es _ ih =>
    intro p; have := ih (linesAfter p (commandEvents c r v))
    simp only [linesAfter_append]
    refine ⟨fun h => this.1 (by simp), fun h => this.2.1 (fun a b' e => by simp [commandEvents, Pins.set, linesAfter_byteEvents_sclk c _ _ a b' e]), fun h => ?_⟩
    have := this.2.2 h
    rw [this.1, this.2]; simp [commandEvents, linesAfter_byteEvents_hw c _ _ h, Pins.set]
  | delayMs d es _ ih => intro p; exact ih p
  | delayUs d es _ ih => intro p; exact ih p
  | cs v es _ ih => intro p; exact ih (p.set .cs v)
  | rst v es _ ih => intro p; exact ih (p.set .rst v)
  | setup es _ ih =>
    intro p
    simp only [linesAfter_append]
    cases hx : c.xport with
    | hw => simpa [setupEvents, hx] using ih p
    | sw clk dat => 
      have := ih ((p.set .sclk .low).set .sda .low)
      simp [setupEvents, hx]
      exact ⟨fun h => this.1 (by simpa [Pins.set] using h), fun _ => this.2.1 (fun a b e => by simp [Pins.set]) _ _ hx⟩

/-- `t` is `s` after the events `es`, with changes only to the fields an operation writes besides. -/
def Plays (es : List Event) (s t : State) : Prop :=
  Whole s.cfg es ∧
    t = { s.play es with
          pinsConfigured := t.pinsConfigured, ctl := t.ctl, marks := t.marks, fault := t.fault, buf := t.buf,
          devRegs := t.devRegs }

/-- What an operation that answers a next state has done: played whole events and changed nothing else but
`pinsConfigured`, `ctl`, `marks`, `fault`, `buf` and `devRegs`. -/
theorem exec_plays {i : Instr} {s t : State} (h : exec i s = .next t) : ∃ es, Plays es s t := by
  have stream : ∀ {x y : Int} {w h : Nat} {src : Source}, streamOp x y w h src s = .next t → ∃ es, Plays es s t := by
    intro x y w hh src he
    rcases streamOp_cases x y w hh src s with ⟨_, e⟩ | ⟨_, _, e⟩ | ⟨_, before, off, after, r, _, _, _, e⟩
    · rw [e] at he; cases he
    · rw [e] at he; cases he
      exact ⟨_, whole_bracketEvents (whole_acts _ _ _ _), rfl⟩
    · rw [e] at he; cases he
      exact ⟨_, .cs .low _ (whole_acts _ _ _ _), rfl⟩
  have command : ∀ {r : Reg} {v : Byte}, Host.Outcome.next (sendCommand r v s) = (.next t : Result) →
      ∃ es, Plays es s t := by
    intro r v he
    rw [sendCommand_eq] at he; cases he
    exact ⟨_, whole_commandEvents _ _ _, rfl⟩
  have data : ∀ {b : Byte}, Host.Outcome.next (sendData b s) = (.next t : Result) → ∃ es, Plays es s t := by
    intro b he
    rw [sendData_eq] at he; cases he
    exact ⟨_, whole_byteEvents _ _, rfl⟩
  have display : ∀ {r : Reg} {v : Byte} {m : Marks},
      Host.Outcome.next (displayCommand r v { s with marks := m }) = (.next t : Result) → ∃ es, Plays es s t := by
    intro r v m he
    rw [displayCommand_eq] at he; cases he
    exact ⟨_, whole_bracketEvents (whole_commandEvents _ _ _), rfl⟩
  have internal : ∀ {run : State → Result}, whenInternal s run = .next t → run s = .next t := by
    intro run he
    cases hi : s.issuer <;> simp [whenInternal, hi] at he
    exact he
  have wire : ∀ {run : State → Result}, whenWire s run = .next t → run s = .next t := by
    intro run he
    cases hi : s.issuer <;> simp [whenWire, hi] at he
    exact he
  cases i with
  | beginOp v =>
    simp only [exec, execBegin, beginOp_eq] at h; cases h
    exact ⟨_, .append (.append (whole_setupEvents _) (whole_resetEvents _)) (whole_initEvents _ _), rfl⟩
  | reset =>
    simp only [exec, execReset, resetOp_eq] at h; cases h
    exact ⟨_, whole_resetEvents _, rfl⟩
  | displayEnable v => simp only [exec, execDisplayEnable, requireReady_eq] at h; exact display h
  | scroll v => simp only [exec, execScroll, requireReady_eq] at h; exact display h
  | orient v => simp only [exec, execOrient, requireReady_eq] at h; exact display h
  | invert v => simp only [exec, execInvert, requireReady_eq] at h; exact display h
  | allOn v => simp only [exec, execAllOn, requireReady_eq] at h; exact display h
  | setPixel x y m =>
    simp only [exec, execSetPixel, setPixel] at h
    cases h
    refine ⟨[], .nil, ?_⟩
    split <;> simp [play_nil, writeBuf]
  | clearBuffer =>
    simp only [exec, execClearBuffer] at h; cases h
    exact ⟨[], .nil, by simp [play_nil, clearBuffer]⟩
  | transfer x y w hh => exact stream h
  | bitmap x y w hh img => exact stream h
  | fillScreen p d =>
    simp only [exec, execFillScreen, bracket, drive_eq_play, repeatOp_sendData_delay_eq, requireReady_eq] at h; cases h
    exact ⟨_, whole_bracketEvents (whole_replicate
      (.append (whole_byteEvents s.cfg p) (.delayUs d [] .nil)) (screenBytes s.cfg)), by simp [State.play, bracketEvents]⟩
  | fillPage p =>
    simp only [exec, execFillPage, bracket, drive_eq_play, repeatOp_sendData_eq, requireReady_eq] at h; cases h
    exact ⟨_, whole_bracketEvents (whole_replicate (whole_byteEvents s.cfg p) (pageBytes s.cfg)),
      by simp [State.play, bracketEvents]⟩
  | sendByte b =>
    have h := internal (run := fun s => .next (Machine.sendByte b s)) h
    rw [sendByte_eq_play] at h; cases h
    exact ⟨_, whole_byteEvents _ _, rfl⟩
  | sendCommand r v => exact command (internal (run := fun s => .next (sendCommand _ _ s)) h)
  | sendData b => exact data (internal (run := fun s => .next (sendData _ s)) h)
  | initRegs v =>
    have h := internal (run := fun s => .next (Machine.initRegs v s)) h
    rw [initRegs_eq] at h; cases h
    exact ⟨_, whole_initEvents _ _, rfl⟩
  | stream x y w hh src => exact stream (internal h)
  | addrTriple col page =>
    have h := internal (run := fun s => .next (Machine.addrTriple col page s)) h
    rw [addrTriple_eq] at h; cases h
    exact ⟨_, whole_tripleEvents _ _ _, rfl⟩
  | data b => exact data (wire (run := fun s => .next (sendData _ s)) h)
  | cmdTempcomp => exact command (wire (run := fun s => .next (sendCommand _ _ s)) h)
  | cmdAddrmode => exact command (wire (run := fun s => .next (sendCommand _ _ s)) h)
  | cmdFramerate => exact command (wire (run := fun s => .next (sendCommand _ _ s)) h)
  | cmdBias => exact command (wire (run := fun s => .next (sendCommand _ _ s)) h)
  | cmdPower => exact command (wire (run := fun s => .next (sendCommand _ _ s)) h)
  | cmdGain v => exact command (wire (run := fun s => .next (sendCommand _ _ s)) h)
  | cmdDispen v => exact command (wire (run := fun s => .next (sendCommand _ _ s)) h)
  | cmdOrient v => exact command (wire (run := fun s => .next (sendCommand _ _ s)) h)
  | cmdScroll v => exact command (wire (run := fun s => .next (sendCommand _ _ s)) h)
  | cmdInverse v => exact command (wire (run := fun s => .next (sendCommand _ _ s)) h)
  | cmdAllon v => exact command (wire (run := fun s => .next (sendCommand _ _ s)) h)
  | cmdColLo n => exact command (wire (run := fun s => .next (sendCommand _ _ s)) h)
  | cmdColHi n => exact command (wire (run := fun s => .next (sendCommand _ _ s)) h)
  | cmdPage n => exact command (wire (run := fun s => .next (sendCommand _ _ s)) h)

/-- What a step that answers a next state has done: nothing, with an empty queue, or one operation. -/
theorem step_next_cases {s t : State} (h : step s = .next t) :
    (s.pending = [] ∧ t = s) ∨ ∃ a i rest, s.fault = none ∧ exec i (issue a rest s) = .next t := by
  unfold step at h
  cases hf : s.fault with
  | some r => simp [hf] at h
  | none =>
    cases hp : s.pending with
    | nil =>
      simp only [hf, hp] at h
      cases h
      exact .inl ⟨rfl, rfl⟩
    | cons it rest =>
      simp only [hf, hp] at h
      cases hi : fetchItem s it with
      | error r => simp [hi] at h
      | ok ai => simp only [hi] at h; exact .inr ⟨ai.1, ai.2, rest, rfl, h⟩

end Sys2Proof.Machine
end

