-- ==== Sys2Proof/Tests/Slice0.lean ====
section
/-! SUPPORT. Tests. Expected results are those of 95_test_vectors.md or written by hand from the rule named; each test is one
operation on a small state. After them, for every statement with hypotheses, a concrete case that meets them. -/

namespace Sys2Proof.Tests

open Sys2Proof.Machine

/-! ### States -/

/-- A panel of 8 by 16 pixels, two pages, its buffer as large, hardware mode, the reference tables. -/
def small : Cfg :=
  { Cfg.reference with
    width := 8, height := 16, bufWidth := 8, bufHeight := 16, tRstLow := 1, tRstRec := 2, tInitStab := 3, tHalf := 4 }

/-- The same in software mode. -/
def smallSw : Cfg := { small with xport := .sw 1 2 }

/-- The panel of 95_test_vectors.md, with delays a test can count. -/
def big : Cfg := { Cfg.reference with tRstLow := 1, tRstRec := 2, tInitStab := 3, tHalf := 4 }

/-- A machine at rest after `BEGIN`: lines High, READY, the controller from its reset. -/
def ready (c : Cfg) : State :=
  let p : Pins := ⟨.high, .high, .high, match c.xport with | .hw => .unknown | .sw _ _ => .low,
    match c.xport with | .hw => .unknown | .sw _ _ => .low⟩
  { State.initial c with
    pin := p, pinsConfigured := true, ctl := .ready, rx := { Rx.initial with lv := p, dev := Dev.afterReset } }

/-- The same with the Block issuing, CS Low and CD at a level. -/
def held (c : Cfg) (cd : Level) : State :=
  let p := { (ready c).pin with cs := .low, cd := cd }
  { ready c with pin := p, rx := { (ready c).rx with lv := p }, issuer := .block }

/-- The Block issuing. -/
def byBlock (s : State) : State := { s with issuer := .block }

/-- A cleared buffer of the small panel. -/
def cleared (s : State) : State := { s with buf := bufClear s.buf s.cfg.bufLen }

/-- The state an operation ends in. -/
def ended (r : Result) : Option State :=
  match r with
  | .next s => some s
  | .fault _ => none
  | .refused _ => none

/-- The refusal an operation ends in. -/
def refusal (r : Result) : Option Refusal :=
  match r with
  | .next _ => none
  | .fault _ => none
  | .refused x => some x

/-- The frames of an operation from a state that has none. -/
def framesOf (i : Instr) (s : State) : Option (List Frame) := (ended (exec i s)).map fun t => t.rx.frames

/-- The events of an operation from a state that has none. -/
def eventsOf (i : Instr) (s : State) : Option (List Event) := (ended (exec i s)).map fun t => t.trace

/-- A command frame, a data frame. -/
def C (b : Byte) : Frame := .cmd (some b)
def D (b : Byte) : Frame := .data (some b)

/-! ### Operand ranges: an ill-formed term for each check -/

theorem test_wf_setPixel_x : (Instr.setPixel 32768 0 .set).wellFormed = false := by decide
theorem test_wf_setPixel_y : (Instr.setPixel 0 (-32769) .set).wellFormed = false := by decide
theorem test_wf_transfer_x : (Instr.transfer (-32769) 0 1 8).wellFormed = false := by decide
theorem test_wf_transfer_y : (Instr.transfer 0 32768 1 8).wellFormed = false := by decide
theorem test_wf_transfer_w : (Instr.transfer 0 0 256 8).wellFormed = false := by decide
theorem test_wf_transfer_h : (Instr.transfer 0 0 1 256).wellFormed = false := by decide
theorem test_wf_bitmap_x : (Instr.bitmap 32768 0 1 8 []).wellFormed = false := by decide
theorem test_wf_bitmap_y : (Instr.bitmap 0 32768 1 8 []).wellFormed = false := by decide
theorem test_wf_bitmap_w : (Instr.bitmap 0 0 256 8 []).wellFormed = false := by decide
theorem test_wf_bitmap_h : (Instr.bitmap 0 0 1 256 []).wellFormed = false := by decide
theorem test_wf_stream_x : (Instr.stream 32768 0 1 8 .buffer).wellFormed = false := by decide
theorem test_wf_stream_y : (Instr.stream 0 32768 1 8 .buffer).wellFormed = false := by decide
theorem test_wf_stream_w : (Instr.stream 0 0 256 8 .buffer).wellFormed = false := by decide
theorem test_wf_stream_h : (Instr.stream 0 0 1 256 .buffer).wellFormed = false := by decide
theorem test_wf_addrTriple_column : (Instr.addrTriple 32768 0).wellFormed = false := by decide
theorem test_wf_addrTriple_page : (Instr.addrTriple 0 256).wellFormed = false := by decide
theorem test_wf_tall_is_wellFormed : (Instr.transfer (-32768) 32767 255 255).wellFormed = true := by decide

/-! ### Decoding wire bytes: the reference map of 93_implementation_defined.md G1 to G3, written out -/

theorem test_dec_tempcomp : decodeTableWord 8 0b00100111 = some .cmdTempcomp := by decide
theorem test_dec_addrmode : decodeTableWord 8 0b10001010 = some .cmdAddrmode := by decide
theorem test_dec_framerate : decodeTableWord 8 0b10100001 = some .cmdFramerate := by decide
theorem test_dec_bias : decodeTableWord 8 0b11101011 = some .cmdBias := by decide
theorem test_dec_power : decodeTableWord 8 0b00101111 = some .cmdPower := by decide
theorem test_dec_gain : decodeTableWord 8 0b11001001 = some (.cmdGain 0x48) := by decide
theorem test_dec_dispen : decodeTableWord 8 0b10101111 = some (.cmdDispen 1) := by decide
theorem test_dec_orient : decodeTableWord 8 0b11000110 = some (.cmdOrient 6) := by decide
theorem test_dec_scroll : decodeTableWord 8 0b01111111 = some (.cmdScroll 63) := by decide
theorem test_dec_inverse : decodeTableWord 8 0b10100111 = some (.cmdInverse 1) := by decide
theorem test_dec_allon : decodeTableWord 8 0b10100101 = some (.cmdAllon 1) := by decide
theorem test_dec_colLo : decodeTableWord 8 0b00001110 = some (.cmdColLo 14) := by decide
theorem test_dec_colHi : decodeTableWord 8 0b00011011 = some (.cmdColHi 11) := by decide
theorem test_dec_page : decodeTableWord 8 0b10110111 = some (.cmdPage 7) := by decide
theorem test_dec_data : decodeWire small .data [0b10110111] = .ok (.data 0xB7) := by decide
theorem test_dec_unassigned : decodeTableWord 8 0b00100000 = none := by decide
/-- Log 13's choice: 0xAE OR 0x40 and 0x40 OR 0x90, sent by DISPLAY_ENABLE 0x40 and SCROLL 0x90, match no row. -/
theorem test_dec_outside_value_field :
    decodeTableWord 8 0xEE = none ∧ decodeTableWord 8 0xD0 = none ∧
    framesOf (.displayEnable 0x40) (ready small) = some [C 0xEE] := by decide
/-- A gain selector of five bits is tried before the page row's four (30_encoding.md R102). -/
theorem test_dec_more_mask_bits_first :
    matchRows (wireRows { small with regmap := { small.regmap with gain := 0xF1, page := 0xF0 } }) 0xF3 =
      some (.cmdGain 0x02) := by decide
theorem test_dec_two_bytes : decodeWire small .command [0x81, 0x49] = .error .wireLength := by decide
theorem test_dec_empty : decodeWire small .data [] = .error .wireLength := by decide
theorem test_dec_wide_word : decodeTableWord 16 0x0027 = none := by decide

/-! ### Decoding lines (30_encoding.md R100, R101, and the programs of 95_test_vectors.md) -/

/-- A line's text. -/
def line (cs : List Char) : Except Reject Instr := decodeLine [([0x69, 0x6D, 0x67], [1, 2, 3])] small (ascii cs)

theorem test_line_begin : line ['B', 'E', 'G', 'I', 'N', ' ', '0', 'x', '4', '9'] = .ok (.beginOp 0x49) := by decide
theorem test_line_reset : line ['R', 'E', 'S', 'E', 'T'] = .ok .reset := by decide
theorem test_line_displayEnable :
    line ['D', 'I', 'S', 'P', 'L', 'A', 'Y', '_', 'E', 'N', 'A', 'B', 'L', 'E', ' ', '0'] = .ok (.displayEnable 0) := by
  decide
theorem test_line_scroll : line ['S', 'C', 'R', 'O', 'L', 'L', ' ', '6', '4'] = .ok (.scroll 64) := by decide
theorem test_line_orient :
    line ['O', 'R', 'I', 'E', 'N', 'T', ' ', '0', 'x', '0', '5', ' ', ';', ' ', 'N'] = .ok (.orient 5) := by decide
theorem test_line_invert : line ['I', 'N', 'V', 'E', 'R', 'T', ' ', '1'] = .ok (.invert 1) := by decide
theorem test_line_allOn : line ['A', 'L', 'L', '_', 'O', 'N', ' ', '1'] = .ok (.allOn 1) := by decide
theorem test_line_setPixel :
    line ['S', 'E', 'T', '_', 'P', 'I', 'X', 'E', 'L', ' ', '-', '1', ',', ' ', '6', '3', ',', 'C', 'L', 'E', 'A', 'R'] =
      .ok (.setPixel (-1) 63 .clear) := by decide
theorem test_line_clearBuffer :
    line ['C', 'L', 'E', 'A', 'R', '_', 'B', 'U', 'F', 'F', 'E', 'R'] = .ok .clearBuffer := by decide
theorem test_line_transfer :
    line ['T', 'R', 'A', 'N', 'S', 'F', 'E', 'R', ' ', '8', ',', ' ', '-', '8', ',', ' ', '4', ',', '2', '4', '9'] =
      .ok (.transfer 8 (-8) 4 249) := by decide
theorem test_line_bitmap :
    line ['B', 'I', 'T', 'M', 'A', 'P', ' ', '0', ',', '0', ',', '1', ',', '8', ',', ' ', '@', 'i', 'm', 'g'] =
      .ok (.bitmap 0 0 1 8 [1, 2, 3]) := by decide
theorem test_line_bitmap_unknown :
    line ['B', 'I', 'T', 'M', 'A', 'P', ' ', '0', ',', '0', ',', '1', ',', '8', ',', ' ', '@', 'x'] =
      .error .unknownName := by decide
theorem test_line_fillScreen :
    line ['F', 'I', 'L', 'L', '_', 'S', 'C', 'R', 'E', 'E', 'N', ' ', '0', 'x', 'F', 'F'] = .ok (.fillScreen 0xFF 0) := by
  decide
theorem test_line_fillScreen_delay :
    line ['F', 'I', 'L', 'L', '_', 'S', 'C', 'R', 'E', 'E', 'N', ' ', '0', ',', ' ', '3', '0', '0'] =
      .ok (.fillScreen 0 300) := by decide
theorem test_line_fillPage :
    line ['F', 'I', 'L', 'L', '_', 'P', 'A', 'G', 'E', ' ', '1', '7', '0'] = .ok (.fillPage 0xAA) := by decide
theorem test_line_flush : line ['F', 'L', 'U', 'S', 'H'] = .ok (.transfer 0 0 8 16) := by decide
theorem test_line_displayOn :
    line ['D', 'I', 'S', 'P', 'L', 'A', 'Y', '_', 'O', 'N'] = .ok (.displayEnable 1) := by decide
theorem test_line_displayOff :
    line ['D', 'I', 'S', 'P', 'L', 'A', 'Y', '_', 'O', 'F', 'F'] = .ok (.displayEnable 0) := by decide
theorem test_line_internal :
    line ['S', 'E', 'N', 'D', '_', 'B', 'Y', 'T', 'E', ' ', '0'] = .error .internalOperation := by decide
theorem test_line_range : line ['S', 'C', 'R', 'O', 'L', 'L', ' ', '2', '5', '6'] = .error .outOfRange := by decide
theorem test_line_unknown : line ['N', 'O', 'P'] = .error .unknownMnemonic := by decide
theorem test_line_operands : line ['R', 'E', 'S', 'E', 'T', ' ', '1'] = .error .badOperands := by decide
theorem test_line_blank : line [' ', ';', 'x'] = .error .blankLine := by decide
theorem test_encode_setPixel :
    encodeLine [] (.setPixel (-120) 63 .invert) =
      some (ascii ['S', 'E', 'T', '_', 'P', 'I', 'X', 'E', 'L', ' ', '-', '1', '2', '0', ',', ' ', '6', '3', ',', ' ',
        'I', 'N', 'V', 'E', 'R', 'T']) := by decide
theorem test_encode_colHi : encodeWire small (.cmdColHi 0xB) = some (.command, 0x1B) := by decide
theorem test_program_lines :
    programLines (ascii ['R', 'E', 'S', 'E', 'T', '\n', ' ', ';', 'x', '\n', 'F', 'L', 'U', 'S', 'H']) =
      [ascii ['R', 'E', 'S', 'E', 'T'], ascii ['F', 'L', 'U', 'S', 'H']] := by decide

/-! ### Transport and framer (95_test_vectors.md X1 to X6, F1 to F5) -/

theorem test_X1 : eventsOf (.sendByte 0xA5) (byBlock (ready small)) = some [.spiByte 0xA5] := by decide
theorem test_X2 :
    (eventsOf (.sendByte 0xA5) (byBlock (ready smallSw))).map (fun es => (es.length, es.take 6, es.getLast?)) =
      some (40,
        [.pinWrite .sda .high, .pinWrite .sclk .high, .delayUs 4, .pinWrite .sclk .low, .delayUs 4, .pinWrite .sda .low],
        some (.delayUs 4)) := by decide +kernel
theorem test_X3 : framesOf (.sendByte 0xA5) (held smallSw .high) = some [D 0xA5] := by decide +kernel
theorem test_X6 : framesOf (.data 0x12) (byBlock (ready small)) = some [] := by decide
theorem test_F1 :
    eventsOf (.sendCommand .page 3) (held small .high) = some [.pinWrite .cd .low, .spiByte 0xB3, .pinWrite .cd .high] := by
  decide
theorem test_F2 :
    (ended (exec (.sendData 0x01) (held small .high))).map (fun t => (t.trace, t.marks)) =
      some ([.spiByte 0x01], Marks.empty) := by decide
theorem test_F3 :
    (ended (exec (.sendData 0x01) (byBlock (State.initial small)))).map (fun t => (t.trace, t.marks.dataCdNotHigh)) =
      some ([.spiByte 0x01], true) := by decide
theorem test_F4 : framesOf (.cmdScroll 0x41) (held small .high) = some [C 0x41] := by decide
theorem test_F5 :
    eventsOf (.transfer 0 0 8 0) (ready small) = some [.pinWrite .cs .low, .pinWrite .cs .high] := by decide

/-! ### Lifecycle (95_test_vectors.md L1.1, V-B1 to V-P1) -/

theorem test_VB1_frames :
    framesOf (.beginOp 0x49) (State.initial small) =
      some [C 0x27, C 0x8A, C 0xA1, C 0xEB, C 0x2F, C 0x81, C 0xC9, C 0xAF, C 0xC4] := by decide +kernel
theorem test_VB2 :
    (ended (exec (.beginOp 0x49) (State.initial smallSw))).map
        (fun t => (t.trace.length, t.rx.frames.length, t.ctl, t.pin.sclk)) =
      some (393, 9, .ready, .low) := by decide +kernel
theorem test_initRegs_gain_twice :
    (framesOf (.initRegs 0x49) (byBlock (ready small))).map (fun fs => (fs.drop 5).take 2) = some [C 0x81, C 0xC9] := by
  decide +kernel
theorem test_VRST1 :
    eventsOf .reset (ready small) = some [.pinWrite .rst .low, .delayMs 1, .pinWrite .rst .high, .delayMs 2] := by decide
theorem test_VRST2 :
    (ended (exec .reset (State.initial small))).map (fun t => (t.ctl, t.marks.preReady)) = some (.resetting, true) := by
  decide
theorem test_VD1 :
    eventsOf (.displayEnable 0) (ready small) =
      some [.pinWrite .cs .low, .pinWrite .cd .low, .spiByte 0xAE, .pinWrite .cd .high, .pinWrite .cs .high] := by decide
theorem test_VS2 :
    (ended (exec (.scroll 64) (ready small))).map (fun t => (t.rx.frames, t.marks)) = some ([C 0x40], Marks.empty) := by
  decide
theorem test_VS3 :
    (ended (exec (.scroll 65) (ready small))).map (fun t => (t.rx.frames, t.marks.scrollRange)) =
      some ([C 0x41], true) := by decide
theorem test_VO1 : framesOf (.orient 0x02) (ready small) = some [C 0xC2] := by decide
theorem test_VO2 : framesOf (.orient 0x05) (ready small) = some [C 0xC4] := by decide
theorem test_VI1 : framesOf (.invert 1) (ready small) = some [C 0xA7] := by decide
theorem test_VA1 : framesOf (.allOn 1) (ready small) = some [C 0xA5] := by decide
theorem test_E8 :
    (ended (exec (.scroll 70) (State.initial small))).map (fun t => t.marks) = some ⟨true, true, false⟩ := by decide

/-! ### Pixel buffer (95_test_vectors.md B1 to B7) -/

/-- A byte of the buffer of the 192 by 64 machine after one operation. -/
def bufAfter (i : Instr) (s : State) (k : Nat) : Option TByte := (ended (exec i s)).map fun t => readBuf t k

/-- The 192 by 64 machine with one known byte. -/
def oneByte (k : Nat) (b : Byte) : State := { ready big with buf := [(k, ⟨b, 0xFF⟩)] }

theorem test_B1 : bufAfter (.setPixel 5 10 .set) (oneByte 197 0x00) 197 = some ⟨0x04, 0xFF⟩ := by decide
theorem test_B4 : bufAfter (.setPixel 191 63 .set) (oneByte 1535 0x00) 1535 = some ⟨0x80, 0xFF⟩ := by decide
theorem test_B5 : (ended (exec (.setPixel 192 0 .set) (oneByte 0 0x00))).map (fun t => t.buf) = some [(0, ⟨0, 0xFF⟩)] := by
  decide
theorem test_B7 : bufAfter (.setPixel 0 0 .invert) (ready big) 0 = some ⟨0x00, 0x00⟩ := by decide
theorem test_clearBuffer_last : bufAfter .clearBuffer (ready small) 15 = some ⟨0x00, 0xFF⟩ := by decide +kernel
theorem test_clearBuffer_past : bufAfter .clearBuffer (ready small) 16 = some ⟨0x00, 0x00⟩ := by decide +kernel
theorem test_hostRead_past : hostRead (cleared (ready small)) 16 = none := by decide +kernel

/-! ### Streams (95_test_vectors.md T1 to T18) -/

theorem test_T1 :
    framesOf (.bitmap (-2) 0 4 8 [0xA, 0xB, 0xC, 0xD]) (ready big) = some [C 0x00, C 0x10, C 0xB0, D 0xC, D 0xD] := by
  decide +kernel
theorem test_T2 :
    (ended (exec (.bitmap 190 0 4 8 [0xA, 0xB, 0xC, 0xD]) (ready big))).map
        (fun t => (t.rx.frames, t.rx.dev.col, t.rx.dev.page)) =
      some ([C 0x0E, C 0x1B, C 0xB0, D 0xA, D 0xB], some 0, some 1) := by decide +kernel
theorem test_T5 : framesOf (.bitmap 0 (-4) 1 16 [0x11, 0x22]) (ready big) = some [C 0x00, C 0x10, C 0xB0, D 0x22] := by
  decide +kernel
theorem test_T14 :
    (ended (exec (.bitmap 0 0 2 8 [0x77]) (ready big))).map (fun t => (t.rx.frames, t.fault, t.pin.cs)) =
      some ([C 0x00, C 0x10, C 0xB0, D 0x77], some .srcOob, .low) := by decide +kernel
theorem test_T15 :
    (ended (exec (.transfer 0 0 1 8) (ready big))).map (fun t => (t.rx.frames, t.fault)) =
      some ([C 0x00, C 0x10, C 0xB0], some .srcUninit) := by decide +kernel
theorem test_T16 : refusal (exec (.transfer 0 0 1 249) (ready big)) = some .hTooLarge := by decide
theorem test_stream_T9 :
    framesOf (.stream 0 0 1 12 (.array [0x11, 0x22])) (byBlock (ready big)) =
      some [C 0x00, C 0x10, C 0xB0, D 0x11, C 0x00, C 0x10, C 0xB1, D 0x22] := by decide +kernel
theorem test_stream_T3 :
    framesOf (.stream 0 56 2 16 (.array [0xA, 0xB, 0xC, 0xD])) (byBlock (ready big)) =
      some [C 0x00, C 0x10, C 0xB7, D 0xA, D 0xB] := by decide +kernel
theorem test_addrTriple : framesOf (.addrTriple 190 7) (held small .high) = some [C 0x0E, C 0x1B, C 0xB7] := by
  decide +kernel
theorem test_addrTriple_high_bits : framesOf (.addrTriple 0x1BE 7) (held small .high) = some [C 0x0E, C 0x1B, C 0xB7] := by
  decide +kernel

/-! ### Fills (95_test_vectors.md L-F1 to L-F4, on the small panel: 16 bytes, 2 bytes) -/

theorem test_fillScreen :
    (ended (exec (.fillScreen 0xFF 5) (ready small))).map
        (fun t => (t.rx.frames == List.replicate 16 (D 0xFF), t.rx.dev.ram.length, t.rx.dev.col, t.rx.dev.page,
          t.trace.length)) =
      some (true, 16, some 0, some 0, 34) := by decide +kernel
theorem test_fillPage :
    (ended (exec (.fillPage 0x55) (ready small))).map (fun t => (t.rx.frames, t.rx.dev.ram, t.trace.length)) =
      some ([D 0x55, D 0x55], [(0, 0x55), (1, 0x55)], 4) := by decide +kernel

/-! ### Wire bytes and the receiver (95_test_vectors.md RX1 to RX4) -/

/-- What a command byte leaves in the controller. -/
def devAfter (i : Instr) : Option Dev := (ended (exec i (held small .high))).map fun t => t.rx.dev

theorem test_colLo : (devAfter (.cmdColLo 5)).map (fun d => d.col) = some (some 5) := by decide
theorem test_colHi : (devAfter (.cmdColHi 0xA)).map (fun d => d.col) = some (some 0xA0) := by decide
theorem test_page : (devAfter (.cmdPage 3)).map (fun d => d.page) = some (some 3) := by decide
theorem test_tempcomp : (devAfter .cmdTempcomp).map (fun d => d.cmdLog) = some (some [0x27]) := by decide
theorem test_addrmode : (devAfter .cmdAddrmode).map (fun d => d.cmdLog) = some (some [0x8A]) := by decide
theorem test_framerate : (devAfter .cmdFramerate).map (fun d => d.cmdLog) = some (some [0xA1]) := by decide
theorem test_bias : (devAfter .cmdBias).map (fun d => d.cmdLog) = some (some [0xEB]) := by decide
theorem test_power : (devAfter .cmdPower).map (fun d => d.cmdLog) = some (some [0x2F]) := by decide
theorem test_gain : (devAfter (.cmdGain 0x49)).map (fun d => d.cmdLog) = some (some [0xC9]) := by decide
theorem test_dispen : (devAfter (.cmdDispen 1)).map (fun d => d.cmdLog) = some (some [0xAF]) := by decide
theorem test_orient : (devAfter (.cmdOrient 6)).map (fun d => d.cmdLog) = some (some [0xC6]) := by decide
theorem test_inverse : (devAfter (.cmdInverse 1)).map (fun d => d.cmdLog) = some (some [0xA7]) := by decide
theorem test_allon : (devAfter (.cmdAllon 1)).map (fun d => d.cmdLog) = some (some [0xA5]) := by decide
theorem test_gain_as_page :
    (devAfter (.cmdGain 0x32)).map (fun d => (d.page, d.cmdLog)) = some (some 3, some []) := by decide
theorem test_data_wraps :
    (ended (exec (.data 0xFF) { held small .high with
        rx := { (held small .high).rx with dev := ⟨some 7, some 0, some 1, [], some []⟩ } })).map (fun t => t.rx.dev) =
      some ⟨some 0, some 0, some 0, [(15, 0xFF)], some []⟩ := by decide

/-- Bit 3 of the byte at page 1 is row 11 (20_memory.md R66); the rows beside it are 0, the byte beside it Unknown. -/
theorem test_pixel_row :
    ((ended (exec (.data 0x08) { held small .high with
        rx := { (held small .high).rx with dev := ⟨some 2, some 0, some 1, [], some []⟩ } })).map fun t =>
          (t.rx.dev.pixel 8 11 2, t.rx.dev.pixel 8 10 2, t.rx.dev.pixel 8 11 3)) =
      some (some true, some false, none) := by decide

/-! ### Refusals and construction (95_test_vectors.md E1 to E7) -/

/-- Construction of a geometry, its buffer and its two pin identifiers. -/
def built (w h bw bh : Nat) (clk dat : Option Nat) : Option Refusal :=
  match construct ⟨{ small with width := w, height := h, bufWidth := bw, bufHeight := bh }, clk, dat⟩ with
  | .ok _ => none
  | .error r => some r

theorem test_E1 : built 192 60 192 56 none none = some .badGeometry := by decide
theorem test_E2 : built 257 64 192 64 none none = some .badGeometry := by decide
theorem test_E3 : built 192 136 192 64 none none = some .badGeometry := by decide
theorem test_E4 : built 192 64 200 64 none none = some .badBuffer := by decide
theorem test_E5 : built 192 64 192 60 none none = some .badBuffer := by decide
theorem test_E6 : built 192 64 192 64 none (some 5) = some .badTransport := by decide
theorem test_E7 : refusal (exec (.sendByte 0) (ready small)) = some .internalOp := by decide
theorem test_first_failure : built 0 64 200 64 none (some 5) = some .badGeometry := by decide
theorem test_built : built 256 128 255 128 (some 1) (some 2) = none := by decide

/-- The refusal of a construction of the small panel with a delay, a display-on value and a fourth orientation code. -/
def builtWith (recovery : Nat) (on m3 : Byte) : Option Refusal :=
  match construct ⟨{ small with
      tRstRec := recovery, valDisplayOn := on, orientCode := { small.orientCode with m3 := m3 } }, none, none⟩ with
  | .ok _ => none
  | .error r => some r

/-- 00_scope.md R10: T_RST_REC > T_RST_LOW (1), VAL_DISPLAY_ON 0x01, four distinct codes (0x04, 0x02, 0x06 and the last). -/
theorem test_bad_parameters :
    builtWith 2 0x01 0x00 = none ∧ builtWith 1 0x01 0x00 = some .badParameter ∧
    builtWith 2 0x00 0x00 = some .badParameter ∧ builtWith 2 0x01 0x06 = some .badParameter := by decide

/-- 42_lifecycle.md R162: BEGIN 0x49 leaves the gain at 0x49; the scroll register, which it does not send, is in its reset
state; before it every register holds the value of construction (70_reset_and_hazards.md R271, R274). -/
theorem test_registers_hold_values :
    (ended (exec (.beginOp 0x49) (State.initial small))).map (fun t => (t.devRegs.get .gain, t.devRegs.get .scroll)) =
      some (0x49, Config.regAfterReset .scroll) ∧
    (State.initial small).devRegs.get .scroll = Config.regAtConstruction .scroll := ⟨rfl, rfl⟩

/-! ### The step -/

theorem test_step_word_first :
    (ended (step (State.reset.withFetchWord 8 0xB3))).map (fun t => t.trace) =
      some [.pinWrite .cd .low, .spiByte 0xB3, .pinWrite .cd .high] := by decide
theorem test_step_host_line :
    (ended (step (hostIssues (ascii ['S', 'C', 'R', 'O', 'L', 'L', ' ', '1', '0']) (ready small)))).map
        (fun t => (t.rx.frames, t.pending)) = some ([C 0x4A], []) := by decide +kernel
theorem test_step_internal_line :
    refusal (step (hostIssues (ascii ['S', 'T', 'R', 'E', 'A', 'M']) (ready small))) = some .internalOp := by decide
theorem test_reset_is_open : State.reset.pending = [] ∧ State.reset.ctl = .uninitialized := by decide

/-! ### Witnesses: for each statement with hypotheses, a state and operands that meet them together -/

theorem rest_ready (c : Cfg) : (ready c).ReceiverAtRest := by
  refine ⟨rfl, ⟨rfl, rfl⟩, ?_⟩
  intro clk dat h
  have h : c.xport = .sw clk dat := h
  simp [ready, h]

theorem rest_held (c : Cfg) (cd : Level) : (held c cd).ReceiverAtRest := by
  refine ⟨rfl, ⟨rfl, rfl⟩, ?_⟩
  intro clk dat h
  have h : c.xport = .sw clk dat := h
  simp [held, ready, h]

theorem lines_ready (c : Cfg) : (ready c).LinesAtRest := by
  refine ⟨by simp [ready], by simp [ready], ?_, ?_⟩
  · intro clk dat h
    have h : c.xport = .sw clk dat := h
    simp [ready, h]
  · intro h
    have h : c.xport = .hw := h
    simp [ready, h]

theorem witness_WireDecodeLosesNoBit :
    decodeWire smallSw .command [0xFF] = .ok (.cmdGain 0x7E) ∧ decodeWire smallSw .data [0xFF] = .ok (.data 0xFF) := by
  decide

theorem witness_WireEncodeThenDecode :
    small.regmap = RegMap.reference ∧ small.initvals = InitVals.reference ∧
    encodeWire small (.cmdGain 0x48) = some (.command, 0xC9) ∧ encodeWire small (.cmdDispen 1) = some (.command, 0xAF) ∧
    encodeWire small (.cmdInverse 0) = some (.command, 0xA6) ∧ encodeWire small (.cmdAllon 1) = some (.command, 0xA5) ∧
    encodeWire small (.cmdOrient 6) = some (.command, 0xC6) ∧ encodeWire small (.cmdScroll 63) = some (.command, 0x7F) ∧
    encodeWire small (.cmdPage 15) = some (.command, 0xBF) ∧ encodeWire small .cmdBias = some (.command, 0xEB) ∧
    encodeWire small (.data 0) = some (.data, 0) := by decide

theorem witness_LineEncodeThenDecode :
    (Instr.bitmap (-32768) 32767 255 255 [1, 2]).wellFormed = true ∧
    encodeLine [0x61] (.bitmap (-32768) 32767 255 255 [1, 2]) ≠ none ∧ HostArrays.find [([0x61], [1, 2])] [0x61] = some [1, 2] ∧
    (∀ b ∈ ([0x61] : List Byte), b ≠ 0x20 ∧ b ≠ 0x09 ∧ b ≠ 0x2C ∧ b ≠ 0x3B) ∧
    encodeLine [] (.fillScreen 255 1000) ≠ none := by decide

/-- The small machine with one item to take. -/
def waiting (it : Item) : State := { ready small with pending := [it] }

theorem witness_StepRunsTheNextOperation :
    (waiting (.wire .command [0xB1])).fault = none ∧ decodeWire small .command [0xB1] = .ok (.cmdPage 1) ∧
    (Instr.cmdPage 1).wellFormed = true ∧ (waiting (.inner (.sendByte 0))).pending = [.inner (.sendByte 0)] ∧
    (waiting (.call .reset)).pending = [.call .reset] ∧
    decodeLine [] small (ascii ['R', 'E', 'S', 'E', 'T']) = .ok .reset := by decide

theorem witness_StepAtTheEndOfARun :
    ({ ready small with fault := some .srcOob } : State).fault = some .srcOob ∧ (ready small).fault = none ∧
    (ready small).pending = [] := by decide

theorem witness_BadItemsAreRefused :
    decodeWire small .command [0x20] = .error .unassignedCommand ∧
    decodeLine [] small (ascii ['S', 'T', 'R', 'E', 'A', 'M']) = .error .internalOperation ∧
    decodeLine [] small (ascii ['N', 'O', 'P']) = .error .unknownMnemonic ∧
    (waiting (.call (.setPixel 40000 0 .set))).pending = [.call (.setPixel 40000 0 .set)] ∧
    (Instr.setPixel 40000 0 .set).wellFormed = false := by decide

theorem witness_OperationRefusals :
    refusal (exec (.sendData 0) (ready small)) = some .internalOp ∧ refusal (exec (.transfer 0 0 1 249) (ready small)) = some .hTooLarge ∧
    refusal (exec (.bitmap 0 0 1 255 []) (ready small)) = some .hTooLarge ∧
    refusal (exec (.stream 0 0 1 249 .buffer) (byBlock (ready small))) = some .hTooLarge ∧
    refusal (exec (.stream 0 0 1 249 .buffer) (ready small)) = some .internalOp ∧
    built 8 12 8 8 none none = some .badGeometry ∧ built 8 16 9 8 none none = some .badBuffer ∧
    built 8 16 8 8 (some 1) none = some .badTransport := by decide

/-- For `OperationRefusals` and `ConstructionChecksInOrder`: parameters that meet 00_scope.md R10. -/
theorem witness_parameters :
    small.tRstLow < small.tRstRec ∧ small.valDisplayOn = 0x01 ∧
    ∀ o p, small.orientCode.code o = small.orientCode.code p → o = p :=
  (parametersOk_iff small).1 (by decide)

theorem witness_EveryHostCallCompletes :
    (Instr.transfer (-5) 3 255 248).format = .hostOp ∧ 248 ≤ 248 ∧ (Instr.bitmap 0 0 1 248 []).format = .hostOp := by decide

theorem witness_WireBytesAreTheBlocks : (Instr.data 0).format = .wire ∧ (ready small).issuer = .host := by decide

theorem witness_SendByteHardware : (held small .high).issuer = .block ∧ (held small .high).cfg.xport = .hw := by decide

theorem witness_SendByteSoftware : (held smallSw .high).issuer = .block ∧ (held smallSw .high).cfg.xport = .sw 1 2 := by
  decide

/-- For `SendCommandRuns`, `SendDataRuns`, `InitRegsRuns`, `AddrTripleRuns`, `RegisterCommandBytesRun` and
`AddressingAndDataBytesRun`, whose one hypothesis on the state is that the Block issues. -/
theorem witness_block_issues : (held small .high).issuer = .block := by decide

theorem witness_SelectedByteIsOneFrame :
    (held smallSw .low).issuer = .block ∧ (held smallSw .low).ReceiverAtRest ∧ (held smallSw .low).pin.cs = .low ∧
    (∃ t, exec (.sendByte 0xA5) (held smallSw .low) = .next t) ∧ (held small .high).ReceiverAtRest ∧
    (∃ t, exec (.sendByte 0xA5) (held small .high) = .next t) ∧ (held small .unknown).ReceiverAtRest ∧
    ∃ t, exec (.sendByte 0xA5) (held small .unknown) = .next t :=
  ⟨rfl, rest_held _ _, rfl, ⟨_, rfl⟩, rest_held _ _, ⟨_, rfl⟩, rest_held _ _, ⟨_, rfl⟩⟩

theorem witness_UnselectedBytesAreIgnored :
    (byBlock (ready smallSw)).issuer = .block ∧ (byBlock (ready smallSw)).ReceiverAtRest ∧
    (byBlock (ready smallSw)).pin.cs ≠ .low ∧ (∃ t, exec (.sendCommand .page 1) (byBlock (ready smallSw)) = .next t) ∧
    ∃ t, exec (.sendData 1) (byBlock (ready smallSw)) = .next t :=
  ⟨rfl, ⟨rfl, ⟨rfl, rfl⟩, (rest_ready smallSw).sclk_low⟩, by decide, ⟨_, rfl⟩, ⟨_, rfl⟩⟩

theorem witness_TransportModesAgree :
    (ready small).cfg.xport = .hw ∧ (ready smallSw).cfg.xport = .sw 1 2 ∧ SameButTransport (ready small) (ready smallSw) ∧
    (ready small).ReceiverAtRest ∧ (ready smallSw).ReceiverAtRest ∧ (∃ s', exec (.scroll 3) (ready small) = .next s') ∧
    exec (.sendByte 3) (ready small) = .refused .internalOp :=
  ⟨rfl, rfl, ⟨rfl, rfl, rfl, rfl, rfl, rfl, rfl, rfl, rfl, rfl, rfl, rfl, rfl, rfl, rfl⟩, rest_ready _, rest_ready _,
    ⟨_, rfl⟩, rfl⟩

theorem witness_DisplayControlsRun :
    ((Instr.displayEnable 0 = .displayEnable 0 ∧ Reg.dispen = .dispen) ∧
      (Instr.invert 1 = .invert 1 ∧ Reg.inverse = .inverse)) ∧ Instr.allOn 255 = .allOn 255 ∧ Reg.allon = .allon := by decide

theorem witness_OrientRuns_recognised : ∃ o, (0x06 : Byte) = small.orientCode.code o := ⟨.m2, by decide⟩

theorem witness_OrientRuns_other : ¬ ∃ o, (0x05 : Byte) = small.orientCode.code o := by
  rintro ⟨o, h⟩
  cases o <;> revert h <;> decide

theorem witness_UnreadyOperationsAreMarked :
    (∃ t, exec (.scroll 65) (State.initial small) = .next t) ∧ (∃ t, exec (.fillScreen 0 0) (State.initial small) = .next t) ∧
    (∃ t, exec (.transfer 0 0 1 8) (State.initial small) = .next t) ∧
    ∃ t, exec (.bitmap 0 0 1 8 [1]) (ready small) = .next t :=
  ⟨⟨_, rfl⟩, ⟨_, rfl⟩, ⟨_, rfl⟩, ⟨_, rfl⟩⟩

/-- For `ControllerStateTransitions`, `RecordsOnlyGrow`, `RegisterRecordFollowsCommands` and `BracketsReleaseChipSelect`:
operations that answer a next state. -/
theorem witness_operations_complete :
    (∃ t, exec (.beginOp 0x49) (State.initial small) = .next t) ∧ (∃ t, exec .reset (ready small) = .next t) ∧
    (∃ t, exec (.displayEnable 1) (ready small) = .next t) ∧ (∃ t, exec (.addrTriple 7 1) (held small .high) = .next t) ∧
    ∃ t, exec (.cmdGain 7) (held small .high) = .next t :=
  ⟨⟨_, rfl⟩, ⟨_, rfl⟩, ⟨_, rfl⟩, ⟨_, rfl⟩, ⟨_, rfl⟩⟩

/-- For `RegisterRecordFollowsCommands`: a stream whose second byte is missing completes with its fault, and one that is all
there; `witness_ReadableStreamRuns` and `witness_UnreadableStreamFaults_image` give the readable and unreadable offsets,
`witness_OrientRuns_recognised` and `witness_OrientRuns_other` the two kinds of orientation byte. -/
theorem witness_RegisterRecordFollowsCommands :
    (∃ t, exec (.bitmap 0 0 2 8 [7]) (ready small) = .next t) ∧
    (∃ t, exec (.bitmap 0 0 1 8 [7]) (ready small) = .next t) ∧ ¬ readable (ready small) (.array [7]) 1 ∧
    (∃ t, exec (.orient 0x06) (ready small) = .next t) ∧ ∃ t, exec (.orient 0x05) (ready small) = .next t :=
  ⟨⟨_, rfl⟩, ⟨_, rfl⟩, by simp [readable], ⟨_, rfl⟩, ⟨_, rfl⟩⟩

theorem witness_RecordsOnlyGrow :
    ({ ready small with marks := ⟨true, true, true⟩, fault := some .srcOob } : State).marks.has .scrollRange = true ∧
    ({ ready small with marks := ⟨true, true, true⟩, fault := some .srcOob } : State).fault ≠ none := by decide

theorem witness_BracketsReleaseChipSelect :
    ((ended (exec (.bitmap 0 0 1 8 [1]) (ready small))).map fun t => (t.fault, t.pin.cs)) = some (none, .high) ∧
    ((ended (exec (.initRegs 1) (byBlock (ready small)))).map fun t => (t.fault, t.pin.cs)) = some (none, .high) ∧
    (ready small).fault = none ∧ (ready small).pin.cs = .high := by decide +kernel

theorem witness_SetPixelWritesOneBit :
    (0 ≤ (7 : Int) ∧ (7 : Int) < (ready small).cfg.bufWidth ∧ 0 ≤ (15 : Int) ∧ (15 : Int) < (ready small).cfg.bufHeight) ∧
    ¬ (0 ≤ (8 : Int) ∧ (8 : Int) < (ready small).cfg.bufWidth ∧ 0 ≤ (0 : Int) ∧ (0 : Int) < (ready small).cfg.bufHeight) := by
  decide

theorem witness_OnlyTwoOperationsWriteTheBuffer :
    (∃ t, exec (.fillPage 1) (cleared (ready small)) = .next t) ∧ (∀ x y mode, Instr.fillPage 1 ≠ .setPixel x y mode) ∧
    Instr.fillPage 1 ≠ .clearBuffer :=
  ⟨⟨_, rfl⟩, by simp, by simp⟩

/-- For `ReadableStreamRuns` and `StreamSendsItsFrames`: an image as long as it must be, a cleared buffer, and the Block's
own stream of either. -/
theorem witness_ReadableStreamRuns :
    (ready small).ReceiverAtRest ∧ (cleared (ready small)).ReceiverAtRest ∧
    (∀ off, .byte off ∈ streamActs small (-1) 0 2 16 → readable (ready small) (.array [1, 2, 3, 4]) off) ∧
    (∀ off, .byte off ∈ streamActs small 6 8 4 8 → readable (cleared (ready small)) .buffer off) ∧
    (byBlock (cleared (ready small))).issuer = .block := by
  refine ⟨rest_ready _, ⟨rfl, ⟨rfl, rfl⟩, (rest_ready small).sclk_low⟩, ?_, ?_, rfl⟩
  · intro off h
    have e : streamActs small (-1) 0 2 16 = [.triple 0, .byte 1, .triple 1, .byte 3] := by decide
    rw [e] at h
    simp at h
    rcases h with rfl | rfl <;> simp [readable]
  · intro off h
    have e : streamActs small 6 8 4 8 = [.triple 1, .byte 0, .byte 1] := by decide
    rw [e] at h
    simp at h
    rcases h with rfl | rfl <;> exact ⟨by decide, by decide +kernel⟩

theorem witness_UnreadableStreamFaults_image :
    streamActs small 0 0 2 8 = [.triple 0, .byte 0] ++ .byte 1 :: [] ∧ readable (ready small) (.array [7]) 0 ∧
    [(7 : Byte)].length ≤ 1 := by
  exact ⟨by decide, by simp [readable], by decide⟩

theorem witness_UnreadableStreamFaults_buffer :
    streamActs small 0 0 1 8 = [.triple 0] ++ .byte 0 :: [] ∧ 0 < (ready small).cfg.bufLen ∧
    (readBuf (ready small) 0).defined = false ∧
    streamActs { small with bufWidth := 1, bufHeight := 8 } 0 0 2 8 = [.triple 0, .byte 0] ++ .byte 1 :: [] ∧
    ({ small with bufWidth := 1, bufHeight := 8 } : Cfg).bufLen ≤ 1 ∧
    (readBuf { ready small with buf := [(0, ⟨0, 0xFF⟩)] } 0).defined = true := by decide

theorem witness_TallStreamIsRefused : 248 < 249 ∧ (byBlock (ready small)).issuer = .block := by decide

theorem witness_InBoundsStreamCounts :
    (12 : Nat) ≤ 248 ∧ (ready small).ReceiverAtRest ∧ 0 ≤ (2 : Int) ∧ (2 : Int) + (6 : Nat) ≤ (ready small).cfg.width ∧
    0 ≤ (4 : Int) ∧ (4 : Int) + (12 : Nat) ≤ (ready small).cfg.height ∧
    6 * ((12 + 7) / 8) ≤ (List.replicate 12 (0 : Byte)).length :=
  ⟨by decide, rest_ready _, by decide, by decide, by decide, by decide, by decide⟩

/-- The cursor at the last column of the last page. -/
def lastByte (s : State) : State := { s with rx := { s.rx with dev := ⟨some 7, some 0, some 1, [], some []⟩ } }

theorem witness_FillScreenCoversTheRam :
    cfgOk (lastByte (ready small)).cfg = true ∧ (lastByte (ready small)).determined ∧
    (lastByte (ready small)).ctl = .ready ∧ (lastByte (ready small)).ReceiverAtRest ∧
    (lastByte (ready small)).pin.cd = .high ∧ (lastByte (ready small)).rx.dev.col = some 7 ∧
    (lastByte (ready small)).rx.dev.page = some 1 ∧ 7 < (lastByte (ready small)).cfg.width ∧
    (1 : Nibble).toNat < (lastByte (ready small)).cfg.pages :=
  ⟨by decide, ⟨by decide, by decide⟩, rfl, ⟨rfl, ⟨rfl, rfl⟩, (rest_ready small).sclk_low⟩, rfl, by decide, rfl, by decide,
    by decide⟩

theorem witness_RegisterCommandBytesRun :
    (held smallSw .high).issuer = .block ∧
    ([.cmdTempcomp, .cmdAddrmode, .cmdFramerate, .cmdBias, .cmdPower, .cmdGain 255, .cmdDispen 1, .cmdOrient 6, .cmdScroll 63,
      .cmdInverse 1, .cmdAllon 0, .cmdColLo 15, .cmdColHi 0, .cmdPage 1, .data 9].all fun i =>
        (ended (exec i (held smallSw .high))).isSome) = true := by decide +kernel

/-- For `CommandFramesAreDecoded` and `AddressingBytesMoveTheCursor`: a command for each of the four cases. -/
theorem witness_CommandFramesAreDecoded :
    (held small .high).issuer = .block ∧ (held small .high).ReceiverAtRest ∧ (held small .high).pin.cs = .low ∧
    addressable (held small .high).cfg.regmap = true ∧
    (small.regmap.sel .colLo ||| 0x0F) &&& 0xF0 = small.regmap.colLo ∧
    (small.regmap.sel .colHi ||| 0x00) &&& 0xF0 = small.regmap.colHi ∧
    (small.regmap.sel .gain ||| 0x32) &&& 0xF0 = small.regmap.page ∧
    (small.regmap.sel .scroll ||| 0x0A) &&& 0xF0 ≠ small.regmap.colLo ∧
    (small.regmap.sel .scroll ||| 0x0A) &&& 0xF0 ≠ small.regmap.colHi ∧
    (small.regmap.sel .scroll ||| 0x0A) &&& 0xF0 ≠ small.regmap.page :=
  ⟨rfl, rest_held _ _, rfl, by decide, by decide, by decide, by decide, by decide, by decide, by decide⟩

theorem witness_DataByteIsStoredAndAdvances :
    (lastByte (held small .high)).issuer = .block ∧ (lastByte (held small .high)).ReceiverAtRest ∧
    cfgOk (lastByte (held small .high)).cfg = true ∧ (lastByte (held small .high)).pin.cs = .low ∧
    (lastByte (held small .high)).pin.cd = .high ∧ (lastByte (held small .high)).rx.dev.col = some 7 ∧
    (lastByte (held small .high)).rx.dev.page = some 1 ∧ 7 < small.width ∧ (1 : Nibble).toNat < small.pages ∧
    (State.initial small).rx.dev.col = none ∧ (lastByte (held small .high)).rx.dev.page = some 1 :=
  ⟨rfl, ⟨rfl, ⟨rfl, rfl⟩, (rest_held small .high).sclk_low⟩, by decide, rfl, rfl, by decide, rfl, by decide, by decide,
    by decide, rfl⟩

theorem witness_UnclassifiedByteUndoesTheController :
    (held smallSw .unknown).issuer = .block ∧ (held smallSw .unknown).ReceiverAtRest ∧
    (held smallSw .unknown).pin.cs = .low ∧ (held smallSw .unknown).pin.cd = .unknown :=
  ⟨rfl, rest_held _ _, rfl, rfl⟩

/-- For the statements about every step, `ConfigurationNeverChanges` among them: a machine that meets the invariants and
steps. -/
theorem witness_steps :
    cfgOk (waiting (.call (.setPixel 7 15 .set))).cfg = true ∧ (waiting (.call (.setPixel 7 15 .set))).memWf = true ∧
    (waiting (.call .reset)).LinesAtRest ∧ (State.initial smallSw).LinesAtRest ∧ (State.initial smallSw).ReceiverFollows ∧
    (∃ t, step (waiting (.call (.setPixel 7 15 .set))) = .next t) ∧ (∃ t, step (waiting (.call .reset)) = .next t) ∧
    ∃ t, step { State.initial smallSw with pending := [.call (.beginOp 1)] } = .next t :=
  ⟨by decide, by decide, ⟨(lines_ready small).1, (lines_ready small).2, (lines_ready small).3, (lines_ready small).4⟩,
    ⟨by decide, by decide, fun _ _ _ => by decide, fun _ => by decide⟩, ⟨rfl, rfl, rfl, rfl⟩, ⟨_, rfl⟩, ⟨_, rfl⟩, ⟨_, rfl⟩⟩

theorem witness_ConstructedMachineIsAtRest :
    construct ⟨small, some 1, some 2⟩ = .ok (State.initial smallSw) := by rfl

theorem witness_HardwareModeLeavesSerialLines :
    (ready small).cfg.xport = .hw ∧ ∃ t, exec (.beginOp 0) (ready small) = .next t := ⟨rfl, ⟨_, rfl⟩⟩

theorem witness_WaitEventCounts :
    (ended (exec (.scroll 1) (ready smallSw))).map (fun t => (t.trace.length, t.fault)) = some (44, none) := by
  decide +kernel

theorem witness_ConstructionChecksInOrder :
    built 256 128 255 128 none none = none ∧ built 1 8 1 8 (some 1) (some 2) = none ∧
    built 0 8 0 8 none none = some .badGeometry ∧ built 256 128 256 128 none none = some .badBuffer ∧
    built 8 8 8 8 none (some 0) = some .badTransport := by decide

end Sys2Proof.Tests
end

section
/-! PROOFS. What the step and construction answer, an equation for each case, and from them the statements of 00_scope.md. -/

namespace Sys2Proof.Machine

/-! ### The step -/

/-- 60_exceptions.md R250. -/
theorem step_of_fault {s : State} {r : Fault} (hf : s.fault = some r) : step s = .fault r := by
  simp [step, hf]

/-- 00_scope.md R9. -/
theorem step_of_pending_nil {s : State} (hf : s.fault = none) (hp : s.pending = []) : step s = .next s := by
  simp [step, hf, hp]

theorem step_of_fetchItem_ok {s : State} {it : Item} {rest : List Item} {a : Agent} {i : Instr} (hf : s.fault = none)
    (hp : s.pending = it :: rest) (h : fetchItem s it = .ok (a, i)) : step s = exec i (issue a rest s) := by
  simp [step, hf, hp, h]

theorem fetchItem_of_readItem_ok {s : State} {it : Item} {a : Agent} {i : Instr} (h : readItem s it = .ok (a, i))
    (hw : i.wellFormed = true) : fetchItem s it = .ok (a, i) := by
  simp [fetchItem, h, hw]

theorem readItem_wire_ok {s : State} {cls : WireClass} {bytes : List Byte} {i : Instr}
    (h : decodeWire s.cfg cls bytes = .ok i) : readItem s (.wire cls bytes) = .ok (.block, i) := by
  simp [readItem, h]

theorem readItem_line_ok {s : State} {text : List Byte} {i : Instr} (h : decodeLine s.arrays s.cfg text = .ok i) :
    readItem s (.line text) = .ok (.host, i) := by
  simp [readItem, h]

/-- The step executes what its head item reads as, if the operands lie in their types (00_scope.md R7). -/
theorem step_of_readItem_ok {s : State} {it : Item} {rest : List Item} {a : Agent} {i : Instr} (hf : s.fault = none)
    (hw : i.wellFormed = true) (hp : s.pending = it :: rest) (h : readItem s it = .ok (a, i)) :
    step s = exec i (issue a rest s) :=
  step_of_fetchItem_ok hf hp (fetchItem_of_readItem_ok h hw)

/-! ### Construction -/

/-- 10_state.md R33: one identifier without the other selects no transport. -/
theorem modeOf_cases (clk data : Option Nat) :
    (clk.isSome = data.isSome ∧ ∃ x, modeOf clk data = .ok x) ∨
      (clk.isSome ≠ data.isSome ∧ modeOf clk data = .error .badTransport) := by
  cases clk <;> cases data <;> simp [modeOf]

theorem construct_of_geometry {q : CfgRequest} (hg : geometryOk q.base = false) : construct q = .error .badGeometry := by
  simp [construct, hg]

theorem construct_of_buffer {q : CfgRequest} (hg : geometryOk q.base = true) (hb : bufferOk q.base = false) :
    construct q = .error .badBuffer := by
  simp [construct, hg, hb]

theorem construct_of_transport {q : CfgRequest} {r : Refusal} (hc : cfgOk q.base = true)
    (hm : modeOf q.clkPin q.dataPin = .error r) : construct q = .error r := by
  obtain ⟨hg, hb⟩ := Bool.and_eq_true_iff.mp hc
  simp [construct, hg, hb, hm]

theorem construct_of_parameters {q : CfgRequest} {x : Xport} (hc : cfgOk q.base = true)
    (hm : modeOf q.clkPin q.dataPin = .ok x) (hp : parametersOk q.base = false) :
    construct q = .error .badParameter := by
  obtain ⟨hg, hb⟩ := Bool.and_eq_true_iff.mp hc
  simp [construct, hg, hb, hm, hp]

theorem construct_of_accepted {q : CfgRequest} {x : Xport} (hc : cfgOk q.base = true)
    (hm : modeOf q.clkPin q.dataPin = .ok x) (hp : parametersOk q.base = true) :
    construct q = .ok (State.initial { q.base with xport := x }) := by
  obtain ⟨hg, hb⟩ := Bool.and_eq_true_iff.mp hc
  simp [construct, hg, hb, hm, hp]

/-- What construction can answer, the checks in the order of 60_exceptions.md R242. -/
theorem construct_cases (q : CfgRequest) :
    (cfgOk q.base = false ∧ (construct q = .error .badGeometry ∨ construct q = .error .badBuffer)) ∨
    (cfgOk q.base = true ∧ q.clkPin.isSome ≠ q.dataPin.isSome ∧ construct q = .error .badTransport) ∨
    (cfgOk q.base = true ∧ q.clkPin.isSome = q.dataPin.isSome ∧ parametersOk q.base = false ∧
      construct q = .error .badParameter) ∨
    (cfgOk q.base = true ∧ q.clkPin.isSome = q.dataPin.isSome ∧ parametersOk q.base = true ∧
      ∃ x, construct q = .ok (State.initial { q.base with xport := x })) := by
  cases hg : geometryOk q.base with
  | false => exact .inl ⟨by simp [cfgOk, hg], .inl (construct_of_geometry hg)⟩
  | true =>
    cases hb : bufferOk q.base with
    | false => exact .inl ⟨by simp [cfgOk, hb], .inr (construct_of_buffer hg hb)⟩
    | true =>
      have hc : cfgOk q.base = true := by simp [cfgOk, hg, hb]
      obtain ⟨hpins, x, hm⟩ | ⟨hpins, hm⟩ := modeOf_cases q.clkPin q.dataPin
      · cases hp : parametersOk q.base with
        | false => exact .inr (.inr (.inl ⟨hc, hpins, rfl, construct_of_parameters hc hm hp⟩))
        | true => exact .inr (.inr (.inr ⟨hc, hpins, rfl, x, construct_of_accepted hc hm hp⟩))
      · exact .inr (.inl ⟨hc, hpins, construct_of_transport hc hm⟩)

theorem construct_eq_badParameter_iff (q : CfgRequest) :
    construct q = .error .badParameter ↔
      cfgOk q.base = true ∧ q.clkPin.isSome = q.dataPin.isSome ∧ parametersOk q.base = false := by
  obtain ⟨hc, e | e⟩ | ⟨hc, hpins, e⟩ | ⟨hc, hpins, hp, e⟩ | ⟨hc, hpins, hp, x, e⟩ := construct_cases q <;>
    simp [*]

/-- What the last check refuses: a constraint of 00_scope.md R10 that fails. -/
theorem parametersOk_eq_false_iff (c : Cfg) :
    parametersOk c = false ↔
      c.tRstRec ≤ c.tRstLow ∨ c.valDisplayOn ≠ 0x01 ∨ ∃ o p, o ≠ p ∧ c.orientCode.code o = c.orientCode.code p := by
  rw [← Bool.not_eq_true, parametersOk_iff]
  simp only [not_and_or, not_lt, not_forall, exists_prop, ne_eq, and_comm]

/-! ### The constructed state -/

/-- Every line is Unknown, nothing has been emitted, and neither memory lists a byte (70_reset_and_hazards.md R271). -/
theorem initial_inv (c : Cfg) : (State.initial c).Inv where
  lines := ⟨nofun, fun _ => nofun, fun _ _ _ => nofun, fun _ => ⟨rfl, rfl⟩⟩
  receiver := ⟨rfl, rfl, rfl, rfl⟩
  memory := rfl

theorem cfgOk_reference : cfgOk Cfg.reference = true := by decide

/-- The recovery delay is the longer one whatever the open delays are (log 3). -/
theorem parametersOk_reference : parametersOk Cfg.reference = true := by
  have delays : Config.tRstLow < Config.tRstLow + Config.tRstRecExtra + 1 := by omega
  simp [parametersOk, Cfg.reference, OrientCodes.reference, delays]

/-! ### The statements -/

/-- Settles O6: each kind of item reads as its operation and issuer, and the step executes what its head item reads as. -/
theorem stepRunsTheNextOperation : Obligations.StepRunsTheNextOperation := by
  intro s rest i hf hw
  refine ⟨fun cls bytes hp hd => ?_, fun hp => ?_, fun text hp hd => ?_, fun hp => ?_⟩
  · exact step_of_readItem_ok hf hw hp (readItem_wire_ok hd)
  · exact step_of_readItem_ok hf hw hp rfl
  · exact step_of_readItem_ok hf hw hp (readItem_line_ok hd)
  · exact step_of_readItem_ok hf hw hp rfl

/-- Settles O7, by the two end cases of the step. -/
theorem stepAtTheEndOfARun : Obligations.StepAtTheEndOfARun :=
  fun _ => ⟨fun _ => step_of_fault, step_of_pending_nil⟩

/-- Settles O52: construction yields `State.initial` of an accepted configuration, and that state meets the invariants for
every configuration. -/
theorem constructedMachineIsAtRest : Obligations.ConstructedMachineIsAtRest := by
  refine ⟨fun q s h => ?_, cfgOk_reference, parametersOk_reference, initial_inv _, ?_⟩
  · obtain ⟨x, -, hc, hp, rfl⟩ := construct_ok h
    exact ⟨hc, hp, initial_inv _, devRegs_get_atConstruction, rfl, rfl, rfl⟩
  · exact construct_of_accepted (q := ⟨Cfg.reference, none, none⟩) cfgOk_reference rfl parametersOk_reference

/-- Settles O59, by the cases of construction and the meaning of its last check. -/
theorem constructionRefusesBadParameters : Obligations.ConstructionRefusesBadParameters := by
  intro q
  rw [construct_eq_badParameter_iff, parametersOk_eq_false_iff]

end Sys2Proof.Machine
end

section
/-! PROOFS. What each operation leaves of the state, said once for all operations, and from it the statements of
10_state.md: the invariants every step keeps and the fields an operation leaves alone. -/

namespace Sys2Proof.Machine

/-! ### What an operation leaves -/

/-- The operations that are one command outside any bracket, with the register and the value byte each sends
(41_framer.md R140, 30_encoding.md R105 to R118). -/
inductive SendsCommand (c : Cfg) : Instr → Reg → Byte → Prop where
  | sendCommand (r : Reg) (v : Byte) : SendsCommand c (.sendCommand r v) r v
  | tempcomp : SendsCommand c .cmdTempcomp .tempcomp c.initvals.tempcomp
  | addrmode : SendsCommand c .cmdAddrmode .addrmode c.initvals.addrmode
  | framerate : SendsCommand c .cmdFramerate .framerate c.initvals.framerate
  | bias : SendsCommand c .cmdBias .bias c.initvals.bias
  | power : SendsCommand c .cmdPower .power c.initvals.power
  | gain (v : Byte) : SendsCommand c (.cmdGain v) .gain v
  | dispen (v : Byte) : SendsCommand c (.cmdDispen v) .dispen v
  | orient (v : Byte) : SendsCommand c (.cmdOrient v) .orient v
  | scroll (v : Byte) : SendsCommand c (.cmdScroll v) .scroll v
  | inverse (v : Byte) : SendsCommand c (.cmdInverse v) .inverse v
  | allon (v : Byte) : SendsCommand c (.cmdAllon v) .allon v
  | colLo (n : Nibble) : SendsCommand c (.cmdColLo n) .colLo (n.setWidth 8)
  | colHi (n : Nibble) : SendsCommand c (.cmdColHi n) .colHi (n.setWidth 8)
  | page (n : Nibble) : SendsCommand c (.cmdPage n) .page (n.setWidth 8)

/-- The display controls but `SCROLL`, which may set a mark of its own, with the register and the value byte each sends
(42_lifecycle.md R168, R170 to R172). -/
inductive ControlsDisplay (c : Cfg) : Instr → Reg → Byte → Prop where
  | displayEnable (v : Byte) : ControlsDisplay c (.displayEnable v) .dispen v
  | orient (v : Byte) : ControlsDisplay c (.orient v) .orient (orientationCode c.orientCode v)
  | invert (v : Byte) : ControlsDisplay c (.invert v) .inverse v
  | allOn (v : Byte) : ControlsDisplay c (.allOn v) .allon v

/-- The two operations that send one data byte (41_framer.md R141, 30_encoding.md R104). -/
inductive SendsData : Instr → Byte → Prop where
  | sendData (b : Byte) : SendsData (.sendData b) b
  | data (b : Byte) : SendsData (.data b) b

/-- The three forms of a stream (44_transfer.md R200, R207, R208). -/
inductive Streams : Instr → Int → Int → Nat → Nat → Source → Prop where
  | transfer (x y : Int) (w h : Nat) : Streams (.transfer x y w h) x y w h .buffer
  | bitmap (x y : Int) (w h : Nat) (image : List Byte) : Streams (.bitmap x y w h image) x y w h (.array image)
  | stream (x y : Int) (w h : Nat) (src : Source) : Streams (.stream x y w h src) x y w h src

/-- The marks after a fill of `n` data bytes (45_fill.md R230, R231). -/
def fillMarks (n : Nat) (s : State) : Marks := if n = 0 then readyMarks s else dataMarks (readyMarks s) s

/-- The state each operation that completes leaves, an operation of each shape to a case; a stream that stops at a byte it
cannot read is a case of its own. -/
inductive Effect (s : State) : Instr → State → Prop where
  | beginOp (vbias : Byte) :
    Effect s (.beginOp vbias)
      { s.play (setupEvents s.cfg ++ resetEvents s.cfg ++ initEvents s.cfg vbias) with
        pinsConfigured := true, ctl := .ready, devRegs := initDevRegs s.cfg vbias DevRegs.afterReset }
  | reset :
    Effect s .reset
      { s.play (resetEvents s.cfg) with
        ctl := .resetting
        devRegs := DevRegs.afterReset
        marks := { s.marks with preReady := s.marks.preReady || !s.pinsConfigured } }
  | initRegs (vbias : Byte) :
    Effect s (.initRegs vbias)
      { s.play (initEvents s.cfg vbias) with devRegs := initDevRegs s.cfg vbias s.devRegs }
  | display {i : Instr} {r : Reg} {v : Byte} (hi : ControlsDisplay s.cfg i r v) :
    Effect s i
      { s.play (bracketEvents (commandEvents s.cfg r v)) with marks := readyMarks s, devRegs := s.devRegs.set r v }
  | scroll (v : Byte) :
    Effect s (.scroll v)
      { s.play (bracketEvents (commandEvents s.cfg .scroll v)) with
        marks := { readyMarks s with scrollRange := (readyMarks s).scrollRange || decide (64 < v.toNat) }
        devRegs := s.devRegs.set .scroll v }
  | setPixel (x y : Int) (mode : BlendMode) : Effect s (.setPixel x y mode) { s with buf := (setPixel x y mode s).buf }
  | clearBuffer : Effect s .clearBuffer (clearBuffer s)
  | fillScreen (pattern : Byte) (d : Nat) :
    Effect s (.fillScreen pattern d)
      { s.play (bracketEvents (List.replicate (screenBytes s.cfg) (byteEvents s.cfg pattern ++ [.delayUs d])).flatten) with
        marks := fillMarks (screenBytes s.cfg) s }
  | fillPage (pattern : Byte) :
    Effect s (.fillPage pattern)
      { s.play (bracketEvents (List.replicate (pageBytes s.cfg) (byteEvents s.cfg pattern)).flatten) with
        marks := fillMarks (pageBytes s.cfg) s }
  | streamed {i : Instr} {x y : Int} {w h : Nat} {src : Source} (hi : Streams i x y w h src)
      (hr : ∀ off, .byte off ∈ streamActs s.cfg x y w h → readable s src off) :
    Effect s i
      { s.play (bracketEvents ((streamActs s.cfg x y w h).flatMap (actEvents s.cfg x (sourceByte s src)))) with
        marks := readyMarks s, devRegs := (streamActs s.cfg x y w h).foldl (actRegs x) s.devRegs }
  | streamRaised {i : Instr} {x y : Int} {w h off : Nat} {src : Source} {before after : List StreamAct} {r : Fault}
      (hi : Streams i x y w h src) (ha : streamActs s.cfg x y w h = before ++ .byte off :: after)
      (hr : ∀ o, .byte o ∈ before → readable s src o) (hf : readSource src off s = .error r) :
    Effect s i
      { s.play (.pinWrite .cs .low :: before.flatMap (actEvents s.cfg x (sourceByte s src))) with
        marks := readyMarks s, devRegs := before.foldl (actRegs x) s.devRegs, fault := some r }
  | sendByte (b : Byte) : Effect s (.sendByte b) (s.play (byteEvents s.cfg b))
  | data {i : Instr} {b : Byte} (hi : SendsData i b) :
    Effect s i { s.play (byteEvents s.cfg b) with marks := dataMarks s.marks s }
  | command {i : Instr} {r : Reg} {v : Byte} (hi : SendsCommand s.cfg i r v) :
    Effect s i
      { s.play (commandEvents s.cfg r v) with
        devRegs := if s.pin.cs = .low then s.devRegs.set r v else s.devRegs }
  | addrTriple (column page : Nat) :
    Effect s (.addrTriple column page)
      { s.play (tripleEvents s.cfg column page) with
        devRegs :=
          if s.pin.cs = .low then
            ((s.devRegs.set .colLo (colLo column)).set .colHi (colHi column)).set .page (pageValue page)
          else s.devRegs }

section Shapes
variable {s t : State} {i : Instr}

/-- An internal operation that completes has run. -/
theorem next_of_whenInternal {run : State → Result} (h : whenInternal s run = .next t) : run s = .next t := by
  unfold whenInternal at h
  split at h
  · cases h
  · exact h

theorem eq_of_whenInternal (f : State → State) (h : whenInternal s (fun s => .next (f s)) = .next t) : t = f s :=
  (Host.Outcome.next.inj (next_of_whenInternal (run := fun s => .next (f s)) h)).symm

/-- A wire byte that completes has run. -/
theorem eq_of_whenWire (f : State → State) (h : whenWire s (fun s => .next (f s)) = .next t) : t = f s := by
  unfold whenWire at h
  split at h
  · cases h
  · exact (Host.Outcome.next.inj h).symm

theorem effect_sendCommand {r : Reg} {v : Byte} (hi : SendsCommand s.cfg i r v) : Effect s i (sendCommand r v s) := by
  rw [sendCommand_eq]
  exact .command hi

theorem effect_wireCommand {r : Reg} {v : Byte} (hi : SendsCommand s.cfg i r v) (h : wireCommand r v s = .next t) :
    Effect s i t := by
  obtain rfl := eq_of_whenWire (sendCommand r v) h
  exact effect_sendCommand hi

theorem effect_sendData {b : Byte} (hi : SendsData i b) : Effect s i (sendData b s) := by
  rw [sendData_eq]
  exact .data hi

theorem effect_display {r : Reg} {v : Byte} (hi : ControlsDisplay s.cfg i r v) :
    Effect s i (displayCommand r v (requireReady s)) := by
  rw [displayCommand_eq, requireReady_eq]
  exact .display hi

theorem effect_stream {x y : Int} {w h : Nat} {src : Source} (hi : Streams i x y w h src)
    (he : streamOp x y w h src s = .next t) : Effect s i t := by
  rcases streamOp_cases x y w h src s with ⟨_, e⟩ | ⟨_, hr, e⟩ | ⟨_, before, off, after, r, ha, hr, hf, e⟩
  · rw [e] at he
    cases he
  · rw [e] at he
    cases he
    exact .streamed hi hr
  · rw [e] at he
    cases he
    exact .streamRaised hi ha hr hf

/-- `SET_PIXEL` writes the buffer and nothing else (43_pixel_buffer.md R190). -/
theorem setPixel_eq (x y : Int) (mode : BlendMode) (s : State) :
    setPixel x y mode s = { s with buf := (setPixel x y mode s).buf } := by
  unfold setPixel
  split <;> rfl

/-- A scroll offset above 64 sets its mark and nothing else (42_lifecycle.md R169). -/
theorem requireScrollRange_eq (v : Byte) (s : State) :
    requireScrollRange v s =
      { s with marks := { s.marks with scrollRange := s.marks.scrollRange || decide (64 < v.toNat) } } := by
  unfold requireScrollRange
  cases decide (64 < v.toNat) <;> simp [markIf, Marks.add]

theorem dataMarks_eq (m : Marks) (s : State) :
    dataMarks m s = { m with dataCdNotHigh := m.dataCdNotHigh || !decide (s.pin.cd = .high) } := by
  simp [dataMarks]

/-- 45_fill.md R230. -/
theorem execFillScreen_eq (pattern : Byte) (d : Nat) (s : State) :
    execFillScreen pattern d s =
      .next
        { s.play
            (bracketEvents (List.replicate (screenBytes s.cfg) (byteEvents s.cfg pattern ++ [.delayUs d])).flatten) with
          marks := fillMarks (screenBytes s.cfg) s } := by
  simp only [execFillScreen, bracket, drive_eq_play, repeatOp_sendData_delay_eq, requireReady_eq]
  simp [State.play, bracketEvents, fillMarks, dataMarks_eq, Pins.set]

/-- 45_fill.md R231. -/
theorem execFillPage_eq (pattern : Byte) (s : State) :
    execFillPage pattern s =
      .next
        { s.play (bracketEvents (List.replicate (pageBytes s.cfg) (byteEvents s.cfg pattern)).flatten) with
          marks := fillMarks (pageBytes s.cfg) s } := by
  simp only [execFillPage, bracket, drive_eq_play, repeatOp_sendData_eq, requireReady_eq]
  simp [State.play, bracketEvents, fillMarks, dataMarks_eq, Pins.set]

/-- An operation that completes leaves what its shape says: the one case split over the operations. -/
theorem exec_effect (h : exec i s = .next t) : Effect s i t := by
  cases i with
  | beginOp v =>
    cases h
    rw [beginOp_eq]
    exact .beginOp v
  | reset =>
    cases h
    rw [resetOp_eq]
    exact .reset
  | displayEnable v => cases h; exact effect_display (.displayEnable v)
  | scroll v =>
    cases h
    rw [displayCommand_eq, requireScrollRange_eq, requireReady_eq]
    exact .scroll v
  | orient v => cases h; exact effect_display (.orient v)
  | invert v => cases h; exact effect_display (.invert v)
  | allOn v => cases h; exact effect_display (.allOn v)
  | setPixel x y mode =>
    cases h
    rw [setPixel_eq]
    exact .setPixel x y mode
  | clearBuffer => cases h; exact .clearBuffer
  | transfer x y w hh => exact effect_stream (.transfer x y w hh) h
  | bitmap x y w hh image => exact effect_stream (.bitmap x y w hh image) h
  | fillScreen pattern d =>
    cases (execFillScreen_eq pattern d s).symm.trans h
    exact .fillScreen pattern d
  | fillPage pattern =>
    cases (execFillPage_eq pattern s).symm.trans h
    exact .fillPage pattern
  | sendByte b =>
    obtain rfl := eq_of_whenInternal (Machine.sendByte b) h
    rw [sendByte_eq_play]
    exact .sendByte b
  | sendCommand r v =>
    obtain rfl := eq_of_whenInternal (Machine.sendCommand r v) h
    exact effect_sendCommand (.sendCommand r v)
  | sendData b =>
    obtain rfl := eq_of_whenInternal (Machine.sendData b) h
    exact effect_sendData (.sendData b)
  | initRegs v =>
    obtain rfl := eq_of_whenInternal (Machine.initRegs v) h
    rw [initRegs_eq]
    exact .initRegs v
  | stream x y w hh src => exact effect_stream (.stream x y w hh src) (next_of_whenInternal h)
  | addrTriple column page =>
    obtain rfl := eq_of_whenInternal (Machine.addrTriple column page) h
    rw [addrTriple_eq]
    exact .addrTriple column page
  | data b =>
    obtain rfl := eq_of_whenWire (Machine.sendData b) h
    exact effect_sendData (.data b)
  | cmdTempcomp => exact effect_wireCommand .tempcomp h
  | cmdAddrmode => exact effect_wireCommand .addrmode h
  | cmdFramerate => exact effect_wireCommand .framerate h
  | cmdBias => exact effect_wireCommand .bias h
  | cmdPower => exact effect_wireCommand .power h
  | cmdGain v => exact effect_wireCommand (.gain v) h
  | cmdDispen v => exact effect_wireCommand (.dispen v) h
  | cmdOrient v => exact effect_wireCommand (.orient v) h
  | cmdScroll v => exact effect_wireCommand (.scroll v) h
  | cmdInverse v => exact effect_wireCommand (.inverse v) h
  | cmdAllon v => exact effect_wireCommand (.allon v) h
  | cmdColLo n => exact effect_wireCommand (.colLo n) h
  | cmdColHi n => exact effect_wireCommand (.colHi n) h
  | cmdPage n => exact effect_wireCommand (.page n) h

end Shapes

/-! ### The fields of an operation that plays events -/

section Played
variable {es : List Event} {s t : State}

theorem Plays.cfg_eq (h : Plays es s t) : t.cfg = s.cfg :=
  (congrArg State.cfg h.2 :)

theorem Plays.pin_eq (h : Plays es s t) : t.pin = linesAfter s.pin es :=
  (congrArg State.pin h.2 :)

theorem Plays.trace_eq (h : Plays es s t) : t.trace = s.trace ++ es :=
  (congrArg State.trace h.2 :)

theorem Plays.rx_eq (h : Plays es s t) : t.rx = s.rx.events s.cfg es :=
  (congrArg State.rx h.2 :)

end Played

/-- 41_framer.md R146: a bracket ends with CS High. -/
@[simp] theorem linesAfter_bracketEvents_cs (p : Pins) (body : List Event) :
    (linesAfter p (bracketEvents body)).cs = .high := by
  simp [bracketEvents, Pins.set]

/-- 41_framer.md R145: the registers are initialised inside one bracket. -/
@[simp] theorem linesAfter_initEvents_cs (c : Cfg) (vbias : Byte) (p : Pins) :
    (linesAfter p (initEvents c vbias)).cs = .high :=
  linesAfter_bracketEvents_cs p _

@[simp] theorem linesAfter_tripleEvents_cs (c : Cfg) (column page : Nat) (p : Pins) :
    (linesAfter p (tripleEvents c column page)).cs = p.cs := by
  simp [tripleEvents]

@[simp] theorem linesAfter_resetEvents_cs (c : Cfg) (p : Pins) : (linesAfter p (resetEvents c)).cs = p.cs := rfl

/-! ### Chip select -/

/-- The operations that bracket their bytes with CS (41_framer.md R145). -/
def Bracketed (i : Instr) : Prop :=
  (∃ v, i = .beginOp v ∨ i = .initRegs v ∨ i = .displayEnable v ∨ i = .scroll v ∨ i = .orient v ∨ i = .invert v ∨
      i = .allOn v ∨ i = .fillPage v) ∨ (∃ p d, i = .fillScreen p d) ∨ (∃ x y w h, i = .transfer x y w h) ∨
    (∃ x y w h img, i = .bitmap x y w h img) ∨ (∃ x y w h src, i = .stream x y w h src)

/-- Without a fault an operation leaves CS High, or as it was if it is none that brackets its bytes (10_state.md R48). -/
theorem Effect.cs_high_or_kept {s t : State} {i : Instr} (he : Effect s i t) (hf : t.fault = none) :
    t.pin.cs = .high ∨ (¬ Bracketed i ∧ t.pin.cs = s.pin.cs) := by
  cases he with
  | beginOp | initRegs | display | scroll | fillScreen | fillPage | streamed => left; simp
  | streamRaised => cases hf
  | reset | setPixel | clearBuffer | sendByte | addrTriple => right; simp [Bracketed]
  | data hi => right; cases hi <;> simp [Bracketed]
  | command hi => right; cases hi <;> simp [Bracketed]

/-! ### Marks -/

/-- Every mark of the one set is in the other. -/
def Marks.Sub (m n : Marks) : Prop := ∀ k, m.has k = true → n.has k = true

theorem Marks.Sub.trans {l m n : Marks} (h : l.Sub m) (g : m.Sub n) : l.Sub n := fun k hk => g k (h k hk)

theorem sub_readyMarks (s : State) : s.marks.Sub (readyMarks s) := by
  intro k
  cases k <;> simp +contextual [Marks.has, readyMarks]

theorem sub_dataMarks (m : Marks) (s : State) : m.Sub (dataMarks m s) := by
  intro k
  cases k <;> simp +contextual [Marks.has, dataMarks]

theorem sub_fillMarks (n : Nat) (s : State) : s.marks.Sub (fillMarks n s) := by
  unfold fillMarks
  split
  · exact sub_readyMarks s
  · exact (sub_readyMarks s).trans (sub_dataMarks _ s)

theorem sub_resetMarks (m : Marks) (b : Bool) : m.Sub { m with preReady := m.preReady || b } := by
  intro k
  cases k <;> simp +contextual [Marks.has]

theorem sub_scrollMarks (m : Marks) (b : Bool) : m.Sub { m with scrollRange := m.scrollRange || b } := by
  intro k
  cases k <;> simp +contextual [Marks.has]

/-- No operation removes a mark (10_state.md R38). -/
theorem Effect.marks_sub {s t : State} {i : Instr} (he : Effect s i t) : s.marks.Sub t.marks := by
  cases he with
  | reset => exact sub_resetMarks _ _
  | display hi => exact sub_readyMarks s
  | scroll v => exact (sub_readyMarks s).trans (sub_scrollMarks _ _)
  | fillScreen pattern d => exact sub_fillMarks _ s
  | fillPage pattern => exact sub_fillMarks _ s
  | streamed hi hr => exact sub_readyMarks s
  | streamRaised hi ha hr hf => exact sub_readyMarks s
  | data hi => exact sub_dataMarks _ s
  | beginOp | initRegs | setPixel | clearBuffer | sendByte | command | addrTriple => exact fun _ hk => hk

/-- Only a stream that cannot read a byte writes the fault (10_state.md R39). -/
theorem Effect.fault_kept_or_raised {s t : State} {i : Instr} (he : Effect s i t) :
    t.fault = s.fault ∨ ∃ r, t.fault = some r := by
  cases he with
  | streamRaised => exact .inr ⟨_, rfl⟩
  | _ => exact .inl rfl

/-! ### The controller registers of a stream -/

theorem not_readable_of_error {s : State} {src : Source} {off : Nat} {r : Fault} (h : readSource src off s = .error r) :
    ¬ readable s src off := by
  intro hr
  rw [readSource_of_readable src off s hr] at h
  cases h

/-- The first byte of a stream that cannot be read is the only one with every byte before it readable. -/
theorem before_unreadable_unique {s : State} {src : Source} {as as' bs bs' : List StreamAct} {off off' : Nat}
    (h : as ++ .byte off :: bs = as' ++ .byte off' :: bs')
    (hr : ∀ o, .byte o ∈ as → readable s src o) (hn : ¬ readable s src off)
    (hr' : ∀ o, .byte o ∈ as' → readable s src o) (hn' : ¬ readable s src off') : as = as' := by
  rcases List.append_eq_append_iff.1 h with ⟨cs, e, e'⟩ | ⟨cs, e, e'⟩
  · cases cs with
    | nil => simpa using e.symm
    | cons c cs =>
      obtain ⟨rfl, -⟩ := List.cons.inj e'
      exact absurd (hr' off (by simp [e])) hn
  · cases cs with
    | nil => simpa using e
    | cons c cs =>
      obtain ⟨rfl, -⟩ := List.cons.inj e'
      exact absurd (hr off' (by simp [e])) hn'

theorem streamRecorded_of_readable {x : Int} {acts : List StreamAct} {src : Source} {s t : State}
    (hr : ∀ off, .byte off ∈ acts → readable s src off) (ht : t.devRegs = acts.foldl (actRegs x) s.devRegs) :
    StreamRecorded x acts src s t := by
  refine ⟨fun _ => ht, fun before off after ha _ hn => absurd (hr off ?_) hn⟩
  simp [ha]

theorem streamRecorded_of_raised {x : Int} {acts before after : List StreamAct} {off : Nat} {src : Source}
    {s t : State}
    (ha : acts = before ++ .byte off :: after) (hr : ∀ o, .byte o ∈ before → readable s src o) (hn : ¬ readable s src off)
    (ht : t.devRegs = before.foldl (actRegs x) s.devRegs) :
    StreamRecorded x acts src s t := by
  refine ⟨fun h => absurd (h off (by simp [ha])) hn, fun before' off' after' ha' hr' hn' => ?_⟩
  rw [ht, before_unreadable_unique (ha.symm.trans ha') hr hn hr' hn']

/-! ### The invariants of every step -/

theorem ofTrace_append (c : Cfg) (trace es : List Event) :
    Rx.ofTrace c (trace ++ es) = (Rx.ofTrace c trace).events c es :=
  rx_events_append c _ trace es

theorem linesAtRest_issue {s : State} (h : s.LinesAtRest) (a : Agent) (rest : List Item) :
    (issue a rest s).LinesAtRest :=
  ⟨h.cd_released, h.cs_released, h.sclk_low, h.hw_serial⟩

theorem receiverFollows_issue {s : State} (h : s.ReceiverFollows) (a : Agent) (rest : List Item) :
    (issue a rest s).ReceiverFollows :=
  ⟨h.is_fold, h.sees_lines, h.whole_bytes⟩

/-- The receiver has seen the lines where they are and holds no partial byte. -/
theorem rested_of_follows {s : State} (hl : s.LinesAtRest) (hr : s.ReceiverFollows) : s.rx.Rested s.cfg s.pin :=
  ⟨hr.sees_lines, hr.whole_bytes.1, hr.whole_bytes.2, hl.sclk_low⟩

/-- An operation plays whole events, which the receiver takes as they are appended to the trace. -/
theorem exec_receiverFollows {i : Instr} {s t : State} (h : exec i s = .next t) (hl : s.LinesAtRest)
    (hr : s.ReceiverFollows) : t.ReceiverFollows := by
  obtain ⟨es, hp⟩ := exec_plays h
  have rested := rested_whole hp.1 _ _ (rested_of_follows hl hr)
  rw [← hp.rx_eq, ← hp.pin_eq] at rested
  refine ⟨?_, rested.lv, rested.count, rested.shift⟩
  rw [hp.rx_eq, hp.cfg_eq, hp.trace_eq, ofTrace_append, hr.is_fold]

/-- An operation plays whole events, and without a fault it releases CS or leaves it. -/
theorem exec_linesAtRest {i : Instr} {s t : State} (h : exec i s = .next t) (hs : s.fault = none) (hl : s.LinesAtRest) :
    t.LinesAtRest := by
  obtain ⟨es, hp⟩ := exec_plays h
  obtain ⟨cd, sclk, serial⟩ := lines_whole hp.1 s.pin
  rw [← hp.pin_eq] at cd sclk serial
  refine ⟨cd hl.cd_released, fun hf => ?_, ?_, fun hw => ?_⟩
  · obtain hc | ⟨-, hc⟩ := (exec_effect h).cs_high_or_kept hf
    · simp [hc]
    · rw [hc]
      exact hl.cs_released hs
  · rw [hp.cfg_eq]
    exact sclk hl.sclk_low
  · rw [hp.cfg_eq] at hw
    obtain ⟨hsclk, hsda⟩ := serial hw
    rw [hsclk, hsda]
    exact hl.hw_serial hw

/-! ### The statements -/

/-- Settles O50, by the whole events an operation plays. -/
theorem stepKeepsReceiverTheFold : Obligations.StepKeepsReceiverTheFold := by
  intro s t hl hr h
  obtain ⟨-, rfl⟩ | ⟨a, i, rest, -, he⟩ := step_next_cases h
  · exact hr
  · exact exec_receiverFollows he (linesAtRest_issue hl a rest) (receiverFollows_issue hr a rest)

/-- Settles O51, by the whole events an operation plays and by what it leaves of CS. -/
theorem stepKeepsLinesAtRest : Obligations.StepKeepsLinesAtRest := by
  intro s t hl h
  obtain ⟨-, rfl⟩ | ⟨a, i, rest, hf, he⟩ := step_next_cases h
  · exact hl
  · exact exec_linesAtRest he hf (linesAtRest_issue hl a rest)

/-- Settles O28: the two lifecycle operations write the controller state, and the states the others leave keep it. -/
theorem controllerStateTransitions : Obligations.ControllerStateTransitions := by
  intro i s t h
  cases exec_effect h with
  | display hi => cases hi <;> rfl
  | streamed hi hr => cases hi <;> rfl
  | streamRaised hi ha hr hf => cases hi <;> rfl
  | data hi => cases hi <;> rfl
  | command hi => cases hi <;> rfl
  | _ => rfl

/-- Settles O32: the states the other operations leave keep the buffer. -/
theorem onlyTwoOperationsWriteTheBuffer : Obligations.OnlyTwoOperationsWriteTheBuffer := by
  intro i s t h hp hc
  cases exec_effect h with
  | setPixel x y mode => exact absurd rfl (hp x y mode)
  | clearBuffer => exact absurd rfl hc
  | _ => rfl

/-- Settles O48, by the registers each shape of operation leaves; for a stream, by its first byte that cannot be read. -/
theorem registerRecordFollowsCommands : Obligations.RegisterRecordFollowsCommands := by
  intro i s t h
  cases exec_effect h with
  | reset => exact devRegs_get_afterReset
  | display hi =>
    cases hi with
    | orient v =>
      exact ⟨fun hv => by simp [orientationCode_of_code hv], fun hv => by simp [orientationCode_of_not_code hv]⟩
    | displayEnable | invert | allOn => rfl
  | streamed hi hr => cases hi <;> exact streamRecorded_of_readable hr rfl
  | streamRaised hi ha hr hf =>
    cases hi <;> exact streamRecorded_of_raised ha hr (not_readable_of_error hf) rfl
  | addrTriple column page => simp [actRegs, colLo, colHi, pageValue]
  | command hi => cases hi <;> rfl
  | data hi => cases hi <;> rfl
  | beginOp | initRegs | scroll | setPixel | clearBuffer | fillScreen | fillPage | sendByte => rfl

/-- Settles O53: without a fault an operation leaves CS High, or as it was if it is none that brackets its bytes. -/
theorem bracketsReleaseChipSelect : Obligations.BracketsReleaseChipSelect := by
  intro i s t h _ hf
  obtain hc | ⟨hb, hc⟩ := (exec_effect h).cs_high_or_kept hf
  · exact ⟨fun _ => hc, fun _ => hc⟩
  · exact ⟨fun hi => absurd hi hb, fun hs => hc.trans hs⟩

/-- Settles O54: an operation that completes has written no configuration. -/
theorem configurationNeverChanges : Obligations.ConfigurationNeverChanges := by
  intro s t h
  obtain ⟨-, rfl⟩ | ⟨a, i, rest, -, he⟩ := step_next_cases h
  · rfl
  · obtain ⟨es, hp⟩ := exec_plays he
    exact hp.cfg_eq

/-- Settles O55, by the marks and the fault each shape of operation leaves and by the events it plays. -/
theorem recordsOnlyGrow : Obligations.RecordsOnlyGrow := by
  intro i s t h
  obtain ⟨es, hp⟩ := exec_plays h
  refine ⟨(exec_effect h).marks_sub, fun hs => ?_, es, hp.trace_eq⟩
  obtain hf | ⟨r, hf⟩ := (exec_effect h).fault_kept_or_raised
  · rwa [hf]
  · simp [hf]

/-- Settles O56, by the whole events an operation plays. -/
theorem hardwareModeLeavesSerialLines : Obligations.HardwareModeLeavesSerialLines := by
  intro i s t hw h
  obtain ⟨es, hp⟩ := exec_plays h
  rw [hp.pin_eq]
  exact (lines_whole hp.1 s.pin).2.2 hw

end Sys2Proof.Machine
end

section
/-! PROOFS. Both memories keep their canonical form: what each event does to the controller RAM, what each operation does to
the pixel buffer (20_memory.md R60, R74). -/

namespace Sys2Proof.Machine

/-! ### The controller RAM -/

/-- The RAM address of a page and column on the panel lies in the RAM. -/
theorem ramIndex_lt {width pages page col : Nat} (hc : col < width) (hp : page < pages) :
    ramIndex width page col < width * pages := by
  calc page * width + col < (page + 1) * width := by rw [Nat.succ_mul]; omega
    _ ≤ pages * width := Nat.mul_le_mul_right _ hp
    _ = width * pages := Nat.mul_comm _ _

@[simp] theorem command_ram (m : RegMap) (d : Dev) (c : Byte) : (d.command m c).ram = d.ram := by
  unfold Dev.command
  split_ifs <;> rfl

@[simp] theorem advance_ram (width pages : Nat) (d : Dev) : (d.advance width pages).ram = d.ram := by
  unfold Dev.advance
  split
  · rfl
  · split_ifs <;> rfl

theorem ramWf_store {width pages : Nat} {d : Dev} (b : Byte) (h : ramWf (width * pages) d.ram = true) :
    ramWf (width * pages) (d.store width pages b).ram = true := by
  unfold Dev.store
  split
  · split_ifs with hcp
    · exact ramWf_memSet _ _ _ _ (ramIndex_lt hcp.1 hcp.2) h
    · exact h
  · exact h

/-- Every frame keeps the RAM canonical, an Unclassified one by making it Unknown (20_memory.md R68, 40_transport.md R133). -/
theorem ramWf_frame {c : Cfg} {d : Dev} (f : Frame) (h : ramWf (c.width * c.pages) d.ram = true) :
    ramWf (c.width * c.pages) (d.frame c f).ram = true := by
  cases f with
  | cmd b =>
    cases b with
    | none => rfl
    | some b => simpa [Dev.frame] using h
  | data b =>
    cases b with
    | none => rfl
    | some b => simpa [Dev.frame, Dev.data] using ramWf_store b h
  | unclassified b => rfl

section Receiver
variable {c : Cfg} {rx : Rx} (h : ramWf (c.width * c.pages) rx.dev.ram = true)
include h

theorem ramWf_bit (x : Option Bool) : ramWf (c.width * c.pages) (rx.bit c x).dev.ram = true := by
  unfold Rx.bit
  split_ifs
  · exact ramWf_frame _ h
  · exact h

theorem ramWf_edge (l : Line) (v : Level) : ramWf (c.width * c.pages) (rx.edge c l v).dev.ram = true := by
  unfold Rx.edge
  split
  · split_ifs
    · exact ramWf_bit h _
    · exact h
  · exact h
  · split_ifs
    · rfl
    · exact h
  · exact h

theorem ramWf_bits (xs : List Bool) :
    ramWf (c.width * c.pages) (xs.foldl (fun r x => r.bit c (some x)) rx).dev.ram = true := by
  induction xs generalizing rx with
  | nil => exact h
  | cons x xs ih => exact ih (ramWf_bit h (some x))

theorem ramWf_event (e : Event) : ramWf (c.width * c.pages) (rx.event c e).dev.ram = true := by
  cases e with
  | pinWrite l v => exact ramWf_edge h l v
  | spiByte b =>
    unfold Rx.event
    split_ifs
    · exact ramWf_bits h _
    · exact h
  | pinConfig | xportSetup | delayMs | delayUs => exact h

/-- The receiver keeps the RAM canonical whatever events it sees. -/
theorem ramWf_events (es : List Event) : ramWf (c.width * c.pages) (rx.events c es).dev.ram = true := by
  induction es generalizing rx with
  | nil => exact h
  | cons e es ih => exact ih (ramWf_event h e)

end Receiver

/-! ### The pixel buffer -/

theorem mem_of_memFind {β : Type} {m : List (Nat × β)} {a : Nat} {v : β} (h : memFind m a = some v) : (a, v) ∈ m := by
  induction m with
  | nil => cases h
  | cons e rest ih =>
    obtain ⟨k, w⟩ := e
    by_cases hk : k = a
    · simp_all [memFind]
    · exact List.mem_cons_of_mem _ (ih (by simpa [memFind, hk] using h))

theorem bufRead_wf {len : Nat} {m : List (Nat × TByte)} (h : bufWf len m = true) (i : Nat) : (bufRead m i).wf = true := by
  unfold bufRead
  cases hf : memFind m i with
  | none => rfl
  | some t =>
    simp only [bufWf, Bool.and_eq_true, List.all_eq_true, decide_eq_true_eq] at h
    exact (h.2 _ (mem_of_memFind hf)).1.2

/-- The byte of a pixel inside the buffer lies in the buffer, a whole number of pages high (20_memory.md R61). -/
theorem byteIndex_lt {c : Cfg} {x y : Nat} (hc : cfgOk c = true) (hx : x < c.bufWidth) (hy : y < c.bufHeight) :
    byteIndex c.bufWidth x y < c.bufLen := by
  obtain ⟨-, -, -, hm, -⟩ := (cfgOk_iff c).1 hc
  have page : y / 8 < c.bufHeight / 8 := by omega
  simpa [byteIndex, ramIndex, Cfg.bufLen, Nat.mul_comm] using ramIndex_lt hx page

theorem bufWf_setPixel {s : State} (x y : Int) (mode : BlendMode) (hc : cfgOk s.cfg = true)
    (h : bufWf s.cfg.bufLen s.buf = true) : bufWf s.cfg.bufLen (setPixel x y mode s).buf = true := by
  unfold setPixel
  split_ifs with hr
  · rw [Bool.and_eq_true, inRange_iff, inRange_iff] at hr
    exact bufWf_bufWrite _ _ _ _ (byteIndex_lt hc (by omega) (by omega)) (blend_wf _ _ _ (bufRead_wf h _)) h
  · exact h

/-- The two operations that write the buffer keep it canonical; no other touches it (10_state.md R42). -/
theorem Effect.keeps_bufWf {s t : State} {i : Instr} (he : Effect s i t) (hc : cfgOk s.cfg = true)
    (h : bufWf s.cfg.bufLen s.buf = true) : bufWf s.cfg.bufLen t.buf = true := by
  cases he with
  | setPixel x y mode => exact bufWf_setPixel x y mode hc h
  | clearBuffer => exact bufWf_bufClear _ _ h
  | _ => exact h

/-- An operation that completes keeps both memories canonical. -/
theorem exec_memWf {i : Instr} {s t : State} (he : exec i s = .next t) (hc : cfgOk s.cfg = true)
    (h : s.memWf = true) : t.memWf = true := by
  obtain ⟨es, hp⟩ := exec_plays he
  obtain ⟨hbuf, hram⟩ := Bool.and_eq_true_iff.mp h
  rw [State.memWf, hp.cfg_eq, hp.rx_eq, Bool.and_eq_true]
  exact ⟨(exec_effect he).keeps_bufWf hc hbuf, ramWf_events hram es⟩

/-- Settles O49: an operation plays events, under which the RAM keeps its form, and writes the buffer only inside it. -/
theorem stepKeepsMemoryCanonical : Obligations.StepKeepsMemoryCanonical := by
  intro s t hc hm h
  refine ⟨by rwa [configurationNeverChanges s t h], ?_⟩
  obtain ⟨-, rfl⟩ | ⟨a, i, rest, -, he⟩ := step_next_cases h
  · exact hm
  · exact exec_memWf he hc hm

end Sys2Proof.Machine
end

section
/-! PROOFS. What the controller does with a byte it receives, field by field: a command byte sets its part of the cursor or
is logged, a data byte is stored at the cursor, which advances (20_memory.md R66 to R69). -/

namespace Sys2Proof.Machine

/-! ### A command byte -/

/-- Selector OR field shows the selector in its upper four bits, when its low ones are zero (92_eei_decisions.md D2). -/
theorem or_field_and_high {sel : Byte} (n : Nibble) (h : sel &&& 0x0F = 0) : (sel ||| n.setWidth 8) &&& 0xF0 = sel := by
  have low : ∀ i < 4, sel.getLsbD i = false := fun i hi => by
    have := congrArg (fun b : Byte => b.getLsbD i) h
    interval_cases i <;> simpa using this
  refine BitVec.eq_of_getLsbD_eq fun i hi => ?_
  by_cases h4 : i < 4
  · rw [low i h4]
    interval_cases i <;> simp
  · have : n.getLsbD i = false := BitVec.getLsbD_of_ge _ _ (by omega)
    interval_cases i <;> simp_all

/-- Selector OR field holds the field in its low four bits, when the selector's are zero (92_eei_decisions.md D2). -/
theorem lowNibble_or_field {sel : Byte} (n : Nibble) (h : sel &&& 0x0F = 0) : lowNibble (sel ||| n.setWidth 8) = n := by
  refine BitVec.eq_of_getLsbD_eq fun i hi => ?_
  have low : sel.getLsbD i = false := by
    have := congrArg (fun b : Byte => b.getLsbD i) h
    interval_cases i <;> simpa using this
  simp [lowNibble, hi, low]
  omega

/-- The selectors the reference receiver's decode needs (92_eei_decisions.md D2). -/
theorem addressable_iff (m : RegMap) :
    addressable m = true ↔
      (m.colLo &&& 0x0F = 0 ∧ m.colHi &&& 0x0F = 0 ∧ m.page &&& 0x0F = 0) ∧
        m.colLo ≠ m.colHi ∧ m.colLo ≠ m.page ∧ m.colHi ≠ m.page := by
  simp [addressable, and_assoc]

section Addressing
variable {m : RegMap} (h : addressable m = true) (d : Dev) (n : Nibble)
include h

theorem command_colLo : d.command m (m.colLo ||| n.setWidth 8) = { d with colLo := some n } := by
  obtain ⟨⟨hlo, -, -⟩, -⟩ := (addressable_iff m).1 h
  simp only [Dev.command, or_field_and_high n hlo, lowNibble_or_field n hlo, if_true]

theorem command_colHi : d.command m (m.colHi ||| n.setWidth 8) = { d with colHi := some n } := by
  obtain ⟨⟨-, hhi, -⟩, hne, -⟩ := (addressable_iff m).1 h
  simp only [Dev.command, or_field_and_high n hhi, lowNibble_or_field n hhi, hne.symm, if_true, if_false]

theorem command_page : d.command m (m.page ||| n.setWidth 8) = { d with page := some n } := by
  obtain ⟨⟨-, -, hp⟩, -, hlo, hhi⟩ := (addressable_iff m).1 h
  simp only [Dev.command, or_field_and_high n hp, lowNibble_or_field n hp, hlo.symm, hhi.symm, if_true, if_false]

end Addressing

/-! ### The cursor -/

theorem col_setCol (d : Dev) {n : Nat} (h : n < 256) : (d.setCol n).col = some n := by
  simp [Dev.col, Dev.setCol]
  omega

theorem nextPage_toNat {pages : Nat} (p : Nibble) (h0 : 0 < pages) (h : pages ≤ 16) :
    (nextPage pages p).toNat = (p.toNat + 1) % pages := by
  have := Nat.mod_lt (p.toNat + 1) h0
  simp [nextPage]
  omega

theorem advance_of_col_none {width pages : Nat} {d : Dev} (h : d.col = none) : d.advance width pages = d := by
  simp [Dev.advance, h]

/-- 20_memory.md R69: past the last column the cursor goes to column 0 of the next page. -/
theorem advance_of_last {width pages c : Nat} {d : Dev} (h : d.col = some c) (hc : width ≤ c + 1) :
    d.advance width pages = { d.setCol 0 with page := d.page.map (nextPage pages) } := by
  simp [Dev.advance, h, hc]

theorem advance_of_not_last {width pages c : Nat} {d : Dev} (h : d.col = some c) (hc : c + 1 < width) :
    d.advance width pages = d.setCol (c + 1) := by
  simp [Dev.advance, h, hc]

/-- The column after an advance (20_memory.md R69). -/
theorem col_advance {width pages c : Nat} {d : Dev} (h : d.col = some c) (hw : width ≤ 256) :
    (d.advance width pages).col = some (if width ≤ c + 1 then 0 else c + 1) := by
  split_ifs with hc
  · rw [advance_of_last h hc]
    rfl
  · rw [advance_of_not_last h (by omega), col_setCol _ (by omega)]

/-- The page after an advance (20_memory.md R69). -/
theorem page_advance {width pages c : Nat} {d : Dev} (h : d.col = some c) :
    (d.advance width pages).page = if width ≤ c + 1 then d.page.map (nextPage pages) else d.page := by
  split_ifs with hc
  · rw [advance_of_last h hc]
  · rw [advance_of_not_last h (by omega)]
    rfl

@[simp] theorem advance_cmdLog (width pages : Nat) (d : Dev) : (d.advance width pages).cmdLog = d.cmdLog := by
  unfold Dev.advance
  split
  · rfl
  · split_ifs <;> rfl

/-! ### A data byte -/

/-- Storing a byte changes the RAM and nothing else (20_memory.md R68). -/
theorem store_eq (width pages : Nat) (d : Dev) (b : Byte) :
    d.store width pages b = { d with ram := (d.store width pages b).ram } := by
  unfold Dev.store
  split
  · split_ifs <;> rfl
  · rfl

@[simp] theorem store_col (width pages : Nat) (d : Dev) (b : Byte) : (d.store width pages b).col = d.col := by
  rw [store_eq]
  rfl

@[simp] theorem store_page (width pages : Nat) (d : Dev) (b : Byte) : (d.store width pages b).page = d.page := by
  rw [store_eq]

@[simp] theorem store_cmdLog (width pages : Nat) (d : Dev) (b : Byte) : (d.store width pages b).cmdLog = d.cmdLog := by
  rw [store_eq]

/-- With the cursor on the panel the byte is written at its address (20_memory.md R68). -/
theorem store_ram_of_on_panel {width pages c : Nat} {d : Dev} {q : Nibble} (b : Byte) (hc : d.col = some c)
    (hp : d.page = some q) (h : c < width ∧ q.toNat < pages) :
    (d.store width pages b).ram = memSet d.ram (ramIndex width q.toNat c) b := by
  simp [Dev.store, hc, hp, h]

/-- With the cursor unknown or off the panel nothing is stored (20_memory.md R68). -/
theorem store_of_off_panel {width pages : Nat} {d : Dev} (b : Byte)
    (h : ∀ c q, d.col = some c → d.page = some q → ¬ (c < width ∧ q.toNat < pages)) : d.store width pages b = d := by
  unfold Dev.store
  split
  · next c q hc hq => exact if_neg (h c q hc hq)
  · rfl

/-- A page and a column of the panel have a RAM address of their own. -/
theorem ramIndex_inj {width p p' c c' : Nat} (hc : c < width) (hc' : c' < width)
    (h : ramIndex width p c = ramIndex width p' c') : p = p' ∧ c = c' := by
  have col : c = c' := by
    have := congrArg (· % width) h
    simpa [ramIndex, Nat.mul_add_mod_self_right, Nat.mod_eq_of_lt, hc, hc'] using this
  subst col
  exact ⟨Nat.eq_of_mul_eq_mul_right (by omega : 0 < width) (Nat.add_right_cancel h), rfl⟩

/-- A data byte is read back at the cursor, if that is on the panel, and every other byte of RAM reads as before
(20_memory.md R68). -/
theorem readRam_data {width pages p c : Nat} (d : Dev) (b : Byte) (hc : c < width) :
    (d.data width pages b).readRam width p c =
      if d.col = some c ∧ d.page.map (fun q => q.toNat) = some p ∧ p < pages then some b else d.readRam width p c := by
  simp only [Dev.readRam, Dev.data, advance_ram]
  by_cases on : ∃ c' q, d.col = some c' ∧ d.page = some q ∧ c' < width ∧ q.toNat < pages
  · obtain ⟨c', q, hcol, hpage, hc', hq⟩ := on
    rw [store_ram_of_on_panel b hcol hpage ⟨hc', hq⟩]
    by_cases here : c' = c ∧ q.toNat = p
    · obtain ⟨rfl, rfl⟩ := here
      simp [hcol, hpage, hq]
    · rw [memFind_memSet_of_ne _ _ _ _ fun e => here ((ramIndex_inj hc' hc e.symm).symm), if_neg]
      simpa [hcol, hpage] using fun h1 h2 => absurd ⟨h1, h2⟩ here
  · rw [store_of_off_panel b fun c' q hcol hpage h => on ⟨c', q, hcol, hpage, h⟩, if_neg]
    rintro ⟨hcol, hpage, hp⟩
    obtain ⟨q, hq, rfl⟩ := Option.map_eq_some_iff.1 hpage
    exact on ⟨c, q, hcol, hq, hc, hp⟩

/-- With an unknown column a data byte changes nothing (20_memory.md R68, R69). -/
theorem data_of_col_none {width pages : Nat} {d : Dev} (b : Byte) (h : d.col = none) : d.data width pages b = d := by
  rw [Dev.data, store_of_off_panel b (by simp [h]), advance_of_col_none h]

@[simp] theorem data_cmdLog (width pages : Nat) (d : Dev) (b : Byte) : (d.data width pages b).cmdLog = d.cmdLog := by
  simp [Dev.data]

theorem col_data {width pages c : Nat} {d : Dev} (b : Byte) (h : d.col = some c) (hw : width ≤ 256) :
    (d.data width pages b).col = some (if width ≤ c + 1 then 0 else c + 1) :=
  col_advance (by simpa using h) hw

theorem page_data {width pages c : Nat} {d : Dev} (b : Byte) (h : d.col = some c) :
    (d.data width pages b).page = if width ≤ c + 1 then d.page.map (nextPage pages) else d.page := by
  rw [Dev.data, page_advance (c := c) (by simpa using h), store_page]

/-- The geometry of the panel the cursor's fields have room for (60_exceptions.md R242). -/
theorem panel_of_cfgOk {c : Cfg} (h : cfgOk c = true) : 0 < c.width ∧ c.width ≤ 256 ∧ 0 < c.pages ∧ c.pages ≤ 16 := by
  obtain ⟨⟨-, hw0, hw, hh0, hh⟩, -⟩ := (cfgOk_iff c).1 h
  refine ⟨hw0, hw, ?_, ?_⟩ <;> unfold Cfg.pages <;> omega

end Sys2Proof.Machine
end

section
/-! PROOFS. What the selected receiver makes of a run of events, piece by piece: its frames in order, each with its effect on
the controller (40_transport.md R129 to R133). -/

namespace Sys2Proof.Machine

/-! ### Frames heard -/

/-- The receiver after the frames `fs`, the lines being at `p`. -/
def Rx.heard (c : Cfg) (rx : Rx) (fs : List Frame) (p : Pins) : Rx where
  lv := p
  shift := some 0
  count := 0
  frames := rx.frames ++ fs
  dev := fs.foldl (Dev.frame c) rx.dev

/-- Events that a receiver at rest with the lines at `p` takes as exactly the frames `fs`, CS being Low after them. -/
structure Hears (c : Cfg) (p : Pins) (es : List Event) (fs : List Frame) : Prop where
  whole    : Whole c es
  selected : (linesAfter p es).cs = .low
  heard    : ∀ rx : Rx, rx.Rested c p → rx.events c es = rx.heard c fs (linesAfter p es)

theorem heard_nil {c : Cfg} {rx : Rx} {p : Pins} (h : rx.Rested c p) : rx.heard c [] p = rx :=
  (rx_eq rx _ _ _ _ _ h.lv h.shift h.count (List.append_nil _).symm rfl).symm

theorem heard_heard (c : Cfg) (rx : Rx) (fs gs : List Frame) (p q : Pins) :
    (rx.heard c fs p).heard c gs q = rx.heard c (fs ++ gs) q := by
  simp [Rx.heard]

section Hearing
variable {c : Cfg} {p : Pins} {es es' : List Event} {fs fs' : List Frame}

theorem hears_nil (hcs : p.cs = .low) : Hears c p [] [] :=
  ⟨.nil, hcs, fun _ h => (heard_nil h).symm⟩

theorem Hears.append (h : Hears c p es fs) (g : Hears c (linesAfter p es) es' fs') : Hears c p (es ++ es') (fs ++ fs') := by
  refine ⟨h.whole.append g.whole, by simpa using g.selected, fun rx hr => ?_⟩
  have rested := rested_whole h.whole rx p hr
  rw [rx_events_append, g.heard _ rested, h.heard rx hr, heard_heard, linesAfter_append]

/-- A byte sent is one frame, of the class that CD gives (40_transport.md R131). -/
theorem hears_byteEvents (b : Byte) (hcs : p.cs = .low) : Hears c p (byteEvents c b) [classify p.cd (some b)] :=
  ⟨whole_byteEvents c b, by simpa using hcs, fun rx h => rx_byteEvents_listening c rx p b h hcs⟩

/-- A command sent is one command frame (41_framer.md R140). -/
theorem hears_commandEvents (r : Reg) (v : Byte) (hcs : p.cs = .low) :
    Hears c p (commandEvents c r v) [.cmd (some (c.regmap.sel r ||| v))] :=
  ⟨whole_commandEvents c r v, by simpa using hcs, fun rx h => rx_commandEvents_listening c rx p r v h hcs⟩

theorem Hears.command (h : Hears c p es fs) (r : Reg) (v : Byte) :
    Hears c p (es ++ commandEvents c r v) (fs ++ [.cmd (some (c.regmap.sel r ||| v))]) :=
  h.append (hears_commandEvents r v h.selected)

theorem Hears.data (h : Hears c p es fs) (b : Byte) (hcd : (linesAfter p es).cd = .high) :
    Hears c p (es ++ byteEvents c b) (fs ++ [.data (some b)]) := by
  have frame := hears_byteEvents (c := c) b h.selected
  rw [hcd] at frame
  exact h.append frame

/-- A delay is no frame (40_transport.md R128). -/
theorem Hears.delayMs (h : Hears c p es fs) (t : Nat) : Hears c p (es ++ [.delayMs t]) fs := by
  refine ⟨h.whole.append (.delayMs t _ .nil), by simpa using h.selected, fun rx hr => ?_⟩
  simpa [Rx.event] using h.heard rx hr

theorem Hears.delayUs (h : Hears c p es fs) (t : Nat) : Hears c p (es ++ [.delayUs t]) fs := by
  refine ⟨h.whole.append (.delayUs t _ .nil), by simpa using h.selected, fun rx hr => ?_⟩
  simpa [Rx.event] using h.heard rx hr

/-- A bracket around events adds no frame and leaves none half taken (41_framer.md R144, 40_transport.md R132). -/
theorem rx_bracketEvents {rx : Rx} (h : Hears c (p.set .cs .low) es fs) (hr : rx.Rested c p) :
    rx.events c (bracketEvents es) = rx.heard c fs (linesAfter p (bracketEvents es)) := by
  have rested : ({ rx with lv := p.set .cs .low } : Rx).Rested c (p.set .cs .low) := ⟨rfl, hr.count, hr.shift, hr.sclk⟩
  simp only [bracketEvents, List.cons_append, rx_events_cons, rx_events_append, rx_cs_low, hr.lv, h.heard _ rested,
    rx_events_nil, linesAfter_pinWrite, linesAfter_append, linesAfter_nil]
  exact rx_cs_high c _ rfl rfl

end Hearing

/-- Between operations the receiver is at rest at the lines' levels. -/
theorem rested_of_atRest {s : State} (h : s.ReceiverAtRest) : s.rx.Rested s.cfg s.pin :=
  ⟨h.sees_lines, h.whole_bytes.1, h.whole_bytes.2, h.sclk_low⟩

end Sys2Proof.Machine
end

section
/-! PROOFS. What whole operations send the controller, and from it the statements of 20_memory.md. -/

namespace Sys2Proof.Machine

/-! ### The frames of `BEGIN` -/

/-- The body of `INIT_REGS` is the nine frames of 42_lifecycle.md R173. -/
theorem rx_initEvents {c : Cfg} {rx : Rx} {p : Pins} (vbias : Byte) (hr : rx.Rested c p) :
    rx.events c (initEvents c vbias) = rx.heard c (beginFrames c vbias) (linesAfter p (initEvents c vbias)) := by
  have five := ((((hears_commandEvents (c := c) (p := p.set .cs .low) .tempcomp c.initvals.tempcomp rfl).command
    .addrmode c.initvals.addrmode).command .framerate c.initvals.framerate).command .bias c.initvals.bias).command
    .power c.initvals.power
  exact rx_bracketEvents (((((five.delayMs c.tInitStab).command .gain 0x00).command .gain vbias).command .dispen
    c.valDisplayOn).command .orient c.orientCode.normal) hr

/-- From any receiver, the line setup and the reset pulse leave its frames, no partial byte and the controller in its reset
state (20_memory.md R70, 42_lifecycle.md R161, R163). -/
theorem rx_setup_reset (c : Cfg) (rx : Rx) :
    rx.events c (setupEvents c ++ resetEvents c) =
      { lv := linesAfter rx.lv (setupEvents c ++ resetEvents c), shift := some 0, count := 0, frames := rx.frames,
        dev := Dev.afterReset } := by
  cases hx : c.xport <;> simp [setupEvents, resetEvents, hx, Rx.event, Rx.edge, Rx.clearPartial, Pins.set]

/-- From any receiver, the line setup and the reset pulse leave it at rest (40_transport.md R124). -/
theorem rested_setup_reset (c : Cfg) (rx : Rx) :
    (rx.events c (setupEvents c ++ resetEvents c)).Rested c (linesAfter rx.lv (setupEvents c ++ resetEvents c)) := by
  rw [rx_setup_reset]
  refine ⟨rfl, rfl, rfl, fun clk dat hx => ?_⟩
  simp [setupEvents, resetEvents, hx, Pins.set]

/-- The receiver after `BEGIN`, from any state. -/
theorem beginOp_rx (vbias : Byte) (s : State) :
    (beginOp vbias s).rx.frames = s.rx.frames ++ beginFrames s.cfg vbias ∧
      (beginOp vbias s).rx.dev = (beginFrames s.cfg vbias).foldl (Dev.frame s.cfg) Dev.afterReset := by
  rw [beginOp_eq, play_rx, rx_events_append, rx_initEvents vbias (rested_setup_reset s.cfg s.rx), rx_setup_reset]
  exact ⟨rfl, rfl⟩

/-- The lines after `BEGIN`, from any state. -/
theorem beginOp_pin (vbias : Byte) (s : State) :
    (beginOp vbias s).pin.cs = .high ∧ (beginOp vbias s).pin.cd = .high ∧ (beginOp vbias s).pin.rst = .high := by
  rw [beginOp_eq]
  simp [initEvents, bracketEvents, resetEvents, Pins.set]

/-- Settles O21: the reset pulse brings any receiver to rest with the controller reset, and it then takes the nine frames. -/
theorem beginSendsNineFrames : Obligations.BeginSendsNineFrames := by
  intro vbias s
  obtain ⟨frames, dev⟩ := beginOp_rx vbias s
  exact ⟨beginOp vbias s, rfl, frames, dev, beginOp_pin vbias s⟩

/-! ### One byte received -/

section Selected
variable {s : State} (h : s.ReceiverAtRest) (hcs : s.pin.cs = .low)
include h hcs

theorem sendCommand_dev (r : Reg) (v : Byte) :
    (sendCommand r v s).rx.dev = s.rx.dev.command s.cfg.regmap (s.cfg.regmap.sel r ||| v) := by
  rw [sendCommand_eq, play_rx, (hears_commandEvents r v hcs).heard _ (rested_of_atRest h)]
  rfl

theorem sendData_dev (b : Byte) (hcd : s.pin.cd = .high) :
    (sendData b s).rx.dev = s.rx.dev.data s.cfg.width s.cfg.pages b := by
  rw [sendData_eq, play_rx, (hears_byteEvents b hcs).heard _ (rested_of_atRest h), hcd]
  rfl

end Selected

theorem exec_sendCommand_of_block {s : State} (r : Reg) (v : Byte) (hi : s.issuer = .block) :
    exec (.sendCommand r v) s = .next (sendCommand r v s) := by
  simp [exec, execSendCommand, whenInternal, hi]

theorem exec_sendData_of_block {s : State} (b : Byte) (hi : s.issuer = .block) :
    exec (.sendData b) s = .next (sendData b s) := by
  simp [exec, execSendData, whenInternal, hi]

theorem wireCommand_of_block {s : State} (r : Reg) (v : Byte) (hi : s.issuer = .block) :
    wireCommand r v s = .next (sendCommand r v s) := by
  simp [wireCommand, whenWire, hi]

/-- Settles O44, by the frame a command is received as and the receiver's decode of it. -/
theorem commandFramesAreDecoded : Obligations.CommandFramesAreDecoded := by
  intro r v s hi h hcs
  refine ⟨sendCommand r v s, exec_sendCommand_of_block r v hi, ?_⟩
  rw [sendCommand_dev h hcs, Dev.command]
  split_ifs <;> rfl

/-- Settles O45, by the decode of each addressing byte under selectors that are told apart by their upper four bits. -/
theorem addressingBytesMoveTheCursor : Obligations.AddressingBytesMoveTheCursor := by
  intro n s hi h hcs ha
  refine ⟨⟨_, wireCommand_of_block _ _ hi, ?_⟩, ⟨_, wireCommand_of_block _ _ hi, ?_⟩, ⟨_, wireCommand_of_block _ _ hi, ?_⟩⟩
  · rw [sendCommand_dev h hcs]
    exact command_colLo ha s.rx.dev n
  · rw [sendCommand_dev h hcs]
    exact command_colHi ha s.rx.dev n
  · rw [sendCommand_dev h hcs]
    exact command_page ha s.rx.dev n

/-- Settles O46: the byte is one data frame, whose effect on RAM and cursor is read off field by field. -/
theorem dataByteIsStoredAndAdvances : Obligations.DataByteIsStoredAndAdvances := by
  intro b s hi h hc hcs hcd
  obtain ⟨-, hw, hp0, hp⟩ := panel_of_cfgOk hc
  refine ⟨sendData b s, exec_sendData_of_block b hi, ?_⟩
  rw [sendData_dev h hcs b hcd]
  refine ⟨fun p c hcw => readRam_data _ b hcw, fun p k c hk hcw => ?_, data_cmdLog _ _ _ _, ?_⟩
  · rw [pixel_eq _ _ _ _ _ hk, pixel_eq _ _ _ _ _ hk, readRam_data _ b hcw]
    split_ifs <;> rfl
  · cases hcol : s.rx.dev.col with
    | none => exact data_of_col_none b hcol
    | some c =>
      refine ⟨col_data b hcol hw, ?_⟩
      rw [page_data b hcol]
      split_ifs
      · simp only [Option.map_map]
        exact congrArg (fun f => s.rx.dev.page.map f) (funext fun q => nextPage_toNat q hp0 hp)
      · rfl

/-! ### A whole screen of data bytes -/

/-- The cursor is where it comes to, from column 0 of page 0, after `k` data bytes on a panel of that size. -/
def Dev.AtByte (width pages : Nat) (d : Dev) (k : Nat) : Prop :=
  d.col = some (k % width) ∧ d.page.map (fun q => q.toNat) = some (k / width % pages)

/-- A data byte takes the cursor to the next byte of the panel, the first one following the last (20_memory.md R69). -/
theorem atByte_data {width pages k : Nat} {d : Dev} (b : Byte) (hw0 : 0 < width) (hw : width ≤ 256) (hp0 : 0 < pages)
    (hp : pages ≤ 16) (h : d.AtByte width pages k) : (d.data width pages b).AtByte width pages (k + 1) := by
  obtain ⟨hcol, hpage⟩ := h
  have split := Nat.mod_add_div k width
  have bound := Nat.mod_lt k hw0
  rw [Dev.AtByte, col_data b hcol hw, page_data b hcol]
  split_ifs with last
  · obtain ⟨hq, hr⟩ := (Nat.div_mod_unique (a := k + 1) (c := 0) (d := k / width + 1) hw0).2
      ⟨by rw [Nat.mul_succ]; omega, hw0⟩
    obtain ⟨q, hq', hq''⟩ := Option.map_eq_some_iff.1 hpage
    rw [hq, hr, hq']
    simp [nextPage_toNat q hp0 hp, hq'']
  · obtain ⟨hq, hr⟩ := (Nat.div_mod_unique (a := k + 1) (c := k % width + 1) (d := k / width) hw0).2 ⟨by omega, by omega⟩
    rw [hq, hr]
    exact ⟨rfl, hpage⟩

/-- The controller after `n` data bytes `b`. -/
def Dev.filled (c : Cfg) (d : Dev) (b : Byte) (n : Nat) : Dev :=
  (List.replicate n (.data (some b))).foldl (Dev.frame c) d

theorem filled_succ (c : Cfg) (d : Dev) (b : Byte) (n : Nat) :
    d.filled c b (n + 1) = (d.filled c b n).data c.width c.pages b := by
  rw [Dev.filled, List.replicate_succ', List.foldl_append]
  rfl

/-- After `n` data bytes the cursor is `n` bytes on and those bytes of the panel read what was sent. -/
theorem filled_from {c : Cfg} (hc : cfgOk c = true) (b : Byte) {d : Dev} {k : Nat} (h : d.AtByte c.width c.pages k)
    (n : Nat) :
    (d.filled c b n).AtByte c.width c.pages (k + n) ∧
      ∀ i < n, (d.filled c b n).readRam c.width ((k + i) / c.width % c.pages) ((k + i) % c.width) = some b := by
  obtain ⟨hw0, hw, hp0, hp⟩ := panel_of_cfgOk hc
  induction n with
  | zero => exact ⟨h, nofun⟩
  | succ n ih =>
    obtain ⟨cursor, written⟩ := ih
    rw [filled_succ]
    refine ⟨atByte_data b hw0 hw hp0 hp cursor, fun i hi => ?_⟩
    rw [readRam_data _ b (Nat.mod_lt _ hw0)]
    split_ifs with here
    · rfl
    · obtain hi | rfl := Nat.lt_succ_iff_lt_or_eq.1 hi
      · exact written i hi
      · exact absurd ⟨cursor.1, cursor.2, Nat.mod_lt _ hp0⟩ here

theorem ramIndex_div_mod {width col : Nat} (page : Nat) (hc : col < width) :
    ramIndex width page col / width = page ∧ ramIndex width page col % width = col :=
  (Nat.div_mod_unique (by omega)).2 ⟨by rw [ramIndex, Nat.mul_comm, Nat.add_comm], hc⟩

/-- The cursor is at a page and column exactly when it is at the byte they number. -/
theorem atByte_ramIndex_iff {width pages page col : Nat} (d : Dev) (hc : col < width) :
    d.AtByte width pages (ramIndex width page col) ↔
      d.col = some col ∧ d.page.map (fun q => q.toNat) = some (page % pages) := by
  obtain ⟨hq, hr⟩ := ramIndex_div_mod page hc
  rw [Dev.AtByte, hq, hr]

/-- A whole panel further on is the same column, as many pages down as the panel has. -/
theorem ramIndex_add_panel (width pages page col : Nat) :
    ramIndex width page col + width * pages = ramIndex width (page + pages) col := by
  simp only [ramIndex, Nat.add_mul, Nat.mul_comm width pages]
  omega

/-- From any byte of the panel every byte of it is fewer steps ahead than the panel has bytes. -/
theorem exists_steps_to {width pages page col k : Nat} (hp : page < pages) (hc : col < width) (hk : k < width * pages) :
    ∃ i < width * pages, (k + i) / width % pages = page ∧ (k + i) % width = col := by
  have target := ramIndex_lt hc hp
  by_cases ahead : k ≤ ramIndex width page col
  · refine ⟨ramIndex width page col - k, by omega, ?_⟩
    obtain ⟨hq, hr⟩ := ramIndex_div_mod page hc
    rw [Nat.add_sub_cancel' ahead, hq, hr, Nat.mod_eq_of_lt hp]
    exact ⟨rfl, rfl⟩
  · refine ⟨ramIndex width page col + width * pages - k, by omega, ?_⟩
    obtain ⟨hq, hr⟩ := ramIndex_div_mod (page + pages) hc
    rw [Nat.add_sub_cancel' (by omega), ramIndex_add_panel, hq, hr, Nat.add_mod_right, Nat.mod_eq_of_lt hp]
    exact ⟨rfl, rfl⟩

/-- A panel's worth of data bytes, from any cursor on it, writes every byte and brings the cursor back (45_fill.md R233). -/
theorem filled_panel {c : Cfg} (hc : cfgOk c = true) (b : Byte) {d : Dev} {col : Nat} {page : Nibble}
    (hcol : d.col = some col) (hpage : d.page = some page) (hcw : col < c.width) (hpp : page.toNat < c.pages) :
    (∀ p q, p < c.pages → q < c.width → (d.filled c b (c.width * c.pages)).readRam c.width p q = some b) ∧
      (d.filled c b (c.width * c.pages)).col = some col ∧ (d.filled c b (c.width * c.pages)).page = some page := by
  have start : d.AtByte c.width c.pages (ramIndex c.width page.toNat col) :=
    (atByte_ramIndex_iff d hcw).2 ⟨hcol, by simp [hpage, Nat.mod_eq_of_lt hpp]⟩
  obtain ⟨cursor, written⟩ := filled_from hc b start (c.width * c.pages)
  refine ⟨fun p q hp hq => ?_, ?_⟩
  · obtain ⟨i, hi, rfl, rfl⟩ := exists_steps_to hp hq (ramIndex_lt hcw hpp)
    exact written i hi
  · rw [ramIndex_add_panel, atByte_ramIndex_iff _ hcw, Nat.add_mod_right, Nat.mod_eq_of_lt hpp] at cursor
    obtain ⟨endCol, endPage⟩ := cursor
    obtain ⟨q, hq, hq'⟩ := Option.map_eq_some_iff.1 endPage
    exact ⟨endCol, by rw [hq, BitVec.eq_of_toNat_eq hq']⟩

/-- Data bytes with a delay after each are as many data frames, CD staying High (45_fill.md R230). -/
theorem hears_fill (c : Cfg) (p : Pins) (b : Byte) (d n : Nat) (hcs : p.cs = .low) (hcd : p.cd = .high) :
    Hears c p (List.replicate n (byteEvents c b ++ [.delayUs d])).flatten (List.replicate n (.data (some b))) ∧
      (linesAfter p (List.replicate n (byteEvents c b ++ [.delayUs d])).flatten).cd = .high := by
  induction n with
  | zero => exact ⟨hears_nil hcs, hcd⟩
  | succ n ih =>
    obtain ⟨h, cd⟩ := ih
    rw [List.replicate_succ', List.replicate_succ', List.flatten_append, List.flatten_singleton, ← List.append_assoc]
    exact ⟨(h.data b cd).delayUs d, by simpa using cd⟩

/-- A fill with the controller READY and CD High sets no mark (42_lifecycle.md R167, 41_framer.md R141). -/
theorem fillMarks_of_ready {s : State} (n : Nat) (hr : s.ctl = .ready) (hcd : s.pin.cd = .high) :
    fillMarks n s = s.marks := by
  simp [fillMarks, readyMarks, dataMarks, hr, hcd]

/-- Settles O41: the fill is received as a panel's worth of data frames, under which the cursor goes once round. -/
theorem fillScreenCoversTheRam : Obligations.FillScreenCoversTheRam := by
  intro pattern d col page s hc hdet hready h hcd hcol hpage hcw hpp
  refine ⟨_, execFillScreen_eq pattern d s, ⟨hdet.1, ?_⟩, ?_⟩
  · simpa [devUndefined, fillMarks_of_ready _ hready hcd] using hdet.2
  · obtain ⟨heard, -⟩ := hears_fill s.cfg (s.pin.set .cs .low) pattern d (screenBytes s.cfg) rfl hcd
    rw [play_rx, rx_bracketEvents heard (rested_of_atRest h)]
    exact filled_panel hc pattern hcol hpage hcw hpp

end Sys2Proof.Machine
end

section
/-! PROOFS. The assembler text: a line written from a mnemonic and operand texts without blanks, commas and semicolons is
read as that mnemonic and those texts, and each operand the encoder writes reads as itself. -/

namespace Sys2Proof

/-! ### Tokens: texts that hold no separator -/

/-- A byte that no rule of the text grammar cuts at: no blank, comma or semicolon (30_encoding.md R100). -/
def isPlain (b : Byte) : Bool := !isBlank b && b != 0x2C && b != 0x3B

/-- A text that stays in one piece: it holds something, all of it plain. -/
structure Token (t : List Byte) : Prop where
  nonempty : t ≠ []
  plain    : t.all isPlain = true

theorem isPlain_iff (b : Byte) : isPlain b = true ↔ b ≠ 0x20 ∧ b ≠ 0x09 ∧ b ≠ 0x2C ∧ b ≠ 0x3B := by
  simp [isPlain, isBlank, and_assoc]

section Token
variable {t : List Byte} (h : Token t)
include h

theorem Token.not_separator : ∀ b ∈ t, (!isBlank b) = true ∧ b ≠ 0x2C ∧ b ≠ 0x3B := by
  intro b hb
  simpa [isPlain, and_assoc] using List.all_eq_true.1 h.plain b hb

theorem Token.not_blank : ∀ b ∈ t, (!isBlank b) = true := fun b hb => (h.not_separator b hb).1

theorem Token.no_comma : ∀ b ∈ t, b ≠ 0x2C := fun b hb => (h.not_separator b hb).2.1

theorem Token.no_semicolon : ∀ b ∈ t, b ≠ 0x3B := fun b hb => (h.not_separator b hb).2.2

end Token

theorem token_cons {b : Byte} {t : List Byte} (hb : isPlain b = true) (ht : t.all isPlain = true) : Token (b :: t) :=
  ⟨List.cons_ne_nil b t, by rw [List.all_cons, hb, ht]; rfl⟩

theorem token_mnemonic (m : Mnemonic) : Token m.text := by
  cases m <;> exact token_cons rfl rfl

theorem token_mode (m : BlendMode) : Token m.text := by
  cases m <;> exact token_cons rfl rfl

/-! ### Trimming -/

theorem trimBlanks_blank_cons (t : List Byte) : trimBlanks (0x20 :: t) = trimBlanks t := rfl

theorem dropWhile_blank_of_prefix {w t : List Byte} (hw : Token w) (h : w <+: t) : t.dropWhile isBlank = t := by
  obtain ⟨rest, rfl⟩ := h
  cases w with
  | nil => exact absurd rfl hw.nonempty
  | cons b w => simpa using hw.not_blank b (by simp)

/-- A text that begins and ends with a token has no blanks to trim. -/
theorem trimBlanks_of_tokens {w u t : List Byte} (hw : Token w) (hu : Token u) (h : w <+: t) (g : u <:+ t) :
    trimBlanks t = t := by
  have hur : Token u.reverse := ⟨by simpa using hu.nonempty, by rw [List.all_reverse, hu.plain]⟩
  rw [trimBlanks, dropWhile_blank_of_prefix hw h, dropWhile_blank_of_prefix hur (List.reverse_prefix.2 g),
    List.reverse_reverse]

theorem trimBlanks_token {w : List Byte} (hw : Token w) : trimBlanks w = w :=
  trimBlanks_of_tokens hw hw (List.prefix_refl w) (List.suffix_refl w)

/-! ### Operand lists -/

theorem splitAtByte_ne_nil (sep : Byte) (t : List Byte) : splitAtByte sep t ≠ [] := by
  cases t with
  | nil => simp [splitAtByte]
  | cons b t =>
    simp only [splitAtByte]
    split
    · simp
    · split <;> simp

/-- A byte that is not the separator joins the first part. -/
theorem splitAtByte_cons_of_ne {sep b : Byte} {t hd : List Byte} {tl : List (List Byte)} (h : b ≠ sep)
    (e : splitAtByte sep t = hd :: tl) : splitAtByte sep (b :: t) = (b :: hd) :: tl := by
  simp [splitAtByte, h, e]

theorem splitAtByte_of_not_mem {sep : Byte} {t : List Byte} (h : ∀ b ∈ t, b ≠ sep) : splitAtByte sep t = [t] := by
  induction t with
  | nil => rfl
  | cons b t ih =>
    obtain ⟨hb, ht⟩ := List.forall_mem_cons.1 h
    exact splitAtByte_cons_of_ne hb (ih ht)

theorem splitAtByte_append_sep {sep : Byte} {t : List Byte} (rest : List Byte) (h : ∀ b ∈ t, b ≠ sep) :
    splitAtByte sep (t ++ sep :: rest) = t :: splitAtByte sep rest := by
  induction t with
  | nil => simp [splitAtByte]
  | cons b t ih =>
    obtain ⟨hb, ht⟩ := List.forall_mem_cons.1 h
    exact splitAtByte_cons_of_ne hb (ih ht)

/-- A blank before an operand is trimmed away. -/
theorem map_trimBlanks_splitAtByte_blank (t : List Byte) :
    (splitAtByte 0x2C (0x20 :: t)).map trimBlanks = (splitAtByte 0x2C t).map trimBlanks := by
  obtain ⟨hd, tl, e⟩ := List.exists_cons_of_ne_nil (splitAtByte_ne_nil 0x2C t)
  rw [e, splitAtByte_cons_of_ne (by decide) e, List.map_cons, List.map_cons, trimBlanks_blank_cons]

theorem split_joinOperands {ops : List (List Byte)} (hne : ops ≠ []) (h : ∀ t ∈ ops, Token t) :
    (splitAtByte 0x2C (joinOperands ops)).map trimBlanks = ops := by
  induction ops using joinOperands.induct with
  | case1 => exact absurd rfl hne
  | case2 t =>
    have ht : Token t := h t (by simp)
    rw [joinOperands, splitAtByte_of_not_mem ht.no_comma, List.map_singleton, trimBlanks_token ht]
  | case3 t u rest ih =>
    obtain ⟨ht, hrest⟩ := List.forall_mem_cons.1 h
    rw [joinOperands, splitAtByte_append_sep _ ht.no_comma, List.map_cons, trimBlanks_token ht,
      map_trimBlanks_splitAtByte_blank, ih (by simp) hrest]

/-- A joined list of tokens begins and ends with a token. -/
theorem joinOperands_tokens {ops : List (List Byte)} (hne : ops ≠ []) (h : ∀ t ∈ ops, Token t) :
    ∃ w u, Token w ∧ Token u ∧ w <+: joinOperands ops ∧ u <:+ joinOperands ops := by
  induction ops using joinOperands.induct with
  | case1 => exact absurd rfl hne
  | case2 t => exact ⟨t, t, h t (by simp), h t (by simp), List.prefix_refl t, List.suffix_refl t⟩
  | case3 t u rest ih =>
    obtain ⟨ht, hrest⟩ := List.forall_mem_cons.1 h
    obtain ⟨-, v, -, hv, -, suffix⟩ := ih (by simp) hrest
    exact ⟨t, v, ht, hv, List.prefix_append t _, suffix.trans ⟨t ++ [0x2C, 0x20], by simp [joinOperands]⟩⟩

theorem operandTexts_joinOperands {ops : List (List Byte)} (hne : ops ≠ []) (h : ∀ t ∈ ops, Token t) :
    operandTexts (0x20 :: joinOperands ops) = ops := by
  obtain ⟨w, u, hw, hu, hpre, hsuf⟩ := joinOperands_tokens hne h
  have nonempty : joinOperands ops ≠ [] := fun e => hw.nonempty (List.prefix_nil.1 (e ▸ hpre))
  simp only [operandTexts, trimBlanks_blank_cons, trimBlanks_of_tokens hw hu hpre hsuf, nonempty, if_false,
    split_joinOperands hne h]

/-! ### Lines -/

/-- What a written line holds after its mnemonic. -/
def lineTail (ops : List (List Byte)) : List Byte := if ops = [] then [] else 0x20 :: joinOperands ops

theorem lineText_eq (m : Mnemonic) (ops : List (List Byte)) : lineText m ops = m.text ++ lineTail ops := by
  unfold lineText lineTail
  split <;> simp

section Line
variable {ops : List (List Byte)}

theorem operandTexts_lineTail (h : ∀ t ∈ ops, Token t) : operandTexts (lineTail ops) = ops := by
  unfold lineTail
  split
  next hne => exact hne.symm
  next hne => exact operandTexts_joinOperands hne h

theorem no_semicolon_joinOperands (h : ∀ t ∈ ops, Token t) : ∀ b ∈ joinOperands ops, b ≠ 0x3B := by
  induction ops using joinOperands.induct with
  | case1 => simp [joinOperands]
  | case2 t => exact (h t (by simp)).no_semicolon
  | case3 t u rest ih =>
    obtain ⟨ht, hrest⟩ := List.forall_mem_cons.1 h
    simp only [joinOperands, List.forall_mem_append, List.forall_mem_cons]
    exact ⟨ht.no_semicolon, by decide, by decide, ih hrest⟩

theorem no_semicolon_lineText (m : Mnemonic) (h : ∀ t ∈ ops, Token t) : ∀ b ∈ lineText m ops, b ≠ 0x3B := by
  rw [lineText_eq, List.forall_mem_append]
  refine ⟨(token_mnemonic m).no_semicolon, ?_⟩
  unfold lineTail
  split
  · simp
  · exact List.forall_mem_cons.2 ⟨by decide, no_semicolon_joinOperands h⟩

/-- A written line holds no comment to cut off. -/
theorem takeWhile_not_semicolon_lineText (m : Mnemonic) (h : ∀ t ∈ ops, Token t) :
    (lineText m ops).takeWhile (fun b => b != 0x3B) = lineText m ops :=
  List.takeWhile_eq_self_iff.2 fun b hb => by simpa using no_semicolon_lineText m h b hb

theorem trimBlanks_lineText (m : Mnemonic) (h : ∀ t ∈ ops, Token t) : trimBlanks (lineText m ops) = lineText m ops := by
  have hm := token_mnemonic m
  by_cases hne : ops = []
  · rw [lineText, if_pos hne, trimBlanks_token hm]
  · obtain ⟨-, u, -, hu, -, suffix⟩ := joinOperands_tokens hne h
    rw [lineText, if_neg hne]
    exact trimBlanks_of_tokens hm hu (List.prefix_append _ _) (suffix.trans ⟨m.text ++ [0x20], by simp⟩)

theorem takeWhile_lineText (m : Mnemonic) (ops : List (List Byte)) :
    (lineText m ops).takeWhile (fun b => !isBlank b) = m.text := by
  have tail : (lineTail ops).takeWhile (fun b => !isBlank b) = [] := by
    unfold lineTail
    split <;> rfl
  rw [lineText_eq, List.takeWhile_append_of_pos (token_mnemonic m).not_blank, tail, List.append_nil]

theorem dropWhile_lineText (m : Mnemonic) (ops : List (List Byte)) :
    (lineText m ops).dropWhile (fun b => !isBlank b) = lineTail ops := by
  have tail : (lineTail ops).dropWhile (fun b => !isBlank b) = lineTail ops := by
    unfold lineTail
    split <;> rfl
  rw [lineText_eq, List.dropWhile_append_of_pos (token_mnemonic m).not_blank, tail]

theorem find_mnemonic (m : Mnemonic) : mnemonics.find? (fun k => k.text == m.text) = some m := by
  cases m <;> rfl

/-- A written line is read as its mnemonic with its operand texts (30_encoding.md R100). -/
theorem decodeLine_lineText (arrays : HostArrays) (c : Cfg) (m : Mnemonic) (h : ∀ t ∈ ops, Token t) :
    decodeLine arrays c (lineText m ops) = assemble arrays c m ops := by
  simp only [decodeLine, takeWhile_not_semicolon_lineText m h, trimBlanks_lineText m h, takeWhile_lineText,
    dropWhile_lineText, (token_mnemonic m).nonempty, if_false, find_mnemonic, operandTexts_lineTail h]

end Line

/-! ### Numbers -/

/-- The byte is a decimal digit. -/
def IsDecimal (b : Byte) : Prop := 0x30 ≤ b.toNat ∧ b.toNat ≤ 0x39

theorem toNat_decimal {d : Nat} (h : d < 10) : (BitVec.ofNat 8 (0x30 + d)).toNat = 0x30 + d := by
  rw [BitVec.toNat_ofNat]
  omega

theorem isDecimal_ofNat {d : Nat} (h : d < 10) : IsDecimal (BitVec.ofNat 8 (0x30 + d)) := by
  rw [IsDecimal, toNat_decimal h]
  omega

theorem decDigit_ofNat {d : Nat} (h : d < 10) : decDigit (BitVec.ofNat 8 (0x30 + d)) = some d := by
  rw [decDigit, toNat_decimal h, if_pos (by omega), Nat.add_sub_cancel_left]

theorem IsDecimal.ne {b x : Byte} (h : IsDecimal b) (hx : ¬ IsDecimal x) : b ≠ x :=
  fun e => hx (e ▸ h)

theorem IsDecimal.isPlain {b : Byte} (h : IsDecimal b) : isPlain b = true := by
  rw [isPlain_iff]
  refine ⟨h.ne ?_, h.ne ?_, h.ne ?_, h.ne ?_⟩ <;> simp [IsDecimal]

theorem isDecimal_decDigits (fuel n : Nat) : ∀ b ∈ decDigits fuel n, IsDecimal b := by
  induction fuel generalizing n with
  | zero => simp [decDigits]
  | succ fuel ih =>
    simp only [decDigits]
    split
    next h => simpa using isDecimal_ofNat h
    next =>
      simp only [List.forall_mem_append, List.forall_mem_singleton]
      exact ⟨ih (n / 10), isDecimal_ofNat (by omega)⟩

theorem isDecimal_natText (n : Nat) : ∀ b ∈ natText n, IsDecimal b := isDecimal_decDigits (n + 1) n

theorem natText_ne_nil (n : Nat) : natText n ≠ [] := by
  rw [natText, decDigits]
  split <;> simp

theorem readDigits_append (base : Nat) (digit : Byte → Option Nat) (s t : List Byte) (acc : Nat) :
    readDigits base digit (s ++ t) acc = (readDigits base digit s acc).bind (readDigits base digit t) := by
  induction s generalizing acc with
  | nil => rfl
  | cons b s ih =>
    simp only [List.cons_append, readDigits]
    cases digit b with
    | none => rfl
    | some d => exact ih _

theorem readDigits_decimal {d : Nat} (acc : Nat) (h : d < 10) :
    readDigits 10 decDigit [BitVec.ofNat 8 (0x30 + d)] acc = some (acc * 10 + d) := by
  simp only [readDigits, decDigit_ofNat h]

/-- Enough digits of a number read as the number. -/
theorem readDigits_decDigits {fuel n : Nat} (h : n < fuel) : readDigits 10 decDigit (decDigits fuel n) 0 = some n := by
  induction fuel generalizing n with
  | zero => omega
  | succ fuel ih =>
    simp only [decDigits]
    split
    next hn => simpa using readDigits_decimal 0 hn
    next hn =>
      rw [readDigits_append, ih (by omega), Option.bind_some, readDigits_decimal _ (Nat.mod_lt n (by omega))]
      congr 1
      omega

/-- Decimal digits have no `x` among them, so they are not read as hexadecimal. -/
theorem readNat_of_isDecimal {t : List Byte} (hne : t ≠ []) (h : ∀ b ∈ t, IsDecimal b) :
    readNat t = readDigits 10 decDigit t 0 := by
  match t with
  | [] => exact absurd rfl hne
  | [b] => rfl
  | b :: x :: t =>
    have hx : x ≠ 0x78 := (h x (by simp)).ne (by simp [IsDecimal])
    simp only [readNat, hx, and_false, if_false]

theorem readNat_natText (n : Nat) : readNat (natText n) = some n := by
  rw [readNat_of_isDecimal (natText_ne_nil n) (isDecimal_natText n), natText, readDigits_decDigits (Nat.lt_succ_self n)]

theorem readInt_intText (n : Int) : readInt (intText n) = some n := by
  unfold intText
  split
  next h =>
    simp [readInt, readNat_natText, abs_of_neg h]
  next h =>
    obtain ⟨b, t, e⟩ := List.exists_cons_of_ne_nil (natText_ne_nil n.natAbs)
    have digit : IsDecimal b := isDecimal_natText n.natAbs b (by simp [e])
    rw [e, readInt, if_neg (digit.ne (by simp [IsDecimal])), ← e, readNat_natText]
    simp [abs_of_nonneg (not_lt.1 h)]

/-! ### Operands -/

theorem readNatOperand_natText (n : Nat) : readNatOperand (natText n) = .ok n := by
  simp [readNatOperand, readNat_natText]

theorem readU8_natText {n : Nat} (h : isUInt8 n = true) : readU8 (natText n) = .ok n := by
  simp [readU8, readNat_natText, h]

theorem readByte_byteText (b : Byte) : readByte (byteText b) = .ok b := by
  have range : isUInt8 b.toNat = true := by
    simp only [isUInt8, decide_eq_true_eq]
    omega
  rw [readByte, byteText, readU8_natText range]
  exact congrArg Except.ok (by simp)

theorem readI16_intText {n : Int} (h : isInt16 n = true) : readI16 (intText n) = .ok n := by
  simp [readI16, readInt_intText, h]

theorem readMode_text (m : BlendMode) : readMode m.text = .ok m := by
  cases m <;> rfl

theorem readArray_of_find {arrays : HostArrays} {name bytes : List Byte} (h : arrays.find name = some bytes) :
    readArray arrays (0x40 :: name) = .ok bytes := by
  simp [readArray, h]

theorem token_natText (n : Nat) : Token (natText n) :=
  ⟨natText_ne_nil n, List.all_eq_true.2 fun b hb => (isDecimal_natText n b hb).isPlain⟩

theorem token_byteText (b : Byte) : Token (byteText b) := token_natText b.toNat

theorem token_intText (n : Int) : Token (intText n) := by
  unfold intText
  split
  · exact token_cons rfl (token_natText _).plain
  · exact token_natText _

theorem token_name {name : List Byte} (h : ∀ b ∈ name, b ≠ 0x20 ∧ b ≠ 0x09 ∧ b ≠ 0x2C ∧ b ≠ 0x3B) :
    Token (0x40 :: name) :=
  token_cons rfl (List.all_eq_true.2 fun b hb => (isPlain_iff b).2 (h b hb))

/-! ### The statements -/

/-- The operand ranges of `TRANSFER`, which are those of `BITMAP` too (30_encoding.md R97). -/
theorem box_wellFormed_iff (x y : Int) (w h : Nat) :
    (Instr.transfer x y w h).wellFormed = true ↔
      isInt16 x = true ∧ isInt16 y = true ∧ isUInt8 w = true ∧ isUInt8 h = true := by
  simp [Instr.wellFormed, and_assoc]

/-- A written line of one byte operand. -/
theorem decodeLine_byte (arrays : HostArrays) (c : Cfg) {m : Mnemonic} {build : Byte → Instr} (v : Byte)
    (hm : ∀ t, assemble arrays c m [t] = readOne build t) :
    decodeLine arrays c (lineText m [byteText v]) = .ok (build v) := by
  rw [decodeLine_lineText arrays c m (by simp [token_byteText]), hm, readOne, readByte_byteText]
  rfl

/-- Settles O4: the line is read as its mnemonic and operand texts, and each operand text as the operand it was written
from. -/
theorem lineEncodeThenDecode : Obligations.LineEncodeThenDecode := by
  intro c arrays name i line hw he hname
  cases i with
  | beginOp v | displayEnable v | scroll v | orient v | invert v | allOn v | fillPage v =>
    cases he
    exact decodeLine_byte arrays c v fun _ => rfl
  | reset | clearBuffer =>
    cases he
    exact decodeLine_lineText arrays c _ (by simp)
  | setPixel x y m =>
    cases he
    obtain ⟨hx, hy⟩ := Bool.and_eq_true_iff.1 hw
    rw [decodeLine_lineText arrays c _ (by simp [token_intText, token_mode])]
    simp only [assemble, readI16_intText hx, readI16_intText hy, readMode_text, bind, Except.bind]
  | transfer x y w h =>
    cases he
    obtain ⟨hx, hy, hw, hh⟩ := (box_wellFormed_iff x y w h).1 hw
    rw [decodeLine_lineText arrays c _ (by simp [token_intText, token_natText])]
    simp only [assemble, readI16_intText hx, readI16_intText hy, readU8_natText hw, readU8_natText hh, bind, Except.bind]
  | bitmap x y w h image =>
    cases he
    obtain ⟨hx, hy, hw, hh⟩ := (box_wellFormed_iff x y w h).1 hw
    obtain ⟨found, plain⟩ := hname x y w h image rfl
    have image : Token (0x40 :: name) := token_name plain
    rw [decodeLine_lineText arrays c _ (by simpa [token_intText, token_natText] using image)]
    simp only [assemble, readI16_intText hx, readI16_intText hy, readU8_natText hw, readU8_natText hh,
      readArray_of_find found, bind, Except.bind]
  | fillScreen p d =>
    cases he
    rw [decodeLine_lineText arrays c _ (by simp [token_byteText, token_natText])]
    simp only [assemble, readByte_byteText, readNatOperand_natText, bind, Except.bind]
  | _ => cases he

/-- Settles O5: each line is its mnemonic alone, which `assemble` expands. -/
theorem pseudoOperationsExpand : Obligations.PseudoOperationsExpand := by
  intro c arrays
  have alone : ∀ m, decodeLine arrays c (lineText m []) = assemble arrays c m [] :=
    fun m => decodeLine_lineText arrays c m (by simp)
  exact ⟨alone .flush, alone .displayOff, alone .displayOn⟩

end Sys2Proof
end

section
/-! PROOFS. The wire bytes: what a row of the opcode table reads encodes to the byte it was read from, with the reference
map each row reads its own bytes, and what a wire byte does when the Block or the Host issues it. -/

namespace Sys2Proof

/-! ### The rows of the decoder -/

/-- The operation the row reads encodes to the row's pattern OR the value field it was read from (30_encoding.md R91). -/
def WireRow.KeepsField (c : Cfg) (r : WireRow) : Prop :=
  ∀ b : Byte, encodeWire c (r.build (b &&& ~~~r.mask)) = some (.command, r.pattern ||| (b &&& ~~~r.mask))

theorem keepsField_fixedRow {c : Cfg} {sel v : Byte} {i : Instr} (h : encodeWire c i = some (.command, sel ||| v)) :
    (fixedRow sel v i).KeepsField c := by
  intro b
  simp [fixedRow, h]

theorem keepsField_fieldRow {c : Cfg} {mask sel : Byte} {build : Byte → Instr}
    (h : ∀ v, encodeWire c (build v) = some (.command, sel ||| v)) : (fieldRow mask sel build).KeepsField c :=
  fun b => h (b &&& ~~~mask)

theorem keepsField_nibbleRow {c : Cfg} {sel : Byte} {build : Nibble → Instr}
    (h : ∀ n, encodeWire c (build n) = some (.command, sel ||| n.setWidth 8)) :
    (fieldRow 0xF0 sel fun v => build (lowNibble v)).KeepsField c := by
  intro b
  refine (h (lowNibble (b &&& ~~~(0xF0 : Byte)))).trans ?_
  rw [lowNibble_field]
  rfl

/-- Every row of the opcode table keeps its value field (30_encoding.md R105 to R118). -/
theorem commandRows_keepField (c : Cfg) : ∀ r ∈ commandRows c, r.KeepsField c := by
  simp only [commandRows, List.forall_mem_cons, List.not_mem_nil, false_implies, implies_true, and_true]
  refine ⟨?_, ?_, ?_, ?_, ?_, ?_, ?_, ?_, ?_, ?_, ?_, ?_, ?_, ?_⟩
  iterate 5 exact keepsField_fixedRow rfl
  iterate 6 exact keepsField_fieldRow fun _ => rfl
  iterate 3 exact keepsField_nibbleRow fun _ => rfl

/-- Settles O2: a command byte is the pattern of the row it matches OR its value field, and the row keeps that field. -/
theorem wireDecodeLosesNoBit : Obligations.WireDecodeLosesNoBit := by
  intro c cls bytes i h
  unfold decodeWire at h
  split at h
  next b =>
    cases h
    exact ⟨b, rfl, rfl⟩
  next b =>
    split at h
    next j hj =>
      cases h
      obtain ⟨r, hr, hm, rfl⟩ := matchRows_some hj
      refine ⟨b, rfl, ?_⟩
      rw [commandRows_keepField c r (mem_wireRows.1 hr) b, ← hm, and_or_and_not]
    next => cases h
  next => cases h

/-! ### The reference map -/

/-- The wire decoder looks at nothing of the configuration but the selectors and the initial values. -/
theorem decodeWire_congr {c d : Cfg} (hm : c.regmap = d.regmap) (hv : c.initvals = d.initvals) :
    decodeWire c = decodeWire d := by
  have rows : wireRows c = wireRows d := by simp only [wireRows, commandRows, hm, hv]
  funext cls bytes
  simp only [decodeWire, rows]

/-- The gain bytes of the reference map that read as no other command (93_implementation_defined.md U16). -/
abbrev OnlyGain (b : Byte) : Prop :=
  b ≠ 0xA1 ∧ b ≠ 0xEB ∧ b ≠ 0xA5 ∧ b ≠ 0xA7 ∧ b ≠ 0xAF ∧ b &&& 0xF0 ≠ 0xB0

/-- With the reference map (log 2) no row but the gain row, whose mask is 0x81, has a byte that an earlier row takes: a check
of the 256 value bytes of each row. -/
theorem matchRows_reference : ∀ r ∈ commandRows Cfg.reference, ∀ v : Byte, v &&& r.mask = 0 →
    r.mask ≠ 0x81 ∨ OnlyGain (r.pattern ||| v) →
    matchRows (wireRows Cfg.reference) (r.pattern ||| v) = some (r.build v) := by
  decide +kernel

theorem decodeWire_reference {r : WireRow} {v : Byte} (hr : r ∈ commandRows Cfg.reference) (hv : v &&& r.mask = 0)
    (hg : r.mask ≠ 0x81 ∨ OnlyGain (r.pattern ||| v)) :
    decodeWire Cfg.reference .command [r.pattern ||| v] = .ok (r.build v) := by
  simp only [decodeWire, matchRows_reference r hr v hv hg]

theorem decodeWire_reference_field {mask sel : Byte} {build : Byte → Instr} {v : Byte}
    (hr : fieldRow mask sel build ∈ commandRows Cfg.reference) (hm : mask ≠ 0x81) (hv : v &&& mask = 0) :
    decodeWire Cfg.reference .command [sel ||| v] = .ok (build v) :=
  decodeWire_reference hr hv (.inl hm)

theorem decodeWire_reference_nibble {sel : Byte} {build : Nibble → Instr} (n : Nibble)
    (hr : (fieldRow 0xF0 sel fun v => build (lowNibble v)) ∈ commandRows Cfg.reference) :
    decodeWire Cfg.reference .command [sel ||| n.setWidth 8] = .ok (build n) := by
  have field : n.setWidth 8 &&& (0xF0 : Byte) = 0 := by
    revert n
    decide
  have nibble : lowNibble (n.setWidth 8) = n := by
    revert n
    decide
  rw [decodeWire_reference_field hr (by decide) field, nibble]

/-- The wire encoder too looks at nothing else of the configuration. -/
theorem encodeWire_congr {c d : Cfg} (hm : c.regmap = d.regmap) (hv : c.initvals = d.initvals) (i : Instr) :
    encodeWire c i = encodeWire d i := by
  cases i <;> simp [encodeWire, Instr.command, hm, hv]

/-- Settles O3, by each row's own bytes in the reference map. -/
theorem wireEncodeThenDecode : Obligations.WireEncodeThenDecode := by
  intro c i cls b hm hv he hfield
  rw [encodeWire_congr (d := Cfg.reference) hm hv] at he
  rw [decodeWire_congr (d := Cfg.reference) hm hv]
  cases i with
  | data b => cases he; rfl
  | cmdTempcomp | cmdAddrmode | cmdFramerate | cmdBias | cmdPower => cases he; decide
  | cmdGain v =>
    obtain ⟨hv, only⟩ := hfield
    cases he
    have row : fieldRow Cfg.reference.regmap.gain Cfg.reference.regmap.gain .cmdGain ∈ commandRows Cfg.reference := by
      simp [commandRows]
    exact decodeWire_reference row hv (.inr only)
  | cmdDispen v | cmdOrient v | cmdScroll v | cmdInverse v | cmdAllon v =>
    cases he
    exact decodeWire_reference_field (by simp [commandRows, RegMap.sel]) (by decide) hfield
  | cmdColLo n | cmdColHi n | cmdPage n =>
    cases he
    exact decodeWire_reference_nibble n (by simp [commandRows, RegMap.sel])
  | _ => cases he

/-- Settles O1, by evaluating the decoders. -/
theorem referenceBytesDecode : Obligations.ReferenceBytesDecode := by
  unfold Obligations.ReferenceBytesDecode
  decide

end Sys2Proof

namespace Sys2Proof.Machine

/-! ### Wire bytes executed -/

/-- A command byte encodes as its register's selector OR its value (30_encoding.md R91). -/
theorem encodeWire_of_command {c : Cfg} {i : Instr} {r : Reg} {v : Byte} (h : i.command c = some (r, v)) :
    encodeWire c i = some (.command, c.regmap.sel r ||| v) := by
  cases i with
  | data b => cases h
  | _ => simp [encodeWire, h]

/-- A command byte from the Block runs as the command it encodes (30_encoding.md R105 to R118). -/
theorem exec_of_command {s : State} {i : Instr} {r : Reg} {v : Byte} (hi : s.issuer = .block)
    (h : i.command s.cfg = some (r, v)) :
    ∃ d, exec i s =
      .next
        { s.play ([.pinWrite .cd .low] ++ byteEvents s.cfg (s.cfg.regmap.sel r ||| v) ++ [.pinWrite .cd .high]) with
          devRegs := d } := by
  have run : exec i s = .next (sendCommand r v s) := by
    cases i <;> cases h <;> exact wireCommand_of_block _ _ hi
  rw [run, sendCommand_eq]
  exact ⟨_, rfl⟩

/-- The mark of a data byte is set exactly when CD is not High (41_framer.md R141). -/
theorem dataMarks_eq_ite (m : Marks) (s : State) :
    dataMarks m s = if s.pin.cd = .high then m else { m with dataCdNotHigh := true } := by
  by_cases h : s.pin.cd = .high <;> simp [dataMarks, h]

theorem exec_data_of_block {s : State} (b : Byte) (hi : s.issuer = .block) :
    exec (.data b) s = .next (sendData b s) := by
  simp [exec, execData, whenWire, hi]

/-- Settles O42: each row is the command of its register, which encodes and runs as such. -/
theorem registerCommandBytesRun : Obligations.RegisterCommandBytesRun := by
  intro v s i r value hi hrow
  have command : i.command s.cfg = some (r, value) := by
    rcases hrow with h | h | h | h | h | h | h | h | h | h | h <;> obtain ⟨rfl, rfl, rfl⟩ := h <;> rfl
  exact ⟨encodeWire_of_command command, exec_of_command hi command⟩

/-- Settles O43: the addressing rows are commands, and the data row sends its byte. -/
theorem addressingAndDataBytesRun : Obligations.AddressingAndDataBytesRun := by
  intro n b s hi
  constructor
  · intro i r hrow
    have command : i.command s.cfg = some (r, n.setWidth 8) := by
      rcases hrow with ⟨rfl, rfl⟩ | ⟨rfl, rfl⟩ | ⟨rfl, rfl⟩ <;> rfl
    exact exec_of_command hi command
  · rw [exec_data_of_block b hi, sendData_eq, dataMarks_eq_ite]

theorem wireCommand_of_host {s : State} (r : Reg) (v : Byte) (hi : s.issuer = .host) :
    wireCommand r v s = .refused .wireUnit := by
  simp [wireCommand, whenWire, hi]

theorem exec_data_of_host {s : State} (b : Byte) (hi : s.issuer = .host) : exec (.data b) s = .refused .wireUnit := by
  simp [exec, execData, whenWire, hi]

/-- Settles O11: a command row and the data row run under the same check of the issuer. -/
theorem wireBytesAreTheBlocks : Obligations.WireBytesAreTheBlocks := by
  intro i s hf hi
  cases i with
  | data b => exact exec_data_of_host b hi
  | _ => cases hf <;> exact wireCommand_of_host _ _ hi

/-! ### Host operations and items that do not run -/

/-- A stream no higher than 248 rows completes, at its end or at a byte it cannot read (44_transfer.md R206, R209). -/
theorem streamOp_completes (x y : Int) (w : Nat) {h : Nat} (src : Source) (s : State) (hh : h ≤ 248) :
    ∃ t, streamOp x y w h src s = .next t := by
  rcases streamOp_cases x y w h src s with ⟨tall, -⟩ | ⟨-, -, e⟩ | ⟨-, _, _, _, _, -, -, -, e⟩
  · omega
  · exact ⟨_, e⟩
  · exact ⟨_, e⟩

/-- Settles O10: only the two streams of the Host can refuse, and only for their height. -/
theorem everyHostCallCompletes : Obligations.EveryHostCallCompletes := by
  intro i s hf transfer bitmap
  cases i with
  | transfer x y w h => exact streamOp_completes x y w .buffer s (transfer x y w h rfl)
  | bitmap x y w h image => exact streamOp_completes x y w (.array image) s (bitmap x y w h image rfl)
  | beginOp | reset | displayEnable | scroll | orient | invert | allOn | setPixel | clearBuffer | fillScreen | fillPage =>
    exact ⟨_, rfl⟩
  | _ => cases hf

theorem step_of_fetchItem_error {s : State} {it : Item} {rest : List Item} {r : Refusal} (hf : s.fault = none)
    (hp : s.pending = it :: rest) (h : fetchItem s it = .error r) : step s = .refused r := by
  simp [step, hf, hp, h]

theorem fetchItem_of_readItem_error {s : State} {it : Item} {r : Refusal} (h : readItem s it = .error r) :
    fetchItem s it = .error r := by
  simp [fetchItem, h]

/-- 30_encoding.md R97. -/
theorem fetchItem_of_not_wellFormed {s : State} {it : Item} {a : Agent} {i : Instr} (h : readItem s it = .ok (a, i))
    (hw : i.wellFormed = false) : fetchItem s it = .error .malformed := by
  simp [fetchItem, h, hw]

theorem readItem_wire_error {s : State} {cls : WireClass} {bytes : List Byte} {why : Reject}
    (h : decodeWire s.cfg cls bytes = .error why) : readItem s (.wire cls bytes) = .error (.undecodable why) := by
  simp [readItem, h]

/-- An internal operation's name is refused as the internal operation (60_exceptions.md R243). -/
theorem readItem_line_error {s : State} {text : List Byte} {why : Reject}
    (h : decodeLine s.arrays s.cfg text = .error why) :
    readItem s (.line text) = .error (if why = .internalOperation then .internalOp else .undecodable why) := by
  cases why <;> simp [readItem, h]

/-- Settles O8: what the head item reads as, or how its operation is ill-formed, is what the step refuses. -/
theorem badItemsAreRefused : Obligations.BadItemsAreRefused := by
  intro s rest i why hf
  refine ⟨fun cls bytes hp hd => ?_, fun text hp hd => ?_, fun hp hw => ?_⟩
  · exact step_of_fetchItem_error hf hp (fetchItem_of_readItem_error (readItem_wire_error hd))
  · exact step_of_fetchItem_error hf hp (fetchItem_of_readItem_error (readItem_line_error hd))
  · rcases hp with hp | hp <;> exact step_of_fetchItem_error hf hp (fetchItem_of_not_wellFormed rfl hw)

end Sys2Proof.Machine
end

section
/-! PROOFS. One byte on the channel in each transport mode, and what a receiver at rest makes of it: one frame while CS is
Low, and nothing otherwise (40_transport.md R120 to R133). -/

namespace Sys2Proof.Machine

/-! ### The byte sent -/

theorem exec_sendByte_of_block {s : State} (b : Byte) (hi : s.issuer = .block) :
    exec (.sendByte b) s = .next (sendByte b s) := by
  simp [exec, execSendByte, whenInternal, hi]

theorem sendByte_of_hw {s : State} (b : Byte) (hx : s.cfg.xport = .hw) : sendByte b s = emit (.spiByte b) s := by
  simp [sendByte, hx]

/-- Bit 7 first (40_transport.md R121). -/
theorem byteEvents_of_sw {c : Cfg} {clk dat : Nat} (b : Byte) (hx : c.xport = .sw clk dat) :
    byteEvents c b = [7, 6, 5, 4, 3, 2, 1, 0].flatMap fun k => bitEvents c (b.getLsbD k) := by
  simp [byteEvents, hx]

/-- A software byte leaves SDA at its last bit and SCLK Low (40_transport.md R121). -/
theorem linesAfter_byteEvents_of_sw {c : Cfg} {clk dat : Nat} (b : Byte) (p : Pins) (hx : c.xport = .sw clk dat) :
    linesAfter p (byteEvents c b) = { p with sclk := .low, sda := if b.getLsbD 0 then .high else .low } := by
  simp [byteEvents_of_sw b hx, bitEvents, Pins.set]

theorem length_byteEvents_pos (c : Cfg) (b : Byte) : 0 < (byteEvents c b).length := by
  cases hx : c.xport with
  | hw => simp [byteEvents, hx]
  | sw clk dat => simp [byteEvents, hx, bitEvents]

/-- The mark of `SEND_DATA` is no event, so the receiver takes its byte as that of `SEND_BYTE` (41_framer.md R141). -/
theorem sendData_rx (b : Byte) (s : State) : (sendData b s).rx = (sendByte b s).rx := by
  rw [sendData_eq, sendByte_eq_play]

/-! ### The byte received -/

theorem atRest_of_rested {s : State} (h : s.rx.Rested s.cfg s.pin) : s.ReceiverAtRest :=
  ⟨h.lv, ⟨h.count, h.shift⟩, h.sclk⟩

theorem atRest_play {s : State} {es : List Event} (h : s.ReceiverAtRest) (hes : Whole s.cfg es) :
    (s.play es).ReceiverAtRest :=
  atRest_of_rested (rested_whole hes _ _ (rested_of_atRest h))

/-- 40_transport.md R131. -/
theorem sendByte_rx_of_selected {s : State} (b : Byte) (h : s.ReceiverAtRest) (hcs : s.pin.cs = .low) :
    (sendByte b s).rx = s.rx.taken s.cfg (classify s.pin.cd (some b)) (sendByte b s).pin := by
  rw [sendByte_eq_play]
  exact rx_byteEvents_listening s.cfg s.rx s.pin b (rested_of_atRest h) hcs

/-- 40_transport.md R130. -/
theorem sendByte_rx_of_unselected {s : State} (b : Byte) (h : s.ReceiverAtRest) (hcs : s.pin.cs ≠ .low) :
    (sendByte b s).rx = { s.rx with lv := (sendByte b s).pin } := by
  rw [sendByte_eq_play, play_rx, rx_byteEvents_ignored _ _ _ (by rwa [h.sees_lines]), h.sees_lines, play_pin]

/-- A command sent while CS is not Low is not received; only the levels move (41_framer.md R142). -/
theorem rx_commandEvents_ignored (c : Cfg) (rx : Rx) (r : Reg) (v : Byte) (hcs : rx.lv.cs ≠ .low) :
    rx.events c (commandEvents c r v) = { rx with lv := linesAfter rx.lv (commandEvents c r v) } := by
  have cd_low : rx.event c (.pinWrite .cd .low) = { rx with lv := rx.lv.set .cd .low } := rfl
  have bytes := rx_byteEvents_ignored c { rx with lv := rx.lv.set .cd .low } (c.regmap.sel r ||| v) hcs
  simp only [commandEvents, List.cons_append, rx_events_cons, rx_events_append, cd_low, bytes]
  simp [Rx.event, Rx.edge]

theorem sendCommand_rx_of_unselected {s : State} (r : Reg) (v : Byte) (h : s.ReceiverAtRest) (hcs : s.pin.cs ≠ .low) :
    (sendCommand r v s).rx = { s.rx with lv := (sendCommand r v s).pin } := by
  rw [sendCommand_eq, play_rx, rx_commandEvents_ignored _ _ _ _ (by rwa [h.sees_lines]), h.sees_lines, play_pin]

/-! ### The statements -/

/-- Settles O12: the byte is one emitted event. -/
theorem sendByteHardware : Obligations.SendByteHardware := by
  intro b s hi hx
  rw [exec_sendByte_of_block b hi, sendByte_of_hw b hx]
  rfl

/-- Settles O13: the byte is its bits' events, bit 7 first, and the lines end where the last bit leaves them. -/
theorem sendByteSoftware : Obligations.SendByteSoftware := by
  intro b s clk dat hi hx
  refine ⟨byteEvents s.cfg b, byteEvents_of_sw b hx, by simp [byteEvents_of_sw b hx, bitEvents], ?_⟩
  rw [exec_sendByte_of_block b hi, sendByte_eq_play, State.play, linesAfter_byteEvents_of_sw b s.pin hx]

/-- Settles O16: a selected receiver at rest takes the byte as one frame, which CD classifies. -/
theorem selectedByteIsOneFrame : Obligations.SelectedByteIsOneFrame := by
  intro b s t hi h hcs he
  obtain rfl : sendByte b s = t := by simpa [exec_sendByte_of_block b hi] using he
  have rest : (sendByte b s).ReceiverAtRest := by
    rw [sendByte_eq_play]
    exact atRest_play h (whole_byteEvents s.cfg b)
  rw [sendByte_rx_of_selected b h hcs]
  cases s.pin.cd <;> exact ⟨rfl, rfl, rest⟩

/-- Settles O17: an unselected receiver sees only the levels move, and an unselected controller keeps its registers. -/
theorem unselectedBytesAreIgnored : Obligations.UnselectedBytesAreIgnored := by
  rintro s t i hi h hcs (⟨r, v, rfl⟩ | ⟨b, rfl⟩) he
  · obtain rfl : sendCommand r v s = t := by simpa [exec_sendCommand_of_block r v hi] using he
    rw [sendCommand_rx_of_unselected r v h hcs]
    exact ⟨rfl, rfl, by simp [sendCommand_eq, hcs], by simp [sendCommand_eq, commandEvents]⟩
  · obtain rfl : sendData b s = t := by simpa [exec_sendData_of_block b hi] using he
    rw [sendData_rx, sendByte_rx_of_unselected b h hcs]
    exact ⟨rfl, rfl, by simp [sendData_eq], by simp [sendData_eq, length_byteEvents_pos]⟩

/-- Settles O47: with CD Unknown the one frame is unclassified, and it undoes every field of the controller. -/
theorem unclassifiedByteUndoesTheController : Obligations.UnclassifiedByteUndoesTheController := by
  intro b s hi h hcs hcd
  refine ⟨sendData b s, exec_sendData_of_block b hi, ?_⟩
  rw [sendData_rx, sendByte_rx_of_selected b h hcs, hcd]
  exact ⟨rfl, rfl, rfl, rfl, fun _ _ => rfl, by simp [sendData_eq, dataMarks, hcd]⟩

end Sys2Proof.Machine
end

section
/-! PROOFS. The two transport modes side by side: each operation of the block, built from its pieces as the model builds it,
takes two machines that differ only in the transport to two such machines (40_transport.md R123). -/

namespace Sys2Proof.Machine

/-! ### Machines that differ only in the transport -/

/-- Two machines that differ only in the transport, both with the receiver between whole bytes. -/
structure Alike (s t : State) : Prop where
  same  : SameButTransport s t
  left  : s.ReceiverAtRest
  right : t.ReceiverAtRest

/-- Two operations in progress that have both run on, or both raised a fault, and left such machines. -/
inductive AlikeFlows : Flow → Flow → Prop where
  | running {s t : State} (h : Alike s t) : AlikeFlows (.running s) (.running t)
  | raised {s t : State} (h : Alike s t) : AlikeFlows (.raised s) (.raised t)

/-- Two operations that have both completed and left such machines, or have both been refused for one reason. -/
inductive AlikeResults : Result → Result → Prop where
  | next {s t : State} (h : Alike s t) : AlikeResults (.next s) (.next t)
  | refused (r : Refusal) : AlikeResults (.refused r) (.refused r)

/-- A configuration parameter that does not look at the transport is the same. -/
theorem SameButTransport.param {α : Type*} {s t : State} (h : SameButTransport s t) (f : Cfg → α)
    (hf : ∀ x, f { s.cfg with xport := x } = f s.cfg := by intro x; rfl) : f s.cfg = f t.cfg :=
  (hf t.cfg.xport).symm.trans (congrArg f h.cfg)

section Pieces
variable {s t : State}

/-! ### Fields besides the channel -/

theorem alike_withCtl (k : Ctl) (h : Alike s t) : Alike { s with ctl := k } { t with ctl := k } :=
  ⟨{ h.same with ctl := rfl }, { h.left with }, { h.right with }⟩

theorem alike_withConfigured (b : Bool) (h : Alike s t) :
    Alike { s with pinsConfigured := b } { t with pinsConfigured := b } :=
  ⟨{ h.same with conf := rfl }, { h.left with }, { h.right with }⟩

theorem alike_withDevRegs {d e : DevRegs} (hd : d = e) (h : Alike s t) :
    Alike { s with devRegs := d } { t with devRegs := e } :=
  ⟨{ h.same with devRegs := hd }, { h.left with }, { h.right with }⟩

theorem alike_withBuf {m n : List (Nat × TByte)} (hm : m = n) (h : Alike s t) :
    Alike { s with buf := m } { t with buf := n } :=
  ⟨{ h.same with buf := hm }, { h.left with }, { h.right with }⟩

theorem alike_raiseFault (r : Fault) (h : Alike s t) : Alike (raiseFault r s) (raiseFault r t) :=
  ⟨{ h.same with fault := rfl }, { h.left with }, { h.right with }⟩

theorem alike_markIf {b c : Bool} (hb : b = c) (k : Mark) (h : Alike s t) : Alike (markIf b k s) (markIf c k t) := by
  have marks : (markIf b k s).marks = (markIf c k t).marks := by simp [hb, h.same.marks]
  exact ⟨{ h.same with marks := marks }, { h.left with }, { h.right with }⟩

theorem alike_requireReady (h : Alike s t) : Alike (requireReady s) (requireReady t) :=
  alike_markIf (by rw [h.same.ctl]) _ h

theorem alike_requireConfigured (h : Alike s t) : Alike (requireConfigured s) (requireConfigured t) :=
  alike_markIf (by rw [h.same.conf]) _ h

theorem alike_requireDataMode (h : Alike s t) : Alike (requireDataMode s) (requireDataMode t) :=
  alike_markIf (by rw [h.same.cd]) _ h

theorem alike_requireScrollRange (v : Byte) (h : Alike s t) : Alike (requireScrollRange v s) (requireScrollRange v t) :=
  alike_markIf rfl _ h

theorem alike_noteRegister (r : Reg) (v : Byte) (h : Alike s t) : Alike (noteRegister r v s) (noteRegister r v t) :=
  alike_withDevRegs (by rw [h.same.cs, h.same.devRegs]) h

/-! ### The channel -/

/-- The lines both modes drive (10_state.md R34). -/
inductive ControlLine : Line → Prop where
  | cs : ControlLine .cs
  | cd : ControlLine .cd
  | rst : ControlLine .rst

/-- To a receiver at rest a write of a control line is a level, and the rising edge of RST the controller's reset
(40_transport.md R132, 20_memory.md R70). -/
theorem rx_controlLine {c : Cfg} {rx : Rx} {p : Pins} {l : Line} (hl : ControlLine l) (v : Level) (h : rx.Rested c p) :
    rx.event c (.pinWrite l v) =
      { rx with
        lv := p.set l v
        dev := if l = .rst ∧ v = .high ∧ p.rst = .low then Dev.afterReset else rx.dev } := by
  obtain ⟨lv, sh, n, fr, d⟩ := rx
  obtain ⟨rfl, rfl, rfl, -⟩ := h
  cases hl with
  | cd => rfl
  | cs => cases v <;> rfl
  | rst =>
    cases v with
    | low | unknown => rfl
    | high => by_cases hp : lv.rst = .low <;> simp [Rx.event, Rx.edge, Rx.clearPartial, hp]

theorem atRest_drive {l : Line} (hl : ControlLine l) (v : Level) (h : s.ReceiverAtRest) :
    (drive l v s).ReceiverAtRest := by
  have sclk : (s.pin.set l v).sclk = s.pin.sclk := by cases hl <;> rfl
  have rx := rx_controlLine hl v (rested_of_atRest h)
  exact ⟨by simp [rx], by simpa [rx] using h.whole_bytes, by simpa [sclk] using h.sclk_low⟩

theorem alike_drive {l : Line} (hl : ControlLine l) (v : Level) (h : Alike s t) : Alike (drive l v s) (drive l v t) := by
  have rx := rx_controlLine hl v (rested_of_atRest h.left)
  have rx' := rx_controlLine hl v (rested_of_atRest h.right)
  refine ⟨{ h.same with cs := ?_, cd := ?_, rst := ?_, frames := ?_, dev := ?_ }, atRest_drive hl v h.left,
    atRest_drive hl v h.right⟩
  · cases hl <;> simp [Pins.set, h.same.cs]
  · cases hl <;> simp [Pins.set, h.same.cd]
  · cases hl <;> simp [Pins.set, h.same.rst]
  · simp [rx, rx', h.same.frames]
  · simp [rx, rx', h.same.rst, h.same.dev]

/-- A delay is of the trace only, so the two may even differ. -/
theorem alike_delayMs {d e : Nat} (h : Alike s t) : Alike (delayMs d s) (delayMs e t) :=
  ⟨{ h.same with }, { h.left with }, { h.right with }⟩

theorem alike_delayUs (d : Nat) (h : Alike s t) : Alike (delayUs d s) (delayUs d t) :=
  ⟨{ h.same with }, { h.left with }, { h.right with }⟩

theorem alike_bracket {f g : State → State} (hf : ∀ {s t}, Alike s t → Alike (f s) (g t)) (h : Alike s t) :
    Alike (bracket f s) (bracket g t) :=
  alike_drive .cs _ (hf (alike_drive .cs _ h))

theorem alike_repeatOp {f : State → State} (n : Nat) (hf : ∀ {s t}, Alike s t → Alike (f s) (f t)) (h : Alike s t) :
    Alike (repeatOp n f s) (repeatOp n f t) := by
  induction n generalizing s t with
  | zero => exact h
  | succ n ih => exact ih (hf h)

/-- One byte is received alike in both modes: as one frame while CS is Low, and not at all otherwise. -/
theorem alike_sendByte (b : Byte) (h : Alike s t) : Alike (sendByte b s) (sendByte b t) := by
  have received : (sendByte b s).rx.frames = (sendByte b t).rx.frames ∧ (sendByte b s).rx.dev = (sendByte b t).rx.dev := by
    by_cases hcs : s.pin.cs = .low
    · rw [sendByte_rx_of_selected b h.left hcs, sendByte_rx_of_selected b h.right (h.same.cs ▸ hcs)]
      simp [Rx.taken, h.same.frames, h.same.cd, h.same.dev, h.same.param Dev.frame]
    · rw [sendByte_rx_of_unselected b h.left hcs, sendByte_rx_of_unselected b h.right (h.same.cs ▸ hcs)]
      exact ⟨h.same.frames, h.same.dev⟩
  obtain ⟨frames, dev⟩ := received
  simp only [sendByte_eq_play] at frames dev ⊢
  refine ⟨{ h.same with cs := ?_, cd := ?_, rst := ?_, frames, dev }, atRest_play h.left (whole_byteEvents _ b),
    atRest_play h.right (whole_byteEvents _ b)⟩
  · simpa using h.same.cs
  · simpa using h.same.cd
  · simpa using h.same.rst

/-- The line setup of `BEGIN` moves SCLK and SDA, in software mode, and no other line. -/
theorem linesAfter_setupEvents (c : Cfg) (p : Pins) :
    (linesAfter p (setupEvents c)).cs = p.cs ∧ (linesAfter p (setupEvents c)).cd = p.cd ∧
      (linesAfter p (setupEvents c)).rst = p.rst := by
  cases hx : c.xport <;> simp [setupEvents, hx, Pins.set]

/-- The receiver sees of the line setup only the levels. -/
theorem rx_setupEvents (c : Cfg) (rx : Rx) :
    rx.events c (setupEvents c) = { rx with lv := linesAfter rx.lv (setupEvents c) } := by
  cases hx : c.xport <;> simp [setupEvents, hx, Rx.event, Rx.edge]

theorem alike_configurePins (h : Alike s t) : Alike (configurePins s) (configurePins t) := by
  rw [configurePins_eq, configurePins_eq]
  obtain ⟨cs, cd, rst⟩ := linesAfter_setupEvents s.cfg s.pin
  obtain ⟨cs', cd', rst'⟩ := linesAfter_setupEvents t.cfg t.pin
  refine ⟨{ h.same with cs := ?_, cd := ?_, rst := ?_, frames := ?_, dev := ?_ },
    atRest_play h.left (whole_setupEvents _), atRest_play h.right (whole_setupEvents _)⟩
  · simp [cs, cs', h.same.cs]
  · simp [cd, cd', h.same.cd]
  · simp [rst, rst', h.same.rst]
  · simp [rx_setupEvents, h.same.frames]
  · simp [rx_setupEvents, h.same.dev]

/-! ### Framer and lifecycle -/

theorem alike_sendCommand (r : Reg) (v : Byte) (h : Alike s t) : Alike (sendCommand r v s) (sendCommand r v t) := by
  rw [sendCommand, h.same.param Cfg.regmap]
  exact alike_noteRegister r v (alike_drive .cd _ (alike_sendByte _ (alike_drive .cd _ h)))

theorem alike_sendData (b : Byte) (h : Alike s t) : Alike (sendData b s) (sendData b t) :=
  alike_sendByte b (alike_requireDataMode h)

theorem alike_displayCommand (r : Reg) (v : Byte) (h : Alike s t) :
    Alike (displayCommand r v s) (displayCommand r v t) :=
  alike_bracket (alike_sendCommand r v) h

theorem alike_initFive (h : Alike s t) : Alike (initFive s) (initFive t) := by
  rw [initFive, h.same.param Cfg.initvals]
  exact alike_sendCommand _ _ (alike_sendCommand _ _ (alike_sendCommand _ _ (alike_sendCommand _ _
    (alike_sendCommand _ _ h))))

theorem alike_initFour (vbias : Byte) (h : Alike s t) : Alike (initFour vbias s) (initFour vbias t) := by
  rw [initFour, h.same.param Cfg.orientCode, h.same.param Cfg.valDisplayOn]
  exact alike_sendCommand _ _ (alike_sendCommand _ _ (alike_sendCommand _ _ (alike_sendCommand _ _ h)))

theorem alike_initRegs (vbias : Byte) (h : Alike s t) : Alike (initRegs vbias s) (initRegs vbias t) :=
  alike_bracket (fun h => alike_initFour vbias (alike_delayMs (alike_initFive h))) h

theorem alike_resetPulse (h : Alike s t) : Alike (resetPulse s) (resetPulse t) :=
  alike_delayMs (alike_withDevRegs rfl (alike_drive .rst .high (alike_delayMs (alike_drive .rst .low h))))

theorem alike_resetOp (h : Alike s t) : Alike (resetOp s) (resetOp t) :=
  alike_withCtl _ (alike_resetPulse (alike_requireConfigured h))

theorem alike_beginOp (vbias : Byte) (h : Alike s t) : Alike (beginOp vbias s) (beginOp vbias t) :=
  alike_withCtl _ (alike_initRegs vbias (alike_resetOp (alike_withConfigured true (alike_configurePins h))))

/-! ### The pixel buffer -/

theorem alike_setPixel (x y : Int) (mode : BlendMode) (h : Alike s t) :
    Alike (setPixel x y mode s) (setPixel x y mode t) := by
  have buf : (setPixel x y mode s).buf = (setPixel x y mode t).buf := by
    simp only [setPixel, h.same.param Cfg.bufWidth, h.same.param Cfg.bufHeight]
    split_ifs <;> simp [readBuf, h.same.buf]
  rw [setPixel_eq, setPixel_eq x y mode t]
  exact alike_withBuf buf h

theorem alike_clearBuffer (h : Alike s t) : Alike (clearBuffer s) (clearBuffer t) :=
  alike_withBuf (by rw [h.same.buf, h.same.param Cfg.bufLen]) h

/-! ### The streamer -/

theorem alike_addrTriple (column page : Nat) (h : Alike s t) :
    Alike (addrTriple column page s) (addrTriple column page t) :=
  alike_sendCommand _ _ (alike_sendCommand _ _ (alike_sendCommand _ _ h))

/-- What flows that are alike can be. -/
theorem AlikeFlows.cases {f g : Flow} (h : AlikeFlows f g) :
    (∃ s t, f = .running s ∧ g = .running t ∧ Alike s t) ∨ (∃ s t, f = .raised s ∧ g = .raised t ∧ Alike s t) := by
  cases h with
  | running h => exact .inl ⟨_, _, rfl, rfl, h⟩
  | raised h => exact .inr ⟨_, _, rfl, rfl, h⟩

theorem AlikeFlows.andThen {f g : Flow} {k l : State → Flow} (h : AlikeFlows f g)
    (next : ∀ {s t}, Alike s t → AlikeFlows (k s) (l t)) : AlikeFlows (f.andThen k) (g.andThen l) := by
  cases h with
  | running h => exact next h
  | raised h => exact .raised h

/-- A source byte reads alike: it is the Host's, or one of the buffer, which is the same. -/
theorem readSource_of_alike (src : Source) (off : Nat) (h : Alike s t) : readSource src off s = readSource src off t := by
  cases src with
  | array bytes => rfl
  | buffer => rw [readSource, readBuf, h.same.buf, h.same.param Cfg.bufLen, readSource, readBuf]

theorem alike_streamByte (x : Int) (w : Nat) (src : Source) (ty tx : Nat) (h : Alike s t) :
    AlikeFlows (streamByte x w src ty tx s) (streamByte x w src ty tx t) := by
  unfold streamByte
  rw [h.same.param Cfg.width, readSource_of_alike src _ h]
  split
  · split
    · exact .running (alike_sendData _ h)
    · exact .raised (alike_raiseFault _ h)
  · exact .running h

theorem alike_streamRow (x : Int) (w : Nat) (src : Source) (ty : Nat) (cols : List Nat) (h : Alike s t) :
    AlikeFlows (streamRow x w src ty cols s) (streamRow x w src ty cols t) := by
  induction cols generalizing s t with
  | nil => exact .running h
  | cons tx rest ih => exact (alike_streamByte x w src ty tx h).andThen ih

theorem alike_streamBands (x y : Int) (w : Nat) (src : Source) (bands : List Nat) (page : Nat) (h : Alike s t) :
    AlikeFlows (streamBands x y w src bands page s) (streamBands x y w src bands page t) := by
  induction bands generalizing s t page with
  | nil => exact .running h
  | cons ty rest ih =>
    unfold streamBands
    rw [h.same.param Cfg.height]
    split
    · exact (alike_streamRow x w src ty _ (alike_addrTriple _ page h)).andThen (ih (page + 1))
    · exact ih page h

theorem alike_streamOp (x y : Int) (w h : Nat) (src : Source) (ha : Alike s t) :
    AlikeResults (streamOp x y w h src s) (streamOp x y w h src t) := by
  have bands := alike_streamBands x y w src (bandTops h) (firstPage y) (alike_drive .cs .low (alike_requireReady ha))
  unfold streamOp
  split
  · exact .refused _
  · obtain ⟨s', t', es, et, hb⟩ | ⟨s', t', es, et, hb⟩ := bands.cases
    · rw [es, et]
      exact .next (alike_drive .cs .high hb)
    · rw [es, et]
      exact .next hb

/-! ### Operations -/

theorem alike_whenInternal {run : State → Result} (hr : ∀ {s t}, Alike s t → AlikeResults (run s) (run t))
    (h : Alike s t) : AlikeResults (whenInternal s run) (whenInternal t run) := by
  unfold whenInternal
  rw [h.same.issuer]
  split
  · exact .refused _
  · exact hr h

theorem alike_whenWire {run : State → Result} (hr : ∀ {s t}, Alike s t → AlikeResults (run s) (run t))
    (h : Alike s t) : AlikeResults (whenWire s run) (whenWire t run) := by
  unfold whenWire
  rw [h.same.issuer]
  split
  · exact .refused _
  · exact hr h

theorem alike_wireCommand (r : Reg) {v w : Byte} (hv : v = w) (h : Alike s t) :
    AlikeResults (wireCommand r v s) (wireCommand r w t) := by
  rw [hv]
  exact alike_whenWire (fun h => .next (alike_sendCommand r w h)) h

/-- Every operation ends alike on two machines that differ only in the transport. -/
theorem alike_exec (i : Instr) (h : Alike s t) : AlikeResults (exec i s) (exec i t) := by
  have initvals : s.cfg.initvals = t.cfg.initvals := h.same.param Cfg.initvals
  have shown := alike_requireReady h
  cases i with
  | beginOp v => exact .next (alike_beginOp v h)
  | reset => exact .next (alike_resetOp h)
  | displayEnable | invert | allOn => exact .next (alike_displayCommand _ _ shown)
  | scroll v => exact .next (alike_displayCommand _ _ (alike_requireScrollRange v shown))
  | orient v =>
    rw [exec, execOrient, h.same.param Cfg.orientCode]
    exact .next (alike_displayCommand _ _ shown)
  | setPixel x y mode => exact .next (alike_setPixel x y mode h)
  | clearBuffer => exact .next (alike_clearBuffer h)
  | transfer x y w hh => exact alike_streamOp x y w hh _ h
  | bitmap x y w hh image => exact alike_streamOp x y w hh _ h
  | fillScreen pattern d =>
    rw [exec, execFillScreen, h.same.param screenBytes]
    exact .next (alike_bracket (alike_repeatOp _ fun h => alike_delayUs d (alike_sendData pattern h)) shown)
  | fillPage pattern =>
    rw [exec, execFillPage, h.same.param pageBytes]
    exact .next (alike_bracket (alike_repeatOp _ (alike_sendData pattern)) shown)
  | sendByte b => exact alike_whenInternal (fun h => .next (alike_sendByte b h)) h
  | sendCommand r v => exact alike_whenInternal (fun h => .next (alike_sendCommand r v h)) h
  | sendData b => exact alike_whenInternal (fun h => .next (alike_sendData b h)) h
  | initRegs v => exact alike_whenInternal (fun h => .next (alike_initRegs v h)) h
  | stream x y w hh src => exact alike_whenInternal (alike_streamOp x y w hh src) h
  | addrTriple column page => exact alike_whenInternal (fun h => .next (alike_addrTriple column page h)) h
  | data b => exact alike_whenWire (fun h => .next (alike_sendData b h)) h
  | cmdTempcomp | cmdAddrmode | cmdFramerate | cmdBias | cmdPower => exact alike_wireCommand _ (by rw [initvals]) h
  | _ => exact alike_wireCommand _ rfl h

end Pieces

/-- What results that are alike have in common. -/
theorem AlikeResults.agree {q r : Result} (h : AlikeResults q r) :
    (∀ e, q = .refused e ↔ r = .refused e) ∧ ∀ s, q = .next s → ∃ t, r = .next t ∧ Alike s t := by
  cases h with
  | next h => exact ⟨by simp, by rintro _ ⟨⟩; exact ⟨_, rfl, h⟩⟩
  | refused e => exact ⟨fun _ => Iff.rfl, fun _ hs => by cases hs⟩

/-- Settles O18: every operation keeps the machines alike, byte by byte, so that the modes need not be named. -/
theorem transportModesAgree : Obligations.TransportModesAgree := by
  intro i s t clk dat _ _ same left right
  obtain ⟨refusals, completes⟩ := (alike_exec i ⟨same, left, right⟩).agree
  refine ⟨refusals, fun s' hs => ?_⟩
  obtain ⟨t', ht, h⟩ := completes s' hs
  exact ⟨t', ht, h.same, h.left, h.right⟩

end Sys2Proof.Machine
end

section
/-! PROOFS. The framer: the command and the data byte the Block issues (41_framer.md R140, R141). -/

namespace Sys2Proof.Machine

/-- Settles O14: `sendCommand_eq` gives the events played and the registers left, the latter as far as the controller
listens. -/
theorem sendCommandRuns : Obligations.SendCommandRuns := by
  intro r v s hi
  refine ⟨if s.pin.cs = .low then s.devRegs.set r v else s.devRegs, ?_⟩
  rw [exec_sendCommand_of_block r v hi, sendCommand_eq, commandEvents, List.singleton_append]

/-- Settles O15: the byte's events are played, and `dataMarks_eq_ite` says when the mark is set. -/
theorem sendDataRuns : Obligations.SendDataRuns := by
  intro b s hi
  rw [exec_sendData_of_block b hi, sendData_eq, dataMarks_eq_ite]

end Sys2Proof.Machine
end

section
/-! PROOFS. The lifecycle: the state each operation of 42_lifecycle.md leaves, and that of every operation which requires the
controller READY (42_lifecycle.md R167) the events and the mark. -/

namespace Sys2Proof.Machine

/-! ### Events and marks as the statements write them -/

theorem bracketEvents_eq_append (body : List Event) :
    bracketEvents body = [.pinWrite .cs .low] ++ body ++ [.pinWrite .cs .high] :=
  rfl

/-- The mark of `requireReady` is set exactly when the controller is not READY (42_lifecycle.md R167). -/
theorem readyMarks_eq_ite (s : State) :
    readyMarks s = if s.ctl = .ready then s.marks else { s.marks with preReady := true } := by
  by_cases h : s.ctl = .ready <;> simp [readyMarks, h]

/-- The mark of `RESET` is set exactly when the lines are not configured (42_lifecycle.md R163). -/
theorem resetMarks_eq_ite (m : Marks) (configured : Bool) :
    { m with preReady := m.preReady || !configured } =
      if configured = false then { m with preReady := true } else m := by
  cases configured <;> simp

/-- A fill marks `PRE_READY` as `requireReady` does, however many bytes it sends (45_fill.md R230, R231). -/
theorem fillMarks_preReady (n : Nat) (s : State) : (fillMarks n s).preReady = (readyMarks s).preReady := by
  unfold fillMarks
  split <;> rfl

/-! ### Reset and initialisation -/

theorem exec_initRegs_of_block {s : State} (vbias : Byte) (hi : s.issuer = .block) :
    exec (.initRegs vbias) s = .next (initRegs vbias s) := by
  simp [exec, execInitRegs, whenInternal, hi]

/-- Settles O19: `initRegs_eq` gives the bracket of nine commands and a delay, and the registers left. -/
theorem initRegsRuns : Obligations.InitRegsRuns := by
  intro vbias s hi
  refine ⟨initDevRegs s.cfg vbias s.devRegs, ?_⟩
  rw [exec_initRegs_of_block vbias hi, initRegs_eq, initEvents, bracketEvents_eq_append]
  simp only [List.append_assoc, OrientCodes.code]

/-- Settles O20: `beginOp_eq` gives the three pieces played, of which the line setup is the one that looks at the
transport. -/
theorem beginRuns : Obligations.BeginRuns := by
  intro vbias s
  refine ⟨initDevRegs s.cfg vbias DevRegs.afterReset, ?_⟩
  refine (congrArg Host.Outcome.next (beginOp_eq vbias s)).trans ?_
  cases hx : s.cfg.xport <;> simp only [setupEvents, resetEvents, hx, List.cons_append, List.nil_append]

/-- Settles O22: `resetOp_eq` gives the pulse played, and `resetMarks_eq_ite` says when the mark is set. -/
theorem resetRuns : Obligations.ResetRuns := by
  intro s
  refine ⟨DevRegs.afterReset, (congrArg Host.Outcome.next (resetOp_eq s)).trans ?_⟩
  rw [resetMarks_eq_ite, resetEvents]

/-! ### Display controls -/

/-- A display control is its one command in a bracket, with the mark of `requireReady` (42_lifecycle.md R168, R170 to
R172). -/
theorem exec_of_controlsDisplay {s : State} {i : Instr} {r : Reg} {v : Byte} (hi : ControlsDisplay s.cfg i r v) :
    exec i s =
      .next
        { s.play (bracketEvents (commandEvents s.cfg r v)) with
          marks := readyMarks s, devRegs := s.devRegs.set r v } := by
  have run : exec i s = .next (displayCommand r v (requireReady s)) := by cases hi <;> rfl
  rw [run, displayCommand_eq, requireReady_eq]
  rfl

/-- `SCROLL` is a display control with a mark of its own (42_lifecycle.md R169). -/
theorem exec_scroll_eq (v : Byte) (s : State) :
    exec (.scroll v) s =
      .next
        { s.play (bracketEvents (commandEvents s.cfg .scroll v)) with
          marks := { readyMarks s with scrollRange := s.marks.scrollRange || decide (64 < v.toNat) }
          devRegs := s.devRegs.set .scroll v } := by
  have run : exec (.scroll v) s = .next (displayCommand .scroll v (requireScrollRange v (requireReady s))) := rfl
  rw [run, displayCommand_eq, requireScrollRange_eq, requireReady_eq]
  rfl

/-- Settles O24: each of the three is a display control whose value byte is its operand. -/
theorem displayControlsRun : Obligations.DisplayControlsRun := by
  intro v s i r hrow
  have control : ControlsDisplay s.cfg i r v := by
    rcases hrow with ⟨rfl, rfl⟩ | ⟨rfl, rfl⟩ | ⟨rfl, rfl⟩
    · exact .displayEnable v
    · exact .invert v
    · exact .allOn v
  refine ⟨s.devRegs.set r v, ?_⟩
  rw [exec_of_controlsDisplay control, bracketEvents_eq_append, readyMarks_eq_ite]

/-- Settles O25, by `exec_scroll_eq`. -/
theorem scrollRuns : Obligations.ScrollRuns := by
  intro v s
  exact ⟨s.devRegs.set .scroll v, exec_scroll_eq v s⟩

/-- Settles O26: `ORIENT` is a display control whose value byte is the code it recognises, or the normal one. -/
theorem orientRuns : Obligations.OrientRuns := by
  intro v code s hcode
  have sent : orientationCode s.cfg.orientCode v = code := by
    rcases hcode with ⟨recognised, rfl⟩ | ⟨other, rfl⟩
    · exact orientationCode_of_code recognised
    · exact orientationCode_of_not_code other
  refine ⟨s.devRegs.set .orient code, ?_⟩
  rw [exec_of_controlsDisplay (.orient v), sent, bracketEvents_eq_append, readyMarks_eq_ite]

/-! ### Operations before READY -/

/-- `i`, which takes `s` to `t`, marks `PRE_READY` exactly when the controller is not READY, and runs in READY with the same
trace, receiver and fault (42_lifecycle.md R167). -/
def OnlyMarksUnready (i : Instr) (s t : State) : Prop :=
  t.marks.preReady = (readyMarks s).preReady ∧
    ∃ u, exec i { s with ctl := .ready } = .next u ∧ u.trace = t.trace ∧ u.rx = t.rx ∧ u.fault = t.fault

section Unready
variable {i : Instr} {s t : State}

theorem onlyMarksUnready_of_controlsDisplay {r : Reg} {v : Byte} (hi : ControlsDisplay s.cfg i r v)
    (h : exec i s = .next t) : OnlyMarksUnready i s t := by
  cases (exec_of_controlsDisplay hi).symm.trans h
  exact ⟨rfl, _, exec_of_controlsDisplay hi, rfl, rfl, rfl⟩

theorem onlyMarksUnready_scroll {v : Byte} (h : exec (.scroll v) s = .next t) : OnlyMarksUnready (.scroll v) s t := by
  cases (exec_scroll_eq v s).symm.trans h
  exact ⟨rfl, _, exec_scroll_eq v _, rfl, rfl, rfl⟩

theorem onlyMarksUnready_fillScreen {pattern : Byte} {d : Nat} (h : exec (.fillScreen pattern d) s = .next t) :
    OnlyMarksUnready (.fillScreen pattern d) s t := by
  cases (execFillScreen_eq pattern d s).symm.trans h
  exact ⟨fillMarks_preReady _ s, _, execFillScreen_eq pattern d _, rfl, rfl, rfl⟩

theorem onlyMarksUnready_fillPage {pattern : Byte} (h : exec (.fillPage pattern) s = .next t) :
    OnlyMarksUnready (.fillPage pattern) s t := by
  cases (execFillPage_eq pattern s).symm.trans h
  exact ⟨fillMarks_preReady _ s, _, execFillPage_eq pattern _, rfl, rfl, rfl⟩

/-- What a stream reads does not depend on the controller state, so in READY it ends or stops at the same byte. -/
theorem onlyMarksUnready_stream {x y : Int} {w h : Nat} {src : Source} (run : ∀ s, exec i s = streamOp x y w h src s)
    (he : exec i s = .next t) : OnlyMarksUnready i s t := by
  unfold OnlyMarksUnready
  rw [run] at he ⊢
  have reads (off : Nat) := readable_congr s { s with ctl := .ready } src off rfl rfl
  rcases streamOp_cases x y w h src s with ⟨-, e⟩ | ⟨hh, hr, e⟩ | ⟨hh, before, off, after, r, ha, hr, hf, e⟩ <;>
    cases e.symm.trans he
  · have ready := streamOp_readable x y w h src { s with ctl := .ready } hh fun off ho => (reads off).2 (hr off ho)
    exact ⟨rfl, _, ready, rfl, rfl, rfl⟩
  · have ready := streamOp_raised x y w h off src { s with ctl := .ready } before after r hh ha
      (fun o ho => (reads o).2 (hr o ho)) ((readSource_congr s _ src off rfl rfl).trans hf)
    exact ⟨rfl, _, ready, rfl, rfl, rfl⟩

end Unready

/-- Settles O27: display controls, fills and streams require READY alike, and nothing they send depends on the answer. -/
theorem unreadyOperationsAreMarked : Obligations.UnreadyOperationsAreMarked := by
  rintro i s t (⟨v, rfl | rfl | rfl | rfl | rfl | rfl⟩ | ⟨p, d, rfl⟩ | ⟨x, y, w, h, rfl⟩ | ⟨x, y, w, h, img, rfl⟩) he
  · exact onlyMarksUnready_of_controlsDisplay (.displayEnable v) he
  · exact onlyMarksUnready_scroll he
  · exact onlyMarksUnready_of_controlsDisplay (.orient v) he
  · exact onlyMarksUnready_of_controlsDisplay (.invert v) he
  · exact onlyMarksUnready_of_controlsDisplay (.allOn v) he
  · exact onlyMarksUnready_fillPage he
  · exact onlyMarksUnready_fillScreen he
  · exact onlyMarksUnready_stream (fun _ => rfl) he
  · exact onlyMarksUnready_stream (fun _ => rfl) he

end Sys2Proof.Machine
end

section
/-! PROOFS. The pixel buffer: what a byte of it reads as after each of the two operations that write it, and from that the
statements of 43_pixel_buffer.md. -/

namespace Sys2Proof.Machine

/-! ### Reading the buffer after a write -/

@[simp] theorem readBuf_writeBuf_self (i : Nat) (b : TByte) (s : State) : readBuf (writeBuf i b s) i = b :=
  bufRead_bufWrite_self s.buf i b

theorem readBuf_writeBuf_of_ne {i j : Nat} (h : j ≠ i) (b : TByte) (s : State) :
    readBuf (writeBuf i b s) j = readBuf s j :=
  bufRead_bufWrite_of_ne s.buf i j b h

/-- 43_pixel_buffer.md R191. -/
theorem readBuf_clearBuffer (s : State) (j : Nat) :
    readBuf (clearBuffer s) j = if j < s.cfg.bufLen then TByte.ofByte 0x00 else readBuf s j :=
  bufRead_bufClear s.buf s.cfg.bufLen j

/-! ### One pixel -/

section Pixel
variable {x y : Int} {s : State}

theorem setPixel_of_inside (h : 0 ≤ x ∧ x < s.cfg.bufWidth ∧ 0 ≤ y ∧ y < s.cfg.bufHeight) (mode : BlendMode) :
    setPixel x y mode s =
      writeBuf (byteIndex s.cfg.bufWidth x.toNat y.toNat)
        (blend mode (bitIndex y.toNat) (readBuf s (byteIndex s.cfg.bufWidth x.toNat y.toNat))) s := by
  simp [setPixel, inRange_iff, h]

theorem setPixel_of_outside (h : ¬ (0 ≤ x ∧ x < s.cfg.bufWidth ∧ 0 ≤ y ∧ y < s.cfg.bufHeight)) (mode : BlendMode) :
    setPixel x y mode s = s := by
  simp only [setPixel, Bool.and_eq_true, inRange_iff]
  exact if_neg (by rwa [and_assoc])

end Pixel

/-- The second INVERT undoes the first: it turns the same known bit, for INVERT leaves `known` as it is
(43_pixel_buffer.md R193). -/
theorem blend_invert_invert (k : Nat) (b : TByte) : blend .invert k (blend .invert k b) = b := by
  simp only [blend, BitVec.xor_assoc, BitVec.xor_self, BitVec.xor_zero]

/-- 43_pixel_buffer.md R193: inside the buffer both calls blend the same bit of the same byte. -/
theorem readBuf_setPixel_invert_twice (x y : Int) (s : State) (j : Nat) :
    readBuf (setPixel x y .invert (setPixel x y .invert s)) j = readBuf s j := by
  by_cases inside : 0 ≤ x ∧ x < s.cfg.bufWidth ∧ 0 ≤ y ∧ y < s.cfg.bufHeight
  · rw [setPixel_of_inside inside, setPixel_of_inside (s := writeBuf _ _ s) inside, writeBuf_cfg]
    by_cases here : j = byteIndex s.cfg.bufWidth x.toNat y.toNat
    · simp [here, blend_invert_invert]
    · simp [readBuf_writeBuf_of_ne here]
  · simp only [setPixel_of_outside inside]

/-! ### The obligations -/

/-- Settles O29: inside the buffer the one byte written is a blend of the bit it had, and outside nothing is written. -/
theorem setPixelWritesOneBit : Obligations.SetPixelWritesOneBit := by
  intro x y mode s
  split
  next inside =>
    have bit_lt : bitIndex y.toNat < 8 := Nat.mod_lt _ (by decide)
    have written (b : TByte) := readBuf_writeBuf_self (byteIndex s.cfg.bufWidth x.toNat y.toNat) b s
    refine ⟨_, congrArg Host.Outcome.next (setPixel_of_inside inside mode), rfl, ?_, fun k hk => ?_, fun j hj => ?_⟩
    · exact (congrArg (TByte.bit · _) (written _)).trans (blend_bit_self mode _ bit_lt _)
    · exact (congrArg (TByte.bit · k) (written _)).trans (blend_bit_of_ne mode _ k bit_lt hk _)
    · exact readBuf_writeBuf_of_ne hj _ s
  next outside => exact congrArg Host.Outcome.next (setPixel_of_outside outside mode)

/-- Settles O30: the two calls restore every byte, and so every bit. -/
theorem invertTwiceRestores : Obligations.InvertTwiceRestores := fun x y s =>
  ⟨_, _, rfl, rfl, fun j k => congrArg (TByte.bit · k) (readBuf_setPixel_invert_twice x y s j)⟩

/-- Settles O31, by what a byte below and a byte past the buffer's length reads as once the buffer is cleared. -/
theorem clearBufferZeroes : Obligations.ClearBufferZeroes := fun s =>
  ⟨_, rfl, rfl, fun j hj => (readBuf_clearBuffer s j).trans (if_pos hj),
    fun j hj => (readBuf_clearBuffer s j).trans (if_neg (Nat.not_lt.2 hj))⟩

end Sys2Proof.Machine
end

section
/-! PROOFS. The streamer: the three forms of a stream run the same acts, which a receiver at rest takes as the frames
44_transfer.md R210 lists, and from that the statements of 44_transfer.md. -/

namespace Sys2Proof.Machine

/-! ### The operations of the streamer -/

section Forms
variable {i : Instr} {x y : Int} {w h : Nat} {src : Source} {s : State}

/-- Each form of a stream that may run is the one stream operation over its source (44_transfer.md R200, R207, R208). -/
theorem exec_of_streamForm
    (hi : (i = .transfer x y w h ∧ src = .buffer) ∨ (∃ img, i = .bitmap x y w h img ∧ src = .array img) ∨
      (i = .stream x y w h src ∧ s.issuer = .block)) : exec i s = streamOp x y w h src s := by
  rcases hi with ⟨rfl, rfl⟩ | ⟨img, rfl, rfl⟩ | ⟨rfl, hb⟩
  · rfl
  · rfl
  · simp [exec, execStream, whenInternal, hb]

/-- 44_transfer.md R209. -/
theorem streamOp_of_tall (hh : 248 < h) : streamOp x y w h src s = .refused .hTooLarge :=
  if_pos hh

end Forms

theorem exec_addrTriple_of_block {s : State} (column page : Nat) (hi : s.issuer = .block) :
    exec (.addrTriple column page) s = .next (addrTriple column page s) := by
  simp [exec, execAddrTriple, whenInternal, hi]

/-! ### Bytes that cannot be read -/

/-- 44_transfer.md R206, for a byte array. -/
theorem readSource_array_of_past_end {img : List Byte} {off : Nat} (s : State) (h : img.length ≤ off) :
    readSource (.array img) off s = .error .srcOob := by
  simp [readSource, h]

/-- 44_transfer.md R206, for the buffer; this is tested first. -/
theorem readSource_buffer_of_past_end {s : State} {off : Nat} (h : s.cfg.bufLen ≤ off) :
    readSource .buffer off s = .error .srcOob := by
  simp [readSource, h]

/-- 44_transfer.md R206, for a byte of the buffer with an `Unknown` bit. -/
theorem readSource_buffer_of_undefined {s : State} {off : Nat} (h : off < s.cfg.bufLen)
    (hd : (readBuf s off).defined = false) : readSource .buffer off s = .error .srcUninit := by
  simp [readSource, h, hd]

/-! ### The frames of a stream -/

/-- The frames of one written band: its triple, then a data byte for each unclipped column (44_transfer.md R210). -/
def bandFrames (c : Cfg) (x y : Int) (w : Nat) (bytes : Nat → Byte) (ty : Nat) : List Frame :=
  tripleFrames c (max x 0).toNat ((y + ty) / 8).toNat ++
    (sentColumns c x w).map fun tx : Nat => .data (some (bytes (w * (ty / 8) + tx)))

/-- The frames of a stream, band after band (44_transfer.md R210). -/
def streamFrames (c : Cfg) (x y : Int) (w h : Nat) (bytes : Nat → Byte) : List Frame :=
  (writtenBands c y h).flatMap (bandFrames c x y w bytes)

/-- The frames of the acts of a stream are listed band after band. -/
theorem flatMap_actFrames_streamActs (c : Cfg) (x y : Int) (w h : Nat) (bytes : Nat → Byte) :
    (streamActs c x y w h).flatMap (actFrames c x bytes) = streamFrames c x y w h bytes := by
  simp only [streamActs, streamFrames, List.flatMap_assoc, List.flatMap_cons, List.flatMap_map, actFrames,
    ← List.map_eq_flatMap]
  rfl

section Heard
variable {c : Cfg} {p : Pins}

/-- A triple is three command frames (44_transfer.md R203). -/
theorem hears_tripleEvents (column page : Nat) (hcs : p.cs = .low) :
    Hears c p (tripleEvents c column page) (tripleFrames c column page) :=
  ((hears_commandEvents .colLo _ hcs).command .colHi _).command .page _

/-- An act is taken as its frames; a byte has CD High before it, left so by the act before (41_framer.md R140). -/
theorem hears_actEvents (x : Int) (bytes : Nat → Byte) (a : StreamAct) (hcs : p.cs = .low)
    (hcd : p.cd = .high ∨ startsWithTriple [a]) :
    Hears c p (actEvents c x bytes a) (actFrames c x bytes a) ∧ (linesAfter p (actEvents c x bytes a)).cd = .high := by
  cases a with
  | triple page => exact ⟨hears_tripleEvents _ page hcs, by simp [actEvents, tripleEvents]⟩
  | byte off =>
    have cd : p.cd = .high := hcd.resolve_right id
    exact ⟨(hears_nil hcs).data (bytes off) cd, by simpa [actEvents] using cd⟩

/-- Acts beginning with a triple are taken as their frames, one after another. -/
theorem hears_acts (x : Int) (bytes : Nat → Byte) (as : List StreamAct) (hcs : p.cs = .low)
    (hcd : p.cd = .high ∨ startsWithTriple as) :
    Hears c p (as.flatMap (actEvents c x bytes)) (as.flatMap (actFrames c x bytes)) := by
  induction as generalizing p with
  | nil => exact hears_nil hcs
  | cons a as ih =>
    have first : startsWithTriple (a :: as) → startsWithTriple [a] := by cases a <;> exact id
    obtain ⟨heard, cd⟩ := hears_actEvents (c := c) x bytes a hcs (hcd.imp_right first)
    exact heard.append (ih heard.selected (.inl cd))

end Heard

/-- A stream whose bytes are all there completes without a new fault, and a receiver at rest takes it as its frames
(44_transfer.md R210, 41_framer.md R146). -/
theorem streamOp_sends {x y : Int} {w h : Nat} {src : Source} {s : State} (hh : h ≤ 248) (rest : s.ReceiverAtRest)
    (hr : ∀ off, .byte off ∈ streamActs s.cfg x y w h → readable s src off) :
    ∃ t, streamOp x y w h src s = .next t ∧ t.fault = s.fault ∧
      t.rx.frames = s.rx.frames ++ streamFrames s.cfg x y w h (sourceByte s src) ∧ t.pin.cs = .high ∧
      t.ReceiverAtRest := by
  have heard := hears_acts (c := s.cfg) (p := s.pin.set .cs .low) x (sourceByte s src) (streamActs s.cfg x y w h) rfl
    (.inr (streamActs_startsWithTriple _ _ _ _ _))
  rw [flatMap_actFrames_streamActs] at heard
  refine ⟨_, streamOp_readable x y w h src s hh hr, rfl, ?_, linesAfter_bracketEvents_cs _ _,
    { atRest_play rest (whole_bracketEvents heard.whole) with }⟩
  exact congrArg Rx.frames (rx_bracketEvents heard (rested_of_atRest rest))

/-! ### A rectangle on the device -/

/-- The band tops of a stream are the multiples of 8 below its height (44_transfer.md R200). -/
theorem mem_bandTops {h ty : Nat} : ty ∈ bandTops h ↔ ty < h ∧ ty % 8 = 0 := by
  simp only [bandTops, List.mem_map, List.mem_range]
  constructor
  · rintro ⟨k, hk, rfl⟩
    omega
  · rintro ⟨hty, h8⟩
    exact ⟨ty / 8, by omega, by omega⟩

/-- With the rows on the device every band is written (44_transfer.md R202). -/
theorem writtenBands_of_inside {c : Cfg} {y : Int} {h : Nat} (h0 : 0 ≤ y) (hy : y + h ≤ c.height) :
    writtenBands c y h = bandTops h := by
  refine List.filter_eq_self.2 fun ty hty => (inRange_iff _ _).2 ?_
  obtain ⟨hlt, -⟩ := mem_bandTops.1 hty
  omega

/-- With the columns on the device none is clipped (44_transfer.md R205). -/
theorem sentColumns_of_inside {c : Cfg} {x : Int} {w : Nat} (h0 : 0 ≤ x) (hx : x + w ≤ c.width) :
    sentColumns c x w = List.range w := by
  refine List.filter_eq_self.2 fun tx htx => (inRange_iff _ _).2 ?_
  have hlt := List.mem_range.1 htx
  omega

/-- The source offsets a stream reads lie in `w * ceil(h/8)` bytes (44_transfer.md R205). -/
theorem offset_lt_of_mem_streamActs {c : Cfg} {x y : Int} {w h off : Nat}
    (ho : .byte off ∈ streamActs c x y w h) : off < w * ((h + 7) / 8) := by
  simp only [streamActs, List.mem_flatMap, List.mem_cons, reduceCtorEq, List.mem_map, StreamAct.byte.injEq, false_or,
    writtenBands, sentColumns, List.mem_filter, mem_bandTops, List.mem_range] at ho
  obtain ⟨ty, ⟨⟨hty, -⟩, -⟩, tx, ⟨htx, -⟩, rfl⟩ := ho
  calc w * (ty / 8) + tx < w * (ty / 8 + 1) := by rw [Nat.mul_succ]; omega
    _ ≤ w * ((h + 7) / 8) := Nat.mul_le_mul_left w (by omega)

/-- How many frames of a stream a test of the class alone passes: of each written band the three commands or none, and the
byte of each unclipped column or none. -/
theorem length_filter_streamFrames {q : Frame → Bool} {cmd data : Bool} (hc : ∀ b, q (.cmd b) = cmd)
    (hd : ∀ b, q (.data b) = data) (c : Cfg) (x y : Int) (w h : Nat) (bytes : Nat → Byte) :
    ((streamFrames c x y w h bytes).filter q).length =
      (writtenBands c y h).length * (3 * cmd.toNat + (sentColumns c x w).length * data.toNat) := by
  have triple (column page : Nat) : ((tripleFrames c column page).filter q).length = 3 * cmd.toNat := by
    cases cmd <;> simp [tripleFrames, hc]
  have row (cols : List Nat) (f : Nat → Option Byte) :
      ((cols.map fun tx => Frame.data (f tx)).filter q).length = cols.length * data.toNat := by
    cases data <;> simp [List.filter_map, Function.comp_def, hd]
  have band (ty : Nat) : ((bandFrames c x y w bytes ty).filter q).length =
      3 * cmd.toNat + (sentColumns c x w).length * data.toNat := by
    rw [bandFrames, List.filter_append, List.length_append, triple, row]
  simp [streamFrames, List.filter_flatMap, List.length_flatMap, band]

/-! ### The statements -/

/-- Settles O33: `streamOp_readable` gives the bracket of the acts' events, and `readyMarks_eq_ite` says when the mark is
set. -/
theorem readableStreamRuns : Obligations.ReadableStreamRuns := by
  intro x y w h src s i hh hi hr
  refine ⟨(streamActs s.cfg x y w h).foldl (actRegs x) s.devRegs, ?_⟩
  rw [exec_of_streamForm hi, streamOp_readable x y w h src s hh hr, bracketEvents_eq_append, readyMarks_eq_ite]

/-- Settles O34: the byte reads as the fault, which `streamOp_raised` records after the events of the acts before it. -/
theorem unreadableStreamFaults : Obligations.UnreadableStreamFaults := by
  intro x y w h off src s i before after r hh hi ha hr hf
  have fails : readSource src off s = .error r := by
    cases src with
    | array img =>
      obtain ⟨past, rfl⟩ := hf
      exact readSource_array_of_past_end s past
    | buffer =>
      obtain ⟨past, rfl⟩ | ⟨inside, undefined, rfl⟩ := hf
      · exact readSource_buffer_of_past_end past
      · exact readSource_buffer_of_undefined inside undefined
  refine ⟨before.foldl (actRegs x) s.devRegs, ?_⟩
  rw [exec_of_streamForm hi, streamOp_raised x y w h off src s before after r hh ha hr fails, readyMarks_eq_ite,
    List.singleton_append]

/-- Settles O35: each form that may run is a stream, which tests its height first. -/
theorem tallStreamIsRefused : Obligations.TallStreamIsRefused := fun _ _ _ _ _ _ _ hh =>
  ⟨streamOp_of_tall hh, streamOp_of_tall hh, fun hb =>
    (exec_of_streamForm (.inr (.inr ⟨rfl, hb⟩))).trans (streamOp_of_tall hh)⟩

/-- Settles O36, by the frames a receiver at rest takes a stream as. -/
theorem streamSendsItsFrames : Obligations.StreamSendsItsFrames := by
  intro x y w h s src i hh rest hi hr
  obtain ⟨t, run, -, frames, cs, rest'⟩ := streamOp_sends hh rest hr
  exact ⟨t, (exec_of_streamForm hi).trans run, frames, cs, rest'⟩

/-- Settles O37: the image holds every byte sent, no band is skipped and no column clipped, so the frames of the two classes
are counted band by band. -/
theorem inBoundsStreamCounts : Obligations.InBoundsStreamCounts := by
  intro x y w h img s hh rest hx0 hx hy0 hy himg
  obtain ⟨t, run, fault, frames, -⟩ := streamOp_sends (src := .array img) hh rest fun off ho =>
    (offset_lt_of_mem_streamActs ho).trans_le himg
  have bands : (writtenBands s.cfg y h).length = (h + 7) / 8 := by simp [writtenBands_of_inside hy0 hy, bandTops]
  have columns : (sentColumns s.cfg x w).length = w := by simp [sentColumns_of_inside hx0 hx]
  refine ⟨t, _, run, fault, frames, ?_, ?_⟩
  · rw [length_filter_streamFrames (cmd := true) (data := false) (fun _ => rfl) (fun _ => rfl), bands]
    simp [Nat.mul_comm]
  · rw [length_filter_streamFrames (cmd := false) (data := true) (fun _ => rfl) (fun _ => rfl), bands, columns]
    simp [Nat.mul_comm]

/-- Settles O38: `addrTriple_eq` gives the three commands played, and the registers left as far as the controller listens. -/
theorem addrTripleRuns : Obligations.AddrTripleRuns := by
  intro column page s hi
  rw [exec_addrTriple_of_block column page hi, addrTriple_eq]
  exact ⟨_, rfl⟩

end Sys2Proof.Machine
end

section
/-! PROOFS. The fills: the state FILL_SCREEN and FILL_PAGE leave, a bracket of data bytes and at most two marks
(45_fill.md R230, R231). -/

namespace Sys2Proof.Machine

/-- A fill of `n` bytes requires READY once and CD High with each byte, so the second mark needs a byte to be sent
(42_lifecycle.md R167, 41_framer.md R141). -/
theorem fillMarks_eq (n : Nat) (s : State) :
    fillMarks n s =
      { s.marks with
        preReady := s.marks.preReady || decide (s.ctl ≠ .ready)
        dataCdNotHigh := s.marks.dataCdNotHigh || decide (s.pin.cd ≠ .high ∧ 0 < n) } := by
  unfold fillMarks
  split
  case isTrue hn => simp [hn, readyMarks]
  case isFalse hn => simp [Nat.pos_of_ne_zero hn, readyMarks, dataMarks_eq]

/-- Settles O39: `execFillScreen_eq` gives the bracket played, and `fillMarks_eq` says when each mark is set. -/
theorem fillScreenRuns : Obligations.FillScreenRuns := by
  intro pattern d s
  refine (execFillScreen_eq pattern d s).trans ?_
  rw [fillMarks_eq, bracketEvents_eq_append, screenBytes]

/-- Settles O40: `execFillPage_eq` gives the bracket played, and `fillMarks_eq` says when each mark is set. -/
theorem fillPageRuns : Obligations.FillPageRuns := by
  intro pattern s
  refine (execFillPage_eq pattern s).trans ?_
  rw [fillMarks_eq, bracketEvents_eq_append, pageBytes]

end Sys2Proof.Machine
end

section
/-! PROOFS. Refusals: which operations are refused, when and for what reason, and the order of construction's checks
(60_exceptions.md R242, R243). -/

namespace Sys2Proof.Machine

/-! ### Refused operations -/

section Refused
variable {i : Instr} {s : State} {r : Refusal}

/-- 44_transfer.md R209: the height is all a stream is refused for. -/
theorem streamOp_eq_refused_iff {x y : Int} {w h : Nat} {src : Source} :
    streamOp x y w h src s = .refused r ↔ r = .hTooLarge ∧ 248 < h := by
  refine ⟨fun e => ?_, fun ⟨hr, tall⟩ => hr ▸ streamOp_of_tall tall⟩
  by_cases tall : 248 < h
  · cases (streamOp_of_tall tall).symm.trans e
    exact ⟨rfl, tall⟩
  · obtain ⟨t, next⟩ := streamOp_completes x y w src s (Nat.le_of_not_lt tall)
    cases next.symm.trans e

/-- The Host is refused an internal operation; to the Block its body may still be refused. -/
theorem whenInternal_eq_refused_iff {run : State → Result} :
    whenInternal s run = .refused r ↔
      (r = .internalOp ∧ s.issuer = .host) ∨ (s.issuer = .block ∧ run s = .refused r) := by
  cases hi : s.issuer <;> simp [whenInternal, hi, eq_comm]

theorem whenInternal_of_host (hi : s.issuer = .host) (run : State → Result) :
    whenInternal s run = .refused .internalOp :=
  whenInternal_eq_refused_iff.2 (.inl ⟨rfl, hi⟩)

/-- An internal operation whose body completes is refused to the Host only. -/
theorem issuer_of_whenInternal_refused {run : State → State} (h : whenInternal s (fun s => .next (run s)) = .refused r) :
    r = .internalOp ∧ s.issuer = .host := by
  obtain host | ⟨-, body⟩ := whenInternal_eq_refused_iff.1 h
  · exact host
  · cases body

theorem exec_internalOp_of_host (hf : i.format = .internalOp) (hi : s.issuer = .host) :
    exec i s = .refused .internalOp := by
  cases i with
  | sendByte | sendCommand | sendData | initRegs | stream | addrTriple =>
    simp only [exec, execSendByte, execSendCommand, execSendData, execInitRegs, execStream, execAddrTriple,
      whenInternal_of_host hi]
  | _ => cases hf

/-- The operations that stream with a height above 248 and are let through to the check of it. -/
def TallStream (i : Instr) (s : State) : Prop :=
  (∃ x y w h, i = .transfer x y w h ∧ 248 < h) ∨ (∃ x y w h img, i = .bitmap x y w h img ∧ 248 < h) ∨
    (∃ x y w h src, i = .stream x y w h src ∧ 248 < h ∧ s.issuer = .block)

theorem exec_of_tallStream (ht : TallStream i s) : exec i s = .refused .hTooLarge := by
  obtain ⟨x, y, w, h, rfl, tall⟩ | ⟨x, y, w, h, img, rfl, tall⟩ | ⟨x, y, w, h, src, rfl, tall, hi⟩ := ht
  · exact streamOp_of_tall tall
  · exact streamOp_of_tall tall
  · exact whenInternal_eq_refused_iff.2 (.inr ⟨hi, streamOp_of_tall tall⟩)

/-- The one case split over the operations that a refusal can come from. -/
theorem exec_refused_cases (hf : i.format ≠ .wire) (h : exec i s = .refused r) :
    (r = .internalOp ∧ i.format = .internalOp ∧ s.issuer = .host) ∨ (r = .hTooLarge ∧ TallStream i s) := by
  cases i with
  | transfer x y w hh =>
    obtain ⟨hr, tall⟩ := streamOp_eq_refused_iff.1 h
    exact .inr ⟨hr, .inl ⟨x, y, w, hh, rfl, tall⟩⟩
  | bitmap x y w hh img =>
    obtain ⟨hr, tall⟩ := streamOp_eq_refused_iff.1 h
    exact .inr ⟨hr, .inr (.inl ⟨x, y, w, hh, img, rfl, tall⟩)⟩
  | stream x y w hh src =>
    obtain ⟨hr, hi⟩ | ⟨hi, body⟩ := whenInternal_eq_refused_iff.1 h
    · exact .inl ⟨hr, rfl, hi⟩
    · obtain ⟨hr, tall⟩ := streamOp_eq_refused_iff.1 body
      exact .inr ⟨hr, .inr (.inr ⟨x, y, w, hh, src, rfl, tall, hi⟩)⟩
  | sendByte | sendCommand | sendData | initRegs | addrTriple =>
    obtain ⟨hr, hi⟩ := issuer_of_whenInternal_refused h
    exact .inl ⟨hr, rfl, hi⟩
  | beginOp | reset | displayEnable | scroll | orient | invert | allOn | setPixel | clearBuffer | fillScreen | fillPage =>
    cases h
  | _ => exact absurd rfl hf

end Refused

/-! ### Construction's checks -/

theorem geometryOk_iff (c : Cfg) :
    geometryOk c = true ↔
      c.height % 8 = 0 ∧ 1 ≤ c.width ∧ c.width ≤ 256 ∧ 8 ≤ c.height ∧ c.height ≤ 128 := by
  simp [geometryOk, and_assoc]

theorem bufferOk_iff (c : Cfg) :
    bufferOk c = true ↔
      c.bufWidth ≤ c.width ∧ c.bufHeight ≤ c.height ∧ c.bufHeight % 8 = 0 ∧ c.bufWidth ≤ 255 ∧ c.bufHeight ≤ 248 := by
  simp [bufferOk, and_assoc]

/-- 10_state.md R33. -/
theorem modeOf_of_one_pin {clk data : Option Nat} (h : clk.isSome ≠ data.isSome) :
    modeOf clk data = .error .badTransport := by
  obtain ⟨both, -⟩ | ⟨-, hm⟩ := modeOf_cases clk data
  · exact absurd both h
  · exact hm

/-! ### The statements -/

/-- Settles O9: `exec_refused_cases` gives where an operation's refusal comes from, and `construct_cases` leaves no other
reason to construction once its last check passes. -/
theorem operationRefusals : Obligations.OperationRefusals := by
  refine ⟨fun i s r hf => ⟨exec_refused_cases hf, ?_⟩, fun q r delays display codes e => ?_⟩
  · rintro (⟨rfl, hi, host⟩ | ⟨rfl, tall⟩)
    · exact exec_internalOp_of_host hi host
    · exact exec_of_tallStream tall
  · have parameters : parametersOk q.base = true := (parametersOk_iff _).2 ⟨delays, display, codes⟩
    obtain ⟨-, e' | e'⟩ | ⟨-, -, e'⟩ | ⟨-, -, bad, -⟩ | ⟨-, -, -, x, e'⟩ := construct_cases q
    · cases e'.symm.trans e; exact .inl rfl
    · cases e'.symm.trans e; exact .inr (.inl rfl)
    · cases e'.symm.trans e; exact .inr (.inr rfl)
    · cases parameters.symm.trans bad
    · cases e'.symm.trans e

/-- Settles O58: each check that fails after the ones before it have passed names the refusal, and the pin identifiers
select the transport of the state that construction yields. -/
theorem constructionChecksInOrder : Obligations.ConstructionChecksInOrder := by
  intro q c geometry buffer parameters
  have range (hg : geometry) (hb : buffer) : cfgOk c = true := (cfgOk_iff c).2 ⟨hg, hb⟩
  refine ⟨fun hg => ?_, fun hg hb => ?_, fun hg hb hpins => ?_, fun hg hb hp hclk hdata => ?_,
    fun clk dat hg hb hp hclk hdata => ?_⟩
  · exact construct_of_geometry (Bool.eq_false_iff.2 (mt (geometryOk_iff c).1 hg))
  · exact construct_of_buffer ((geometryOk_iff c).2 hg) (Bool.eq_false_iff.2 (mt (bufferOk_iff c).1 hb))
  · exact construct_of_transport (range hg hb) (modeOf_of_one_pin hpins)
  · exact construct_of_accepted (range hg hb) (by rw [hclk, hdata]; rfl) ((parametersOk_iff c).2 hp)
  · exact construct_of_accepted (range hg hb) (by rw [hclk, hdata]; rfl) ((parametersOk_iff c).2 hp)

end Sys2Proof.Machine
end

section
/-! PROOFS. Reset: the state after construction, and what the pulse of a host RESET does to the receiver and the lines
(70_reset_and_hazards.md R271, R272). -/

namespace Sys2Proof.Machine

/-! ### After construction -/

theorem TByte.bit_unknown (k : Nat) : TByte.unknown.bit k = none := by
  simp [TByte.bit, TByte.unknown]

/-- Settles O60: the record is the table of R271; its lines are Unknown one by one and its marks absent one by one, and
a buffer that lists no byte reads as Unknown bits. -/
theorem stateAfterConstruction : Obligations.StateAfterConstruction := by
  intro c s
  have lines (l : Line) : Pins.unknown.get l = .unknown := by cases l <;> rfl
  have marks (k : Mark) : Marks.empty.has k = false := by cases k <;> rfl
  exact ⟨rfl, lines, rfl, rfl, marks, rfl, rfl, fun _ k => TByte.bit_unknown k, lines, rfl, rfl, rfl, rfl, rfl,
    fun _ _ => rfl, rfl⟩

/-! ### The reset pulse -/

/-- The pulse moves RST only, and leaves it High (42_lifecycle.md R163). -/
theorem linesAfter_resetEvents (c : Cfg) (p : Pins) : linesAfter p (resetEvents c) = { p with rst := .high } := rfl

/-- From any receiver the pulse is a rising edge of RST: it clears the partial byte and resets the controller, and adds no
frame (20_memory.md R70). -/
theorem rx_resetEvents (c : Cfg) (rx : Rx) :
    rx.events c (resetEvents c) =
      { rx.clearPartial with lv := { rx.lv with rst := .high }, dev := Dev.afterReset } := by
  simp [resetEvents, Rx.event, Rx.edge, Rx.clearPartial, Pins.set]

/-- Settles O23: `resetOp_eq` gives the pulse played, which resets the receiver's controller whatever it was, and
`Effect.marks_sub` that no mark is lost. -/
theorem resetClearsTheController : Obligations.ResetClearsTheController := by
  intro s
  have run : exec .reset s = .next (resetOp s) := rfl
  have rx : (resetOp s).rx = { s.rx.clearPartial with lv := { s.rx.lv with rst := .high }, dev := Dev.afterReset } := by
    rw [resetOp_eq]
    exact rx_resetEvents s.cfg s.rx
  refine ⟨resetOp s, run, ?_⟩
  rw [rx]
  exact ⟨rfl, rfl, fun _ _ => rfl, rfl, rfl, rfl, rfl, linesAfter_resetEvents s.cfg s.pin, rfl, rfl, rfl, rfl,
    (exec_effect run).marks_sub⟩

end Sys2Proof.Machine
end

section
/-! PROOFS. The wait events of an operation, counted piece by piece of its listing (70_reset_and_hazards.md R279). -/

namespace Sys2Proof.Machine

/-! ### Counting waits -/

/-- What an event adds to the counts of `DelayMs` and of `DelayUs` events. -/
def Event.waits : Event → Nat × Nat
  | .delayMs _ => (1, 0)
  | .delayUs _ => (0, 1)
  | _ => 0

/-- The numbers of `DelayMs` and of `DelayUs` events in a list. -/
def waits (es : List Event) : Nat × Nat := (es.map Event.waits).sum

/-- The `DelayUs` events of one byte: two a bit in software mode (40_transport.md R120, R121). -/
def byteWaits (c : Cfg) : Nat :=
  match c.xport with
  | .hw => 0
  | .sw _ _ => 16

@[simp] theorem waits_nil : waits [] = 0 := rfl

@[simp] theorem waits_cons (e : Event) (es : List Event) : waits (e :: es) = e.waits + waits es := List.sum_cons

@[simp] theorem waits_append (es fs : List Event) : waits (es ++ fs) = waits es + waits fs := by simp [waits]

/-- Pieces that wait alike, and for no `DelayMs`, are counted once. -/
theorem waits_flatten {u : Nat} {pieces : List (List Event)} (h : ∀ es ∈ pieces, waits es = (0, u)) :
    waits pieces.flatten = (0, u * pieces.length) := by
  induction pieces with
  | nil => rfl
  | cons es pieces ih =>
    obtain ⟨first, rest⟩ := List.forall_mem_cons.1 h
    rw [List.flatten_cons, waits_append, first, ih rest, List.length_cons, Nat.mul_succ, Nat.add_comm _ u]
    rfl

theorem waits_replicate_flatten {u : Nat} {es : List Event} (n : Nat) (h : waits es = (0, u)) :
    waits (List.replicate n es).flatten = (0, u * n) := by
  rw [waits_flatten fun es' h' => List.eq_of_mem_replicate h' ▸ h, List.length_replicate]

theorem waits_flatMap {α : Type*} {u : Nat} {f : α → List Event} (l : List α) (h : ∀ a, waits (f a) = (0, u)) :
    waits (l.flatMap f) = (0, u * l.length) := by
  rw [List.flatMap_def, waits_flatten (List.forall_mem_map.2 fun a _ => h a), List.length_map]

/-- The two counts are those of the events that pass the test for either kind. -/
theorem waits_eq_length_filter {ms us : Event → Bool} (hms : ∀ e, (ms e).toNat = e.waits.1)
    (hus : ∀ e, (us e).toNat = e.waits.2) (es : List Event) :
    waits es = ((es.filter ms).length, (es.filter us).length) := by
  have count {p : Event → Bool} (e : Event) (es : List Event) :
      ((e :: es).filter p).length = (p e).toNat + (es.filter p).length := by
    cases h : p e <;> simp [h, Nat.add_comm]
  induction es with
  | nil => rfl
  | cons e es ih => rw [waits_cons, ih, count, count, hms, hus]; rfl

/-! ### The waits of each piece -/

section Pieces
variable (c : Cfg)

@[simp] theorem waits_bitEvents (x : Bool) : waits (bitEvents c x) = (0, 2) := rfl

@[simp] theorem waits_byteEvents (b : Byte) : waits (byteEvents c b) = (0, byteWaits c) := by
  cases hx : c.xport with
  | hw => rw [byteEvents, byteWaits, hx]; rfl
  | sw clk dat => simp [byteEvents, byteWaits, hx]

/-- A byte of `FILL_SCREEN` has a delay of its own after it (45_fill.md R230). -/
theorem waits_delayedByte (b : Byte) (d : Nat) : waits (byteEvents c b ++ [.delayUs d]) = (0, byteWaits c + 1) := by
  simp [Event.waits]

@[simp] theorem waits_commandEvents (r : Reg) (v : Byte) : waits (commandEvents c r v) = (0, byteWaits c) := by
  simp [commandEvents, Event.waits]

@[simp] theorem waits_bracketEvents (body : List Event) : waits (bracketEvents body) = waits body := by
  simp [bracketEvents, Event.waits]

@[simp] theorem waits_tripleEvents (column page : Nat) : waits (tripleEvents c column page) = (0, byteWaits c * 3) := by
  simp +arith [tripleEvents]

@[simp] theorem waits_setupEvents : waits (setupEvents c) = 0 := by
  cases hx : c.xport <;> simp [setupEvents, hx, Event.waits]

@[simp] theorem waits_resetEvents : waits (resetEvents c) = (2, 0) := rfl

@[simp] theorem waits_initEvents (vbias : Byte) : waits (initEvents c vbias) = (1, byteWaits c * 9) := by
  simp +arith [initEvents, Event.waits]

/-- The line setup waits for nothing, so `BEGIN` waits as the pulse and the nine commands do (42_lifecycle.md R161). -/
theorem waits_beginEvents (vbias : Byte) :
    waits (setupEvents c ++ resetEvents c ++ initEvents c vbias) = (3, byteWaits c * 9) := by
  simp

/-- A display control waits in its one byte (42_lifecycle.md R168 to R172). -/
theorem waits_display (r : Reg) (v : Byte) : waits (bracketEvents (commandEvents c r v)) = (0, byteWaits c) := by
  simp

/-- A band waits in the bytes of its three commands and of its unclipped columns (44_transfer.md R210). -/
theorem waits_band (column page : Nat) (sent : Nat → Byte) (cols : List Nat) :
    waits (tripleEvents c column page ++ cols.flatMap fun tx => byteEvents c (sent tx)) =
      (0, byteWaits c * (3 + cols.length)) := by
  rw [waits_append, waits_tripleEvents, waits_flatMap cols fun _ => waits_byteEvents c _, Nat.mul_add]
  rfl

/-- A stream waits alike in every written band (44_transfer.md R210). -/
theorem waits_flatMap_actEvents_streamActs (x y : Int) (w h : Nat) (bytes : Nat → Byte) :
    waits ((streamActs c x y w h).flatMap (actEvents c x bytes)) =
      (0, byteWaits c * (3 * (writtenBands c y h).length +
        (writtenBands c y h).length * (sentColumns c x w).length)) := by
  simp only [streamActs, List.flatMap_assoc, List.flatMap_cons, List.flatMap_map, actEvents]
  rw [waits_flatMap _ fun ty => waits_band c _ _ (fun tx => bytes (w * (ty / 8) + tx)) _]
  ring_nf

end Pieces

/-! ### The statement -/

/-- Settles O57: the listing that each operation has played is counted piece by piece; a stream that stops at a byte it
cannot read has recorded a fault. -/
theorem waitEventCounts : Obligations.WaitEventCounts := by
  intro i s t es h trace fault half ms us
  have counts {played : List Event} {m u : Nat} (hp : t.trace = s.trace ++ played) (hw : waits played = (m, u)) :
      ms = m ∧ us = u := by
    obtain rfl : es = played := List.append_cancel_left (trace.symm.trans hp)
    have counted : waits es = (ms, us) :=
      waits_eq_length_filter (fun e => by cases e <;> rfl) (fun e => by cases e <;> rfl) es
    exact Prod.mk.inj (counted.symm.trans hw)
  cases exec_effect h with
  | beginOp vbias => exact counts rfl (waits_beginEvents s.cfg vbias)
  | reset => exact counts rfl (waits_resetEvents s.cfg)
  | display hi => cases hi <;> exact counts rfl (waits_display s.cfg _ _)
  | scroll v => exact counts rfl (waits_display s.cfg .scroll v)
  | setPixel | clearBuffer => exact counts (List.append_nil _).symm waits_nil
  | fillScreen pattern d =>
    exact counts rfl ((waits_bracketEvents _).trans (waits_replicate_flatten _ (waits_delayedByte s.cfg pattern d)))
  | fillPage pattern =>
    exact counts rfl ((waits_bracketEvents _).trans (waits_replicate_flatten _ (waits_byteEvents s.cfg pattern)))
  | streamed hi =>
    cases hi with
    | transfer | bitmap =>
      exact counts rfl ((waits_bracketEvents _).trans (waits_flatMap_actEvents_streamActs s.cfg _ _ _ _ _))
    | stream => trivial
  | streamRaised => cases fault
  | data hi => cases hi <;> trivial
  | command hi => cases hi <;> trivial
  | initRegs | sendByte | addrTriple => trivial

end Sys2Proof.Machine
end
